-- ==== Sys2Proof/Word.lean ====
section
/-! DEFINITION. The 16-bit word, the byte, and the conversions of rule R8 (00_scope.md): `trunc16`, `sext16`, `zext16`, `s16`.
Every cell and both working registers are 16 bits wide (R5); addresses are integers (10_state.md R13, R14; decision D12). -/

namespace Sys2Proof

/-- A 16-bit pattern: the content of a cell, of `A` and of `B` (R5, R8). -/
abbrev Word := BitVec 16

/-- An 8-bit pattern: half a cell, or a character code (R8, 20_memory.md R42). -/
abbrev Byte := BitVec 8

/-- `trunc16 z = z mod 2^16` as a pattern (R8). -/
def trunc16 (z : Int) : Word := BitVec.ofInt 16 z

/-- The signed view of a pattern, `-32768..32767` (R8). -/
def sext16 (w : Word) : Int := w.toInt

/-- The unsigned view of a pattern, `0..65535` (R8). -/
def zext16 (w : Word) : Nat := w.toNat

/-- The document's `truncate16` (R8): reduce modulo `2^16` and read as signed. -/
def s16 (z : Int) : Int := sext16 (trunc16 z)

/-- Eight bits of an integer, `z mod 256` (20_memory.md R44). -/
def trunc8 (z : Int) : Byte := BitVec.ofInt 8 z

end Sys2Proof
end

