-- ==== Sys2Proof/Config.lean ====
section
/-! DEFINITION. What an implementation fixes and the spec leaves open: the named parameters of 00_scope.md R4
(a structure, whose default values stand in Machine/Parameters.lean) and the FREE VALUES, opaque constants without a body
that stand for the spec's `any16` and the other draws of 70_reset_and_hazards.md R309. -/

namespace Sys2Proof

/-- The services of the system-call port (44_syscall_port.md R222), one name each. -/
inductive Service where
  | abort
  | backtrace
  | selectInput
  | selectOutput
  | rdch
  | wrch
  | input
  | output
  | stop
  | level
  | longJump
  | aptOvec
  | findOutput
  | findInput
  | endRead
  | endWrite
  | writeS
  | writeN
  | newLine
  | newPage
  | packString
  | unpackString
  | writeD
  | readN
  | writeHex
  | writeF
  | writeOct
  | getByte
  | putByte
  deriving DecidableEq, Repr

/-- The conversions of the format writer (44_syscall_port.md R234), by the document's words. -/
inductive Conversion where
  | string
  | char
  | octal
  | hex
  | decimal
  | plainDecimal
  deriving DecidableEq, Repr

/-- The implementation parameters of R4. They never change; a statement about every state speaks of every choice of them. -/
structure Params where
  /-- `MEM_CELLS`, the number of 16-bit cells (D1). -/
  memCells : Nat
  /-- `LABEL_COUNT`, the number of label-table entries (D2). -/
  labelCount : Nat
  /-- `PROG_START`, the program-start threshold (D3). -/
  progStart : Nat
  /-- `GVEC_BASE`, the cell address of global-vector slot 0 (D23). -/
  gvecBase : Int
  /-- `FILLER_LETTER`, the no-op filler letter of an instruction token (D24). -/
  fillerLetter : Byte
  /-- `BOOT_IMAGE`, the words reset places at `PROG_START` (D34). -/
  bootImage : List Word
  /-- `START_GLOBAL`, the global slot that holds the entry address (D34, 70_reset_and_hazards.md R291). -/
  startGlobal : Nat
  /-- `K_<service>`, the number of each service (R222, D17). -/
  calls : List (Int × Service)
  /-- `TERMINATOR_CELL`, the cell `ReadN` writes (R241, D43). -/
  terminatorCell : Int
  /-- `ENDSTREAM`, what a read at the end of a stream returns: no character code (R4, D42). -/
  endStream : Word
  /-- The default input handle (R20; a parameter by 93_implementation_defined.md U17). -/
  defaultInput : Int
  /-- The default output handle (R20, U17). -/
  defaultOutput : Int
  /-- The argument order of `PackString` and `UnpackString`, which the spec does not give (91_not_in_source.md N18): true when
  the source is argument 0 and the destination argument 1. -/
  packSourceFirst : Bool
  /-- The argument order of the formatted decimal, octal and hexadecimal outputs, which the spec does not give
  (91_not_in_source.md N14): true when the number is argument 0 and the width or digit count argument 1. -/
  numberFirst : Bool
  /-- Where the format writer's arguments stand, which the spec does not give (N14): true when its vector pointer starts at the
  cell after the format argument, false when argument 1 is that pointer. -/
  formatInline : Bool
  deriving DecidableEq, Repr

/-- A 16-bit pattern nothing constrains, one for each draw: the spec's `any16` (R8, R309). -/
opaque Config.anyWord : Nat → BitVec 16

/-- The content of a byte nothing has written, one for each draw (20_memory.md R56, R309). -/
opaque Config.anyByte : Nat → BitVec 8

/-- Text whose wording the spec does not give: diagnostic lines (60_exceptions.md R264), and formatted output for operands whose text
it does not state (44_syscall_port.md R234). -/
opaque Config.anyText : Nat → List (BitVec 8)

/-- The handle value the registry proposes for a new stream (44_syscall_port.md R237, R309). -/
opaque Config.anyHandle : Nat → Int

/-- The characters of the hexadecimal digits 10 to 15, whose case the spec does not give (44_syscall_port.md R234). -/
opaque Config.hexLetter : Nat → BitVec 8

/-- The character that fills a field (91_not_in_source.md N14). -/
opaque Config.padCharacter : BitVec 8

/-- Whether a field is filled before the number or after it (R234 gives a fixed width and no side). -/
opaque Config.padBefore : Bool

/-- What stands for the sign of a number that is not negative, in a field (R234 says "sign" and no more). -/
opaque Config.plusSign : List (BitVec 8)

/-- The conversion a directive letter stands for, if one (N14: no letter is given). -/
opaque Config.directiveOf : BitVec 8 → Option Conversion

/-- The width or digit count a directive gets from the format text after its letter, and how many characters of that text tell
it (N14: how a width follows a directive is not given). -/
opaque Config.directiveWidth : Conversion → List (BitVec 8) → Int × Nat

/-- The page-break character, whose code the spec does not give (44_syscall_port.md R233). -/
opaque Config.pageBreak : BitVec 8

end Sys2Proof
end

