-- ==== Sys2Proof/Machine/Parameters.lean ====
section
/-! DEFINITION. The parameters' default values (00_scope.md R4, 44_syscall_port.md R222), the values derived from them, and what
makes a choice of parameters admissible. -/

namespace Sys2Proof

/-- The boot trampoline through global slot `g`, `LI<g> K2 X22` (70_reset_and_hazards.md R291): 264, 518, 5639 for slot 1. -/
def bootTrampoline (g : Nat) : List Word := [BitVec.ofNat 16 (256 * g + 8), 518, 5639]

/-- The default service numbers (R222; D17: unaudited, from general knowledge). -/
def standardCalls : List (Int × Service) :=
  [(3, .abort), (4, .backtrace), (11, .selectInput), (12, .selectOutput), (13, .rdch), (14, .wrch), (16, .input),
   (17, .output), (30, .stop), (31, .level), (32, .longJump), (40, .aptOvec), (41, .findOutput), (42, .findInput),
   (46, .endRead), (47, .endWrite), (60, .writeS), (62, .writeN), (63, .newLine), (64, .newPage), (66, .packString),
   (67, .unpackString), (68, .writeD), (70, .readN), (75, .writeHex), (76, .writeF), (77, .writeOct), (85, .getByte),
   (86, .putByte)]

/-- The defaults of R4 and R222. DESIGN CHOICE where R4 gives none (log entry 4, unsafe for a claim that rests on them):
`MEM_CELLS`, `ENDSTREAM`, the default handles; PRESUMED: the argument orders the spec does not give. -/
def Params.standard : Params :=
  { memCells := 100000
    labelCount := 500
    progStart := 401
    gvecBase := 0
    fillerLetter := 71
    bootImage := bootTrampoline 1
    startGlobal := 1
    calls := standardCalls
    terminatorCell := 71
    endStream := 65535
    defaultInput := 1
    defaultOutput := 2
    packSourceFirst := true
    numberFirst := true
    formatInline := true }

/-- `LABV_BASE = MEM_CELLS - LABEL_COUNT` (10_state.md R18). -/
def Params.labvBase (p : Params) : Int := (p.memCells : Int) - p.labelCount

/-- `ADDR_LIMIT = min(LABV_BASE, 32768)` (20_memory.md R54). -/
def Params.addrLimit (p : Params) : Int := min p.labvBase 32768

/-- The value of `LC` after reset, `PROG_START + length(BOOT_IMAGE)` (10_state.md R25). -/
def Params.loadBase (p : Params) : Int := (p.progStart : Int) + p.bootImage.length

/-- The service that owns call number `n` (R222), if one does. -/
def Params.serviceOf (p : Params) (n : Int) : Option Service :=
  (p.calls.find? fun e => decide (e.1 = n)).map Prod.snd

/-- The constraints the spec puts on the parameters: `MEM_CELLS` holds the identity region, the boot image and the label
table (D1), the boot image lies at valid addresses, the service numbers are distinct and below `PROG_START` (R222), `ENDSTREAM`
is no character code (R4), the trampoline can pack `START_GLOBAL` (R291), and the two default handles differ from each other and
from 0, the "not found" value (R20). -/
def Params.wf (p : Params) : Bool :=
  decide (p.progStart + p.bootImage.length + p.labelCount ≤ p.memCells) &&
  decide (p.loadBase < 32768) &&
  decide ((p.calls.map Prod.fst).Nodup) &&
  p.calls.all (fun e => decide (0 ≤ e.1) && decide (e.1 < p.progStart)) &&
  decide (255 < p.endStream.toNat) && decide (p.startGlobal ≤ 255) &&
  decide (p.defaultInput ≠ 0) && decide (p.defaultOutput ≠ 0) && decide (p.defaultInput ≠ p.defaultOutput)

/-- The services that write memory (R242). -/
def Service.writesMemory (service : Service) : Bool :=
  match service with
  | .aptOvec | .putByte | .packString | .unpackString | .readN => true
  | _ => false

/-- The services that write `SP` and `PC` (R242). -/
def Service.writesControl (service : Service) : Bool :=
  match service with
  | .longJump | .aptOvec => true
  | _ => false

end Sys2Proof
end

