-- ==== Sys2Proof/Machine/State.lean ====
section
/-! DEFINITION. The machine's state as plain data (10_state.md R10 to R25), the host state behind the ports that the spec
describes (44_syscall_port.md), the reasons a step can stop, and the state after reset. -/

namespace Sys2Proof.Machine

/-- A memory: (byte address, byte) pairs, strictly rising; a byte address is `2*c + i` for byte `i` of cell `c` (R42). -/
abbrev Memory := List Host.Cell

/-- A label table: (label number, sign-coded entry) pairs, strictly rising; an unlisted entry is 0, unused (R18). -/
abbrev LabelTable := List (Nat × Word)

/-- The name of a stream or file, by character codes. -/
abbrev Name := List Byte

/-- Text, by character codes (ASCII, R8). -/
abbrev Text := List Byte

/-- The fatal conditions of 60_exceptions.md R260 and the two model-only causes of R263. -/
inductive Cause where
  | duplicateLabel (n : Nat)
  | unsetLabel (n : Nat)
  | badCode
  | loadFailure
  | unknownCall (n : Int)
  | unknownSelector (k : Int)
  | addressOutOfRange (address : Int)
  | badSwitchCount (count : Int)
  deriving DecidableEq, Repr

/-- The phase of the machine, `RUN` (00_scope.md R7, 10_state.md R21). -/
inductive Phase where
  | reset
  | loading
  | ready
  | running
  /-- a normal end with a 16-bit signed exit value -/
  | stopped (value : Word)
  /-- a fatal end -/
  | halted (cause : Cause)
  deriving DecidableEq, Repr

/-- The byte slot `CP` (R19): `low` is 0, `high` is 1. -/
inductive ByteSlot where
  | low
  | high
  deriving DecidableEq, Repr

inductive StreamMode where
  | read
  | write
  deriving DecidableEq, Repr

/-- A stream record (44_syscall_port.md R237): "content: mutable text buffer; position cursor; mode; optional name". -/
structure Stream where
  content : Text
  position : Nat
  mode : StreamMode
  name : Option Name
  deriving DecidableEq, Repr

/-- One item of the run's configuration listing (70_reset_and_hazards.md R293). -/
inductive RunItem where
  | load (name : Name)
  | redirectInput (name : Name)
  | redirectOutput (name : Name)
  deriving DecidableEq, Repr

/-- The machine. -/
@[ext]
structure State where
  /-- the implementation parameters (R4): constant, no state of the spec's -/
  par : Params
  /-- `A` (R11) -/
  a : Word
  /-- `B` (R12) -/
  b : Word
  /-- `PC` (R13) -/
  pc : Int
  /-- `SP` (R14) -/
  sp : Int
  /-- `M` (R16, R17) -/
  mem : Memory
  /-- `LABV` (R18) -/
  labv : LabelTable
  /-- `LC` (R19) -/
  lc : Int
  /-- `CP` (R19) -/
  cp : ByteSlot
  /-- `CH` (R19, R101): the next unconsumed character; `none` is `ENDSTREAM` -/
  ch : Option Byte
  /-- `CIS` (R20) -/
  cis : Int
  /-- `COS` (R20) -/
  cos : Int
  /-- `RUN` (R21) -/
  run : Phase
  /-- the registry's handles, each with the number of its record (R237, R239) -/
  slots : List (Int × Nat)
  /-- the registry's stream records (R237) -/
  records : List Stream
  /-- the run's mapping from name to content (R237, R242) -/
  files : List (Name × Text)
  /-- the characters forwarded to the live-output observer (R238) -/
  live : Text
  /-- the configuration items the host has still to drive (R293) -/
  config : List RunItem
  /-- the counter from which free values are drawn (R309): the model's own -/
  draws : Nat
  deriving DecidableEq, Repr

/-- The reasons a step ends in a fault. All are safe: the model goes no further where the spec gives no meaning. -/
inductive Fault where
  /-- an access at an invalid cell address, or at a byte address whose cell is invalid (R54, R263): raised by every read, write
  and fetch; `frozen` is the halted state of R264; safe -/
  | addressOutOfRange (address : Int) (frozen : State)
  /-- `X23` with a negative pair count (R203, R263): raised by the switch; `frozen` is the halted state; safe -/
  | badSwitchCount (count : Int) (frozen : State)
  /-- a label definition whose chain never reaches 0 (R105, R119): raised by the loader, which would never finish; safe -/
  | chainNeverEnds (label : Nat) (frozen : State)
  /-- the run has ended and takes no further step (R264, R295): raised by `step`; safe -/
  | runEnded
  deriving DecidableEq, Repr

/-- What the model gives no meaning. All are safe: no claim is made of such a run. -/
inductive Refusal where
  /-- an instruction without a meaning in the model (none is left) -/
  | notModelled (mnemonic : String)
  /-- a numeral above 65535 in the text (R104, U10): raised by the loader; safe -/
  | numeralTooLarge (value : Nat)
  /-- `C<n>` with `n > 255` (R109, U10): raised by the loader; safe -/
  | byteTooLarge (value : Nat)
  /-- a label number outside the table (R117, U10): raised by the loader; safe -/
  | labelOutOfTable (label : Nat)
  /-- `-` where a numeral must start (R104, U8): raised by the loader; safe -/
  | signedNumeral
  /-- a control character or lower-case letter in the text (R102, U9): raised by the loader; safe -/
  | strayCharacter (code : Byte)
  /-- `AptOvec` with a negative upper bound (R228): raised by that service; safe -/
  | negativeVectorBound (bound : Int)
  /-- the input redirected to a name that has no content (R239 does not say what happens): raised by the host driver; safe -/
  | redirectNotFound (name : Name)
  deriving DecidableEq, Repr

/-- What an operation of the machine answers: a value and a state; or the end of the run by a fatal condition, in its halted
state (R264); or a fault; or a refusal. -/
inductive Res (α : Type) where
  | ok (value : α) (s : State)
  | ended (s : State)
  | fault (r : Fault)
  | refused (r : Refusal)
  deriving DecidableEq, Repr

/-- The state after reset (10_state.md R25, 70_reset_and_hazards.md R290). The fields the spec leaves unspecified hold the values
of log entries 1 to 7. -/
def State.reset : State :=
  { par := Params.standard
    a := 0
    b := 0
    pc := Params.standard.progStart
    sp := Params.standard.loadBase
    mem := []
    labv := []
    lc := Params.standard.loadBase
    cp := .low
    ch := none
    cis := Params.standard.defaultInput
    cos := Params.standard.defaultOutput
    run := .reset
    slots := [(Params.standard.defaultInput, 0), (Params.standard.defaultOutput, 1)]
    records := [⟨[], 0, .read, none⟩, ⟨[], 0, .write, none⟩]
    files := []
    live := []
    config := []
    draws := 0 }

end Sys2Proof.Machine
end

