-- ==== Sys2Proof/Machine/Flags.lean ====
section
/-! DEFINITION. The machine has no flags (10_state.md R15): no instruction records a carry, an overflow or a condition. What
stands in their place: the truth values the relations write into `A` (43_extended_ops.md section 5), the test of `T` and `F`
(42_primary_ops.md R164, R165), and the ALU of 43_extended_ops.md R205, whose every result is the exact one reduced modulo `2^16`. -/

namespace Sys2Proof.Machine

/-- All-ones for true, all-zeros for false (R190 to R195). -/
def truthWord (c : Prop) [Decidable c] : Word := if c then 0xFFFF else 0

/-- The test of `T` and `F`: any nonzero pattern is true (R164). -/
def isTruth (w : Word) : Bool := decide (sext16 w ≠ 0)

/-- The quotient rounded toward zero (R186, D14). -/
def quotient (b a : Int) : Int := Int.tdiv b a

/-- The remainder, with the sign of the dividend (R187, D14). -/
def remainder (b a : Int) : Int := b - a * quotient b a

/-- A shift amount the spec gives a result for (R196, R197). -/
abbrev shiftDefined (a : Int) : Prop := 0 ≤ a ∧ a ≤ 15

/-- `trunc16(b * 2^a)` (R196). -/
def shiftLeft (b : Word) (a : Nat) : Word := trunc16 (sext16 b * ((2 ^ a : Nat) : Int))

/-- `floor(zext_16(b) / 2^a)` (R197). -/
def shiftRight (b : Word) (a : Nat) : Word := BitVec.ofNat 16 (zext16 b / 2 ^ a)

end Sys2Proof.Machine
end

