-- ==== Sys2Proof/Machine/Bytes.lean ====
section
/-! DEFINITION. The two bytes of a cell: byte 0 is the low-order half, byte 1 the high-order half (20_memory.md R42, R46). -/

namespace Sys2Proof.Machine

/-- Byte 0 of a cell, its low-order half (R42). -/
def loByte (w : Word) : Byte := w.extractLsb' 0 8

/-- Byte 1 of a cell, its high-order half (R42). -/
def hiByte (w : Word) : Byte := w.extractLsb' 8 8

/-- The cell whose byte 0 is `lo` and byte 1 is `hi` (R42, R46). -/
def joinBytes (lo hi : Byte) : Word := hi ++ lo

/-- The byte `i mod 2` of a cell (R42): `i` even is the low half. -/
def byteOf (w : Word) (i : Nat) : Byte := if i % 2 = 0 then loByte w else hiByte w

/-- The byte address of the other byte of a byte's cell (R42). -/
def otherByte (b : Nat) : Nat := if b % 2 = 0 then b + 1 else b - 1

end Sys2Proof.Machine
end

