-- ==== Sys2Proof/Syntax.lean ====
section
/-! DEFINITION. The instructions: one constructor for each of the 31 rows of spec/opcode_table.json. The eight primary
opcodes take an operand with its modifiers (30_encoding.md R70 to R75); the rows `X1` to `X23` are the usual one-cell words of
opcode `X`, with no operand of their own (R77, R78); `x` is every other word of opcode `X`. -/

namespace Sys2Proof

/-- The literal of an operand (R74, R75): packed in bits 15:8 of the word, or the whole next cell (flag `D`). -/
inductive Literal where
  | packed (n : Byte)
  | extended (w : Word)
  deriving DecidableEq, Repr

/-- An operand: its literal and the modifiers `I` (indirect) and `P` (stack-relative) (R70, R72). -/
structure Operand where
  indirect : Bool
  relative : Bool
  literal : Literal
  deriving DecidableEq, Repr

inductive Instr where
  /-- `L`, Load (R160) -/
  | l (op : Operand)
  /-- `S`, Store (R161) -/
  | s (op : Operand)
  /-- `A`, AddImmediate (R162) -/
  | a (op : Operand)
  /-- `J`, Jump (R163) -/
  | j (op : Operand)
  /-- `T`, JumpIfTrue (R164) -/
  | t (op : Operand)
  /-- `F`, JumpIfFalse (R165) -/
  | f (op : Operand)
  /-- `K`, Call (R166) -/
  | k (op : Operand)
  /-- `X`, Extended, in any form but the usual one of `X1` to `X23` (R180) -/
  | x (op : Operand)
  /-- indirect fetch (R181) -/
  | x1
  /-- negate (R182) -/
  | x2
  /-- bitwise complement (R183) -/
  | x3
  /-- return (R184) -/
  | x4
  /-- multiply (R185) -/
  | x5
  /-- integer divide (R186) -/
  | x6
  /-- remainder (R187) -/
  | x7
  /-- add (R188) -/
  | x8
  /-- subtract (R189) -/
  | x9
  /-- equal (R190) -/
  | x10
  /-- not equal (R191) -/
  | x11
  /-- less than (R192) -/
  | x12
  /-- greater or equal (R193) -/
  | x13
  /-- greater than (R194) -/
  | x14
  /-- less or equal (R195) -/
  | x15
  /-- shift left (R196) -/
  | x16
  /-- logical shift right (R197) -/
  | x17
  /-- bitwise and (R198) -/
  | x18
  /-- bitwise or (R199) -/
  | x19
  /-- bitwise exclusive or (R200) -/
  | x20
  /-- bitwise equivalence (R201) -/
  | x21
  /-- stop with value 0 (R202) -/
  | x22
  /-- switch (R203) -/
  | x23
  deriving DecidableEq, Repr

end Sys2Proof
end

