-- ==== Sys2Proof/WellFormed.lean ====
section
/-! DEFINITION. Which instruction terms stand for a word. Every operand with every combination of modifiers is legal
(30_encoding.md R72, R79). The one check: a word of opcode `X` without modifiers whose packed operand is 1 to 23 is the row
`X1` to `X23` itself (R78), so the term `x` does not stand for it. -/

namespace Sys2Proof

/-- The operand is the usual form of a sub-operation: no modifiers, packed selector 1 to 23 (R78). -/
def Operand.usualSelector (op : Operand) : Bool :=
  match op with
  | ⟨false, false, .packed n⟩ => decide (1 ≤ n.toNat) && decide (n.toNat ≤ 23)
  | _ => false

/-- The instruction is one the decoder can answer. -/
def Instr.wf (i : Instr) : Bool :=
  match i with
  | .x op => !op.usualSelector
  | .l _ | .s _ | .a _ | .j _ | .t _ | .f _ | .k _ => true
  | .x1 | .x2 | .x3 | .x4 | .x5 | .x6 | .x7 | .x8 | .x9 | .x10 | .x11 | .x12 => true
  | .x13 | .x14 | .x15 | .x16 | .x17 | .x18 | .x19 | .x20 | .x21 | .x22 | .x23 => true

end Sys2Proof
end

