-- ==== Sys2Proof/Decode.lean ====
section
/-! DEFINITION. From cells to instructions and back (30_encoding.md R70 to R79, 41_fetch_decode.md R142, R143). The word is
`nnnnnnnn--dpiooo`, most significant bit first; bits 7:6 are ignored, and bits 15:8 when `D = 1` (R73). Every 16-bit pattern
decodes (R79): the only rejections are for bytes that are not there. -/

namespace Sys2Proof

/-- Why the decoder answers no instruction: the bytes end before a whole instruction does. -/
inductive Reject where
  /-- fewer than two bytes: no instruction word -/
  | noWord
  /-- the word has `D = 1` and fewer than two bytes follow it -/
  | noOperandCell
  deriving DecidableEq, Repr

/-- `OP = W[2:0]` (R142). -/
def opcodeField (w : Word) : Nat := (w.extractLsb' 0 3).toNat

/-- `I = W[3]` (R142). -/
def indirectBit (w : Word) : Bool := w.getLsbD 3

/-- `P = W[4]` (R142). -/
def relativeBit (w : Word) : Bool := w.getLsbD 4

/-- `D = W[5]` (R142): a second cell holds the literal (R74). -/
def extendedBit (w : Word) : Bool := w.getLsbD 5

/-- `N = W[15:8]` (R70). -/
def packedField (w : Word) : Byte := w.extractLsb' 8 8

/-- The operand of word `w` whose next cell is `e` (R143): `e` matters only when `D = 1`. -/
def decodeOperand (w e : Word) : Operand :=
  { indirect := indirectBit w
    relative := relativeBit w
    literal := if extendedBit w then .extended e else .packed (packedField w) }

/-- The row of selector `k` in the table of R77, for `1 ≤ k ≤ 23`. -/
def selectorRow (k : Nat) : Option Instr :=
  match k with
  | 1 => some .x1
  | 2 => some .x2
  | 3 => some .x3
  | 4 => some .x4
  | 5 => some .x5
  | 6 => some .x6
  | 7 => some .x7
  | 8 => some .x8
  | 9 => some .x9
  | 10 => some .x10
  | 11 => some .x11
  | 12 => some .x12
  | 13 => some .x13
  | 14 => some .x14
  | 15 => some .x15
  | 16 => some .x16
  | 17 => some .x17
  | 18 => some .x18
  | 19 => some .x19
  | 20 => some .x20
  | 21 => some .x21
  | 22 => some .x22
  | 23 => some .x23
  | _ => none

/-- A word of opcode `X`: the usual one-cell form of a sub-operation is that row (R78); every other form keeps its operand,
whose value selects when the instruction runs (R180). -/
def decodeExtended (op : Operand) : Instr :=
  match op with
  | ⟨false, false, .packed n⟩ => (selectorRow n.toNat).getD (.x op)
  | _ => .x op

/-- The instruction of word `w` whose next cell is `e` (R71, R142). Total: decoding never fails. -/
def decodeWord (w e : Word) : Instr :=
  let op := decodeOperand w e
  match opcodeField w with
  | 0 => .l op
  | 1 => .s op
  | 2 => .a op
  | 3 => .j op
  | 4 => .t op
  | 5 => .f op
  | 6 => .k op
  | _ => decodeExtended op

/-- The decoder on bytes as memory holds them, low half of each cell first (20_memory.md R42): the instruction and the bytes
after it. -/
def decode (bytes : List Byte) : Except Reject (Instr × List Byte) :=
  match bytes with
  | lo :: hi :: rest =>
    if extendedBit (Machine.joinBytes lo hi) then
      match rest with
      | elo :: ehi :: rest' => .ok (decodeWord (Machine.joinBytes lo hi) (Machine.joinBytes elo ehi), rest')
      | _ => .error .noOperandCell
    else .ok (decodeWord (Machine.joinBytes lo hi) 0, rest)
  | _ => .error .noWord

/-- The instruction word of opcode `op` with operand `o` (R70): bits 7:6 are written 0, and bits 15:8 when `D = 1` (R73). -/
def encodeWord (op : BitVec 3) (o : Operand) : Word :=
  match o.literal with
  | .packed n => n ++ 0#2 ++ 0#1 ++ BitVec.ofBool o.relative ++ BitVec.ofBool o.indirect ++ op
  | .extended _ => 0#8 ++ 0#2 ++ 1#1 ++ BitVec.ofBool o.relative ++ BitVec.ofBool o.indirect ++ op

/-- The cells of opcode `op` with operand `o`: one, or two when the literal is extended (R74). -/
def encodeCells (op : BitVec 3) (o : Operand) : List Word :=
  match o.literal with
  | .packed _ => [encodeWord op o]
  | .extended e => [encodeWord op o, e]

/-- The usual word of sub-operation `k`, `256*k + 7` (R78). -/
def selectorWord (k : Byte) : Word := encodeWord 7 ⟨false, false, .packed k⟩

/-- The cells of an instruction, from the encoding tables of R70, R71 and R77. -/
def encode (i : Instr) : List Word :=
  match i with
  | .l op => encodeCells 0 op
  | .s op => encodeCells 1 op
  | .a op => encodeCells 2 op
  | .j op => encodeCells 3 op
  | .t op => encodeCells 4 op
  | .f op => encodeCells 5 op
  | .k op => encodeCells 6 op
  | .x op => encodeCells 7 op
  | .x1 => [selectorWord 1]
  | .x2 => [selectorWord 2]
  | .x3 => [selectorWord 3]
  | .x4 => [selectorWord 4]
  | .x5 => [selectorWord 5]
  | .x6 => [selectorWord 6]
  | .x7 => [selectorWord 7]
  | .x8 => [selectorWord 8]
  | .x9 => [selectorWord 9]
  | .x10 => [selectorWord 10]
  | .x11 => [selectorWord 11]
  | .x12 => [selectorWord 12]
  | .x13 => [selectorWord 13]
  | .x14 => [selectorWord 14]
  | .x15 => [selectorWord 15]
  | .x16 => [selectorWord 16]
  | .x17 => [selectorWord 17]
  | .x18 => [selectorWord 18]
  | .x19 => [selectorWord 19]
  | .x20 => [selectorWord 20]
  | .x21 => [selectorWord 21]
  | .x22 => [selectorWord 22]
  | .x23 => [selectorWord 23]

/-- Cells as the bytes memory holds, byte 0 of each first (20_memory.md R42). -/
def bytesOfCells (cells : List Word) : List Byte :=
  match cells with
  | [] => []
  | w :: rest => Machine.loByte w :: Machine.hiByte w :: bytesOfCells rest

/-- The bytes of an instruction. -/
def encodeBytes (i : Instr) : List Byte := bytesOfCells (encode i)

/-- Cell `j` of an instruction whose bits are `w`, numbered from bit 0 of the first cell, bits from `nbits` on being 0. -/
def tableCell (nbits w j : Nat) : Word := BitVec.ofNat 16 (w % 2 ^ nbits / 65536 ^ j)

/-- The instruction this decoder reads from an opcode-table row's bits, with operand cells of zeros above `nbits`. -/
def decodeTableWord (nbits w : Nat) : Option Instr :=
  match decode (bytesOfCells [tableCell nbits w 0, tableCell nbits w 1]) with
  | .ok (i, _) => some i
  | .error _ => none

end Sys2Proof
end

