-- ==== Sys2Proof/Machine/Streams.lean ====
section
/-! DEFINITION. The Stream Registry behind the `SYS` and `LOAD` ports (44_syscall_port.md R236 to R239): reading and writing a
handle, opening by name, redirection. Host behaviour, outside the block (00_scope.md R3), modelled as the spec transcribes it. -/

namespace Sys2Proof.Machine

/-- Carriage return becomes line feed (R238). -/
def normalizeChar (c : Byte) : Byte := if c = 13 then 10 else c

def lowerChar (c : Byte) : Byte := if 65 ≤ c.toNat ∧ c.toNat ≤ 90 then c + 32 else c

def upperChar (c : Byte) : Byte := if 97 ≤ c.toNat ∧ c.toNat ≤ 122 then c - 32 else c

/-- The reserved name `SYSIN`, in lower case (R237). -/
def nameSysin : Name := [115, 121, 115, 105, 110]

/-- The reserved name `SYSPRINT`, in lower case (R237). -/
def nameSysprint : Name := [115, 121, 115, 112, 114, 105, 110, 116]

/-- The number of the record a handle stands for. -/
def State.recordNo (h : Int) (s : State) : Option Nat :=
  (s.slots.find? fun e => decide (e.1 = h)).map Prod.snd

/-- The record a handle stands for. -/
def State.streamAt (h : Int) (s : State) : Option Stream :=
  (s.recordNo h).bind fun r => s.records[r]?

/-- The characters of a handle's stream that have not been read. -/
def State.unread (h : Int) (s : State) : Text :=
  match s.streamAt h with
  | some st => st.content.drop st.position
  | none => []

/-- `read(handle)` (R238): the next character, or `some none` at the end of the stream. A handle that names no stream answers
`none`: the spec does not say what a read of it does (log entry 9). A stream of mode write is read from its cursor like any other,
which R237 leaves open (DESIGN CHOICE, log entry 31). -/
def State.readChar (h : Int) (s : State) : Option (Option Byte) × State :=
  match s.recordNo h with
  | none => (none, s)
  | some r =>
    match s.records[r]? with
    | none => (none, s)
    | some st =>
      match st.content[st.position]? with
      | none => (some none, s)
      | some c => (some (some (normalizeChar c)), { s with records := s.records.set r { st with position := st.position + 1 } })

/-- The mapping with `name`'s content replaced. -/
def setFile (name : Name) (text : Text) (files : List (Name × Text)) : List (Name × Text) :=
  match files with
  | [] => [(name, text)]
  | e :: rest => if e.1 = name then (name, text) :: rest else e :: setFile name text rest

/-- The content under exactly this name. -/
def getFile (name : Name) (files : List (Name × Text)) : Option Text :=
  (files.find? fun e => decide (e.1 = name)).map Prod.snd

/-- The lookup of R237: exact, then lower-case, then upper-case. -/
def lookupFile (name : Name) (files : List (Name × Text)) : Option Text :=
  match getFile name files with
  | some t => some t
  | none =>
    match getFile (name.map lowerChar) files with
    | some t => some t
    | none => getFile (name.map upperChar) files

/-- The content a written character leaves under the stream's name: a write stream's name shows what was written (R237, R242). A
character written to a stream of mode read does not show there (DESIGN CHOICE, log entry 31); two write streams of one name both
append to its one entry, which the spec leaves open (DESIGN CHOICE, log entry 32). -/
def recordInFiles (st : Stream) (c : Byte) (files : List (Name × Text)) : List (Name × Text) :=
  match st.mode, st.name with
  | .write, some name => setFile name ((getFile name files).getD [] ++ [c]) files
  | _, _ => files

/-- `write(handle, char)` (R238): append to the stream's buffer; forward to the live-output observer when the record is the one
the default output handle stands for. A handle that names no stream takes no character (log entry 9); a stream
of mode read takes it like any other, which R237 leaves open (DESIGN CHOICE, log entry 31). -/
def State.writeChar (h : Int) (c : Byte) (s : State) : State :=
  match s.recordNo h with
  | none => s
  | some r =>
    match s.records[r]? with
    | none => s
    | some st =>
      { s with
        records := s.records.set r { st with content := st.content ++ [c] }
        files := recordInFiles st c s.files
        live := if s.recordNo s.par.defaultOutput = some r then s.live ++ [c] else s.live }

/-- Characters written one at a time, in order (R234). -/
def State.writeChars (h : Int) (text : Text) (s : State) : State :=
  text.foldl (fun t c => t.writeChar h c) s

/-- `writeChars`, with the fields it leaves alone taken from `s`, so that they can be evaluated whatever the text. -/
def State.writeText (h : Int) (text : Text) (s : State) : State :=
  { s with
    records := (s.writeChars h text).records
    files := (s.writeChars h text).files
    live := (s.writeChars h text).live }

/-- A handle no stream has: the first one above 0. -/
def State.spareHandle (s : State) : Int :=
  match (List.range (s.slots.length + 1)).find? fun (i : Nat) => (s.recordNo ((i : Int) + 1)).isNone with
  | some i => (i : Int) + 1
  | none => (s.slots.length : Int) + 2

/-- "a new integer handle" (R237): a free value (R309), kept to what the spec says of it: new, not the "not found" value 0, and
small enough to pass through a cell (log entry 8). -/
def State.newHandle (s : State) : Int :=
  let h := Config.anyHandle s.draws
  if h ≠ 0 ∧ -32768 ≤ h ∧ h ≤ 32767 ∧ s.recordNo h = none then h else s.spareHandle

/-- A new record under a new handle. -/
def State.addStream (st : Stream) (s : State) : Int × State :=
  (s.newHandle, { s with slots := (s.newHandle, s.records.length) :: s.slots, records := s.records ++ [st], draws := s.draws + 1 })

/-- The default handle a reserved name resolves to, in either mode (R237). -/
def reservedHandle (p : Params) (name : Name) : Option Int :=
  if name.map lowerChar = nameSysin then some p.defaultInput
  else if name.map lowerChar = nameSysprint then some p.defaultOutput
  else none

/-- `open(name, read)` (R237): handle 0 when the name has no content. The stream holds the content as it is now (log entry 10). -/
def State.openInput (name : Name) (s : State) : Int × State :=
  match reservedHandle s.par name with
  | some h => (h, s)
  | none =>
    match lookupFile name s.files with
    | none => (0, s)
    | some text => s.addStream ⟨text, 0, .read, some name⟩

/-- `open(name, write)` (R237): "a freshly created empty named entry", under the name as it is spelled: the three spellings of the
lookup are not tried, which R237 leaves open (DESIGN CHOICE, log entry 36). Content the name had before is dropped (log entries 21
and 32). -/
def State.openOutput (name : Name) (s : State) : Int × State :=
  match reservedHandle s.par name with
  | some h => (h, s)
  | none => { s with files := setFile name [] s.files }.addStream ⟨[], 0, .write, some name⟩

/-- `rebindInput(name)` (R239): the default input stream's buffer is overwritten in place; `none` when the name has no content. A
reserved name is looked up in the mapping like any other, which R237 and R239 leave open (DESIGN CHOICE, log entry 33). -/
def State.rebindInput (name : Name) (s : State) : Option State :=
  match lookupFile name s.files with
  | none => none
  | some text =>
    match s.recordNo s.par.defaultInput with
    | none => some s
    | some r =>
      match s.records[r]? with
      | none => some s
      | some st => some { s with records := s.records.set r { st with content := text, position := 0 } }

/-- `rebindOutput(name)` (R239): the default output handle's slot points at a newly created record of that name, a
reserved name too (DESIGN CHOICE, log entry 33), under the name as it is spelled (DESIGN CHOICE, log entry 36). -/
def State.rebindOutput (name : Name) (s : State) : State :=
  { s with
    files := setFile name [] s.files
    slots := s.slots.map fun e => if e.1 = s.par.defaultOutput then (e.1, s.records.length) else e
    records := s.records ++ [⟨[], 0, .write, some name⟩] }

end Sys2Proof.Machine
end

