-- ==== Sys2Proof/Machine/Ops.lean ====
section
/-! DEFINITION. The named operations every meaning is built from: sequencing, the fatal end, memory by byte and by cell
(20_memory.md R40 to R56), free values (70_reset_and_hazards.md R309), and the fetch (41_fetch_decode.md R141 to R143). -/

namespace Sys2Proof.Machine

/-- Sequencing: go on with the value and the state, or pass on the end. -/
def Res.bind {α β : Type} (r : Res α) (k : α → State → Res β) : Res β :=
  match r with
  | .ok v s => k v s
  | .ended s => .ended s
  | .fault f => .fault f
  | .refused q => .refused q

/-- Sequencing into the outcome of a step: the halted state of a fatal condition is a next state (R264). -/
def Res.andThen {α : Type} (r : Res α) (k : α → State → Host.Outcome State Fault Refusal) : Host.Outcome State Fault Refusal :=
  match r with
  | .ok v s => k v s
  | .ended s => .next s
  | .fault f => .fault f
  | .refused q => .refused q

/-! ## The fatal end (60_exceptions.md R264) -/

/-- What a halt does: diagnostic text, whose wording the spec does not give, goes to the current output, and `RUN` becomes
`Halted(cause)`. No register or cell is written (R265). -/
def State.halt (cause : Cause) (s : State) : State :=
  { { s with draws := s.draws + 1 }.writeText s.cos (Config.anyText s.draws) with run := .halted cause }

/-- `raise` (R8): the step ends in the halted state. This is the machine's one exceptional mechanism (R265). -/
def raise {α : Type} (cause : Cause) (s : State) : Res α := .ended (s.halt cause)

/-- The model-only fault `AddressOutOfRange` (R54, R263), with the frozen state. -/
def addressFault {α : Type} (address : Int) (s : State) : Res α :=
  .fault (.addressOutOfRange address { s with run := .halted (.addressOutOfRange address) })

/-! ## Free values (R309) -/

/-- `A <- any16`. -/
def State.anyA (s : State) : State := { s with a := Config.anyWord s.draws, draws := s.draws + 1 }

/-- `B <- any16`. -/
def State.anyB (s : State) : State := { s with b := Config.anyWord s.draws, draws := s.draws + 1 }

/-! ## Sparse lists, strictly rising by key -/

/-- The value listed under a key. -/
def lookupKey {α : Type} (k : Nat) (m : List (Nat × α)) : Option α :=
  match m with
  | [] => none
  | e :: rest => if e.1 = k then some e.2 else lookupKey k rest

/-- List a value under a key, in its place. -/
def insertKey {α : Type} (k : Nat) (v : α) (m : List (Nat × α)) : List (Nat × α) :=
  match m with
  | [] => [(k, v)]
  | e :: rest => if k < e.1 then (k, v) :: e :: rest else if e.1 = k then (k, v) :: rest else e :: insertKey k v rest

/-- List nothing under a key. -/
def eraseKey {α : Type} (k : Nat) (m : List (Nat × α)) : List (Nat × α) :=
  m.filter fun e => decide (e.1 ≠ k)

/-! ## Memory by byte -/

/-- What an unlisted byte reads as (10_state.md R25): the identity region and the boot image hold their reset contents; every
other byte holds no value, and a read of it draws one (R56). -/
def resetByte (p : Params) (b : Nat) : Option Byte :=
  if b / 2 < p.progStart then some (byteOf (trunc16 (b / 2 : Nat)) b)
  else (p.bootImage[b / 2 - p.progStart]?).map fun w => byteOf w b

/-- One byte of memory; `none` where nothing has been written since reset. -/
def getByteAt (p : Params) (m : Memory) (b : Nat) : Option Byte :=
  match lookupKey b m with
  | some v => some v
  | none => resetByte p b

/-- Write one byte, keeping the canonical form: what an unlisted byte reads as is not listed. -/
def putByteAt (p : Params) (m : Memory) (b : Nat) (v : Byte) : Memory :=
  if resetByte p b = some v then eraseKey b m else insertKey b v m

/-- The canonical form of memory: strictly rising addresses, all of valid cells (R54), and no entry equal to what an unlisted
byte reads as. -/
abbrev Memory.wf (p : Params) (m : Memory) : Prop :=
  m.Pairwise (fun e f => e.1 < f.1) ∧ (∀ e ∈ m, ((e.1 / 2 : Nat) : Int) < p.addrLimit) ∧ ∀ e ∈ m, resetByte p e.1 ≠ some e.2

/-- The byte at byte address `b`, as the next reader finds it; `none` where nothing has been written. -/
def State.peekByte (s : State) (b : Nat) : Option Byte := getByteAt s.par s.mem b

/-- The pattern in cell `c`, where both its bytes hold a value. -/
def State.peekCell (s : State) (c : Nat) : Option Word :=
  match s.peekByte (2 * c), s.peekByte (2 * c + 1) with
  | some lo, some hi => some (joinBytes lo hi)
  | _, _ => none

/-- Read one byte: its value, or a free value where nothing has been written (R56). -/
def State.takeByte (b : Nat) (s : State) : Byte × State :=
  match s.peekByte b with
  | some v => (v, s)
  | none => (Config.anyByte s.draws, { s with draws := s.draws + 1 })

/-- Write one byte. -/
def State.pokeByte (b : Nat) (v : Byte) (s : State) : State := { s with mem := putByteAt s.par s.mem b v }

/-- Write one cell: its two bytes (R42). -/
def State.pokeCell (c : Nat) (w : Word) (s : State) : State :=
  (s.pokeByte (2 * c) (loByte w)).pokeByte (2 * c + 1) (hiByte w)

/-! ## `MemRead` and `MemWrite` -/

/-- A cell address is valid iff `0 <= a < ADDR_LIMIT` (R54). -/
abbrev validCell (p : Params) (a : Int) : Prop := 0 ≤ a ∧ a < p.addrLimit

/-- `MemRead(a, 16)` (R41, R54). -/
def readCell (a : Int) (s : State) : Res Word :=
  if validCell s.par a then
    let (lo, s₁) := s.takeByte (2 * a.toNat)
    let (hi, s₂) := s₁.takeByte (2 * a.toNat + 1)
    .ok (joinBytes lo hi) s₂
  else addressFault a s

/-- `MemWrite(a, 16, v)` (R41, R54): stores `trunc16(v)`. -/
def writeCell (a : Int) (v : Int) (s : State) : Res Unit :=
  if validCell s.par a then .ok () (s.pokeCell a.toNat (trunc16 v)) else addressFault a s

/-- `MemRead(b, 8)` (R43): the cell of byte address `b` is `b div 2`, floor division. -/
def readByte (b : Int) (s : State) : Res Byte :=
  if validCell s.par (b / 2) then
    let (v, s₁) := s.takeByte b.toNat
    .ok v s₁
  else addressFault b s

/-- `MemWrite(b, 8, v)` (R44): a read-modify-write of one cell that stores `v mod 256`. The other byte of the cell keeps its
value; in a cell nothing has written, that value is drawn here, once (R51, R56). -/
def writeByte (b : Int) (v : Int) (s : State) : Res Unit :=
  if validCell s.par (b / 2) then
    let (other, s₁) := s.takeByte (otherByte b.toNat)
    .ok () ((s₁.pokeByte (otherByte b.toNat) other).pokeByte b.toNat (trunc8 v))
  else addressFault b s

/-! ## Fetch (41_fetch_decode.md R141 to R143) -/

/-- `W <- zext_16(MemRead(PC, 16)); PC <- PC + 1` (R141); the operand cell is read the same way (R143). -/
def fetchCell (s : State) : Res Word :=
  (readCell s.pc s).bind fun w s₁ => .ok w { s₁ with pc := s₁.pc + 1 }

/-- Fetch the word, and the operand cell when its bit `D` is set, and decode (R141 to R143). -/
def fetch (s : State) : Res Instr :=
  (fetchCell s).bind fun w s₁ =>
    if extendedBit w then (fetchCell s₁).bind fun e s₂ => .ok (decodeWord w e) s₂
    else .ok (decodeWord w 0) s₁

end Sys2Proof.Machine
end

