-- ==== Sys2Proof/Machine/Operands.lean ====
section
/-! DEFINITION. The effective operand (41_fetch_decode.md R143 to R146): the same eight addressing modes for every opcode
(30_encoding.md R72). -/

namespace Sys2Proof.Machine

/-- The literal as an integer (R143): packed `0..255`, extended in the signed view (D11). -/
def literalValue (l : Literal) : Int :=
  match l with
  | .packed n => n.toNat
  | .extended w => sext16 w

/-- The operand before indirection (R143, R144): `P` adds `SP`, with no truncation (D12). -/
def operandBase (op : Operand) (s : State) : Int :=
  literalValue op.literal + if op.relative then s.sp else 0

/-- The effective operand `EA` (R145, R146): `I` replaces the operand by the signed content of the cell it addresses. -/
def operand (op : Operand) (s : State) : Res Int :=
  if op.indirect then (readCell (operandBase op s) s).bind fun w s₁ => .ok (sext16 w) s₁
  else .ok (operandBase op s) s

end Sys2Proof.Machine
end

