-- ==== Sys2Proof/Machine/Services.lean ====
section
/-! DEFINITION. The system-call port and its services (44_syscall_port.md R220 to R242). `V` is the argument base. Every service
leaves `B` a free value, and `A` its result or a free value (R224). -/

namespace Sys2Proof.Machine

/-- `arg(i) = sext_16(MemRead(V + i, 16))` (44_syscall_port.md, template). -/
def argument (v : Int) (i : Nat) (s : State) : Res Int :=
  (readCell (v + i) s).bind fun w s₁ => .ok (sext16 w) s₁

/-- The end of a service with a result (R224): `A <- trunc16(result)`, `B <- any16`. -/
def serviceResult (result : Int) (s : State) : State := { s with a := trunc16 result }.anyB

/-- The end of a service without a result (R224): `A` and `B` are free values. -/
def serviceDone (s : State) : State := s.anyA.anyB

/-! ## Services that act on the block's own state (R225 to R231) -/

/-- `Stop` (R225): `RUN <- Stopped(arg(0))`. -/
def serviceStop (v : Int) (s : State) : Host.Outcome State Fault Refusal :=
  (argument v 0 s).andThen fun value s₁ => .next (serviceDone { s₁ with run := .stopped (trunc16 value) })

/-- `Level` (R226): `A <- trunc16(SP)`. -/
def serviceLevel (s : State) : Host.Outcome State Fault Refusal := .next (serviceResult s.sp s)

/-- `LongJump` (R227): both arguments are read before either register is written. -/
def serviceLongJump (v : Int) (s : State) : Host.Outcome State Fault Refusal :=
  (argument v 0 s).andThen fun t s₁ => (argument v 1 s₁).andThen fun u s₂ =>
    .next (serviceDone { s₂ with sp := t, pc := u })

/-- `AptOvec` (R228), with `F = V - 2` the frame base the `K` computed. -/
def serviceAptOvec (v : Int) (s : State) : Host.Outcome State Fault Refusal :=
  (argument v 0 s).andThen fun f s₁ => (argument v 1 s₁).andThen fun n s₂ =>
    if n < 0 then .refused (.negativeVectorBound n)
    else
      let vector := v - 2
      let base := vector + n + 1
      (writeCell base s₂.sp s₂).andThen fun _ s₃ =>
      (writeCell (base + 1) s₃.pc s₃).andThen fun _ s₄ =>
      (writeCell (base + 2) vector s₄).andThen fun _ s₅ =>
      (writeCell (base + 3) n s₅).andThen fun _ s₆ =>
      .next (serviceDone { s₆ with sp := base, pc := f })

/-- `GetByte` (R229): `A <- MemRead(2*s + i, 8)`. -/
def serviceGetByte (v : Int) (s : State) : Host.Outcome State Fault Refusal :=
  (argument v 0 s).andThen fun c s₁ => (argument v 1 s₁).andThen fun i s₂ =>
    (readByte (2 * c + i) s₂).andThen fun byte s₃ => .next (serviceResult byte.toNat s₃)

/-- `PutByte` (R230): `MemWrite(2*s + i, 8, c)`. -/
def servicePutByte (v : Int) (s : State) : Host.Outcome State Fault Refusal :=
  (argument v 0 s).andThen fun c s₁ => (argument v 1 s₁).andThen fun i s₂ => (argument v 2 s₂).andThen fun byte s₃ =>
    (writeByte (2 * c + i) byte s₃).andThen fun _ s₄ => .next (serviceDone s₄)

/-- `Abort` (R231): nothing. -/
def serviceAbort (s : State) : Host.Outcome State Fault Refusal := .next (serviceDone s)

/-- `Backtrace` (R231): nothing. -/
def serviceBacktrace (s : State) : Host.Outcome State Fault Refusal := .next (serviceDone s)

/-! ## Stream handles (R236, R237) -/

def serviceSelectInput (v : Int) (s : State) : Host.Outcome State Fault Refusal :=
  (argument v 0 s).andThen fun h s₁ => .next (serviceDone { s₁ with cis := h })

def serviceSelectOutput (v : Int) (s : State) : Host.Outcome State Fault Refusal :=
  (argument v 0 s).andThen fun h s₁ => .next (serviceDone { s₁ with cos := h })

def serviceInput (s : State) : Host.Outcome State Fault Refusal := .next (serviceResult s.cis s)

def serviceOutput (s : State) : Host.Outcome State Fault Refusal := .next (serviceResult s.cos s)

def serviceEndRead (s : State) : Host.Outcome State Fault Refusal := .next (serviceDone { s with cis := s.par.defaultInput })

def serviceEndWrite (s : State) : Host.Outcome State Fault Refusal := .next (serviceDone { s with cos := s.par.defaultOutput })

/-- `count` bytes from byte address `b` on, first byte first (20_memory.md R42). -/
def readBytes (b : Int) (count : Nat) (s : State) : Res (List Byte) :=
  match count with
  | 0 => .ok [] s
  | n + 1 => (readByte b s).bind fun c s₁ => (readBytes (b + 1) n s₁).bind fun rest s₂ => .ok (c :: rest) s₂

/-- The contents of the packed string at cell `c` (20_memory.md R45): byte 0 is the length. -/
def readPacked (c : Int) (s : State) : Res (List Byte) :=
  (readByte (2 * c) s).bind fun n s₁ => readBytes (2 * c + 1) n.toNat s₁

/-- Open for input by name (R237): the handle, or 0. -/
def serviceFindInput (v : Int) (s : State) : Host.Outcome State Fault Refusal :=
  (argument v 0 s).andThen fun c s₁ => (readPacked c s₁).andThen fun name s₂ =>
    .next (serviceResult (s₂.openInput name).1 (s₂.openInput name).2)

/-- Open for output by name (R237). -/
def serviceFindOutput (v : Int) (s : State) : Host.Outcome State Fault Refusal :=
  (argument v 0 s).andThen fun c s₁ => (readPacked c s₁).andThen fun name s₂ =>
    .next (serviceResult (s₂.openOutput name).1 (s₂.openOutput name).2)

/-! ## Characters (R233) -/

/-- What a read of a stream gives software: the character code, or `ENDSTREAM` (R233, R238). -/
def characterValue (p : Params) (r : Option Byte) : Int :=
  match r with
  | some c => c.toNat
  | none => sext16 p.endStream

/-- `rdch` (R233): `A` is the next character of `CIS`; a free value when `CIS` names no stream (log entry 9). -/
def serviceRdch (s : State) : Host.Outcome State Fault Refusal :=
  match s.readChar s.cis with
  | (some r, s₁) => .next (serviceResult (characterValue s.par r) s₁)
  | (none, s₁) => .next (serviceDone s₁)

/-- The character `wrch` writes for `value`: its code, or a free one when the value is no character code (log entry 9). -/
def characterOf (value : Int) (s : State) : Byte × State :=
  if 0 ≤ value ∧ value ≤ 255 then (trunc8 value, s) else (Config.anyByte s.draws, { s with draws := s.draws + 1 })

/-- `wrch` (R233): the character `arg(0)` to stream `COS`. -/
def serviceWrch (v : Int) (s : State) : Host.Outcome State Fault Refusal :=
  (argument v 0 s).andThen fun value s₁ =>
    let (c, s₂) := characterOf value s₁
    .next (serviceDone (s₂.writeChar s₂.cos c))

/-- Line break emission (R233): a line feed. -/
def serviceNewLine (s : State) : Host.Outcome State Fault Refusal := .next (serviceDone (s.writeChar s.cos 10))

/-- Page break emission (R233): a character whose code the spec does not give. -/
def serviceNewPage (s : State) : Host.Outcome State Fault Refusal := .next (serviceDone (s.writeChar s.cos Config.pageBreak))

/-! ## Formatted output (R234) -/

/-- Decimal digits of a natural number, most significant first, at most `fuel` of them. -/
def decimalDigits (fuel n : Nat) : Text :=
  match fuel with
  | 0 => []
  | k + 1 => if n < 10 then [BitVec.ofNat 8 (48 + n)] else decimalDigits k (n / 10) ++ [BitVec.ofNat 8 (48 + n % 10)]

/-- A number in plain decimal: a minus sign for a negative one, then its digits. -/
def decimalText (z : Int) : Text := if z < 0 then 45 :: decimalDigits 5 z.natAbs else decimalDigits 5 z.natAbs

/-- Write a string: the characters of the packed string at `arg(0)` (R222, R234). -/
def serviceWriteS (v : Int) (s : State) : Host.Outcome State Fault Refusal :=
  (argument v 0 s).andThen fun c s₁ => (readPacked c s₁).andThen fun text s₂ => .next (serviceDone (s₂.writeText s₂.cos text))

/-- Plain decimal output of `arg(0)` (R234). -/
def serviceWriteN (v : Int) (s : State) : Host.Outcome State Fault Refusal :=
  (argument v 0 s).andThen fun n s₁ => .next (serviceDone (s₁.writeText s₁.cos (decimalText n)))

/-- Text the spec does not give, a new one at each draw, to `COS` (R309). -/
def freeOutput (s : State) : State := { s with draws := s.draws + 1 }.writeText s.cos (Config.anyText s.draws)

/-- The character of a digit. -/
def digitCharacter (d : Nat) : Byte := if d < 10 then BitVec.ofNat 8 (48 + d) else Config.hexLetter d

/-- A fixed count of digits in a base, most significant first, by recursion on the count (R234). -/
def fixedDigits (base count n : Nat) : Text :=
  match count with
  | 0 => []
  | k + 1 => fixedDigits base k (n / base) ++ [digitCharacter (n % base)]

/-- Octal or hexadecimal output of `value` in `count` digits (R234). A negative value or count has no stated text: a free one
(log entry 19). -/
def writeDigits (base : Nat) (value count : Int) (s : State) : State :=
  if 0 ≤ value ∧ 0 ≤ count then s.writeText s.cos (fixedDigits base count.toNat value.toNat) else freeOutput s

/-- A number with its sign, filled to `width` characters. -/
def fieldText (value : Int) (width : Nat) : Text :=
  let number := (if value < 0 then [45] else Config.plusSign) ++ decimalDigits 5 value.natAbs
  let fill := List.replicate (width - number.length) Config.padCharacter
  if Config.padBefore then fill ++ number else number ++ fill

/-- Decimal output of `value` with sign in a field of `width` characters (R234). A number that does not fit has no stated text: a
free one (log entry 19). -/
def writeField (value width : Int) (s : State) : State :=
  if ((fieldText value width.toNat).length : Int) = width then s.writeText s.cos (fieldText value width.toNat) else freeOutput s

/-- Two arguments of a service: argument 0 first when `inOrder`, else argument 1 first. -/
def twoArguments (inOrder : Bool) (v : Int) (s : State) : Res (Int × Int) :=
  (argument v 0 s).bind fun x s₁ => (argument v 1 s₁).bind fun y s₂ => .ok (if inOrder then (x, y) else (y, x)) s₂

/-- Decimal with fixed field width and sign (R234). -/
def serviceWriteD (v : Int) (s : State) : Host.Outcome State Fault Refusal :=
  (twoArguments s.par.numberFirst v s).andThen fun (value, width) s₁ => .next (serviceDone (writeField value width s₁))

/-- Hexadecimal with fixed digit count (R234). -/
def serviceWriteHex (v : Int) (s : State) : Host.Outcome State Fault Refusal :=
  (twoArguments s.par.numberFirst v s).andThen fun (value, count) s₁ => .next (serviceDone (writeDigits 16 value count s₁))

/-- Octal with fixed digit count (R234). -/
def serviceWriteOct (v : Int) (s : State) : Host.Outcome State Fault Refusal :=
  (twoArguments s.par.numberFirst v s).andThen fun (value, count) s₁ => .next (serviceDone (writeDigits 8 value count s₁))

/-- One conversion of the format writer (R234): the services of the same names, on the argument `value`. -/
def writeConversion (conversion : Conversion) (width value : Int) (s : State) : Res Unit :=
  match conversion with
  | .string => (readPacked value s).bind fun text s₁ => .ok () (s₁.writeText s₁.cos text)
  | .char => .ok () ((characterOf value s).2.writeChar s.cos (characterOf value s).1)
  | .octal => .ok () (writeDigits 8 value width s)
  | .hex => .ok () (writeDigits 16 value width s)
  | .decimal => .ok () (writeField value width s)
  | .plainDecimal => .ok () (s.writeText s.cos (decimalText value))

/-- The format writer (R234) on what is left of the format, with vector pointer `p`: a `%` (37) and a directive letter write the
argument cell `p` points to and advance `p`; every other character is written as it is. A letter that is no directive, or none,
has no stated text: a free one, and no argument is consumed (log entry 35). `fuel` is the length of the text at most. -/
def writeFormat (fuel : Nat) (format : Text) (p : Int) (s : State) : Res Unit :=
  match fuel, format with
  | n + 1, c :: rest =>
    if c ≠ 37 then writeFormat n rest p (s.writeChar s.cos c)
    else
      match rest with
      | [] => .ok () (freeOutput s)
      | letter :: more =>
        match Config.directiveOf letter with
        | none => writeFormat n more p (freeOutput s)
        | some conversion =>
          let width := Config.directiveWidth conversion more
          (readCell p s).bind fun w s₁ => (writeConversion conversion width.1 (sext16 w) s₁).bind fun _ s₂ =>
            writeFormat n (more.drop width.2) (p + 1) s₂
  | _, _ => .ok () s

/-- Where the format writer's vector pointer starts, as the parameters say (log entry 4). -/
def formatVector (v : Int) (s : State) : Res Int := if s.par.formatInline then .ok (v + 1) s else argument v 1 s

/-- The `%`-directive format writer (R234): the format is the packed string at argument 0. -/
def serviceWriteF (v : Int) (s : State) : Host.Outcome State Fault Refusal :=
  (argument v 0 s).andThen fun c s₁ => (formatVector v s₁).andThen fun p s₂ => (readPacked c s₂).andThen fun format s₃ =>
    (writeFormat format.length format p s₃).andThen fun _ s₄ => .next (serviceDone s₄)

/-! ## Strings (R235) -/

/-- The source and destination arguments, in the order the parameters say (log entry 4). -/
def stringArguments (v : Int) (s : State) : Res (Int × Int) := twoArguments s.par.packSourceFirst v s

/-- The low bytes of `count` cells from cell `c` on. -/
def readCellBytes (c : Int) (count : Nat) (s : State) : Res (List Byte) :=
  match count with
  | 0 => .ok [] s
  | n + 1 => (readCell c s).bind fun w s₁ => (readCellBytes (c + 1) n s₁).bind fun rest s₂ => .ok (loByte w :: rest) s₂

/-- Write bytes from byte address `b` on. -/
def writeBytes (b : Int) (bytes : List Byte) (s : State) : Res Unit :=
  match bytes with
  | [] => .ok () s
  | c :: rest => (writeByte b c.toNat s).bind fun _ s₁ => writeBytes (b + 1) rest s₁

/-- Write bytes one to a cell from cell `c` on, zero-extended. -/
def writeCellBytes (c : Int) (bytes : List Byte) (s : State) : Res Unit :=
  match bytes with
  | [] => .ok () s
  | x :: rest => (writeCell c x.toNat s).bind fun _ s₁ => writeCellBytes (c + 1) rest s₁

/-- The bytes of a packed string, with the half cell an even length leaves over as `pad`. -/
def packedBytes (text : List Byte) (pad : Byte) : List Byte :=
  BitVec.ofNat 8 text.length :: text ++ (if text.length % 2 = 0 then [pad] else [])

/-- `PackString` (R235): from one character a cell, its length in cell 0, to the packed form of R45. The unused half of the last
cell is a free value (log entry 11). -/
def servicePackString (v : Int) (s : State) : Host.Outcome State Fault Refusal :=
  (stringArguments v s).andThen fun (source, destination) s₁ =>
  (readCell source s₁).andThen fun length s₂ =>
  (readCellBytes (source + 1) (loByte length).toNat s₂).andThen fun text s₃ =>
  (writeBytes (2 * destination) (packedBytes text (Config.anyByte s₃.draws)) { s₃ with draws := s₃.draws + 1 }).andThen fun _ s₄ =>
  .next (serviceDone s₄)

/-- `UnpackString` (R235): from the packed form to one character a cell, the length in cell 0. -/
def serviceUnpackString (v : Int) (s : State) : Host.Outcome State Fault Refusal :=
  (stringArguments v s).andThen fun (source, destination) s₁ =>
  (readPacked source s₁).andThen fun text s₂ =>
  (writeCellBytes destination (BitVec.ofNat 8 text.length :: text) s₂).andThen fun _ s₃ =>
  .next (serviceDone s₃)

/-! ## `ReadN` (R241) -/

/-- Leading whitespace of `ReadN`: space, line feed, tab (log entry 12). -/
def isWhite (c : Byte) : Bool := c = 32 || c = 10 || c = 9

def isDigit (c : Byte) : Bool := decide (48 ≤ c.toNat) && decide (c.toNat ≤ 57)

/-- The value of a run of decimal digits, continuing from `value` (40_loader.md R104). -/
def digitsValue (value : Nat) (digits : List Byte) : Nat :=
  digits.foldl (fun v c => 10 * v + (c.toNat - 48)) value

/-- The number at the start of `text` after its white space and sign, and the text after its digits (R241). The signs are `-` (45),
which R241's property shows, and `+` (43), which no rule names (DESIGN CHOICE, log entry 37); text without a digit is log entry 28. -/
def parseNumber (text : Text) : Int × Text :=
  let body := text.dropWhile isWhite
  let (negative, rest) :=
    match body with
    | c :: more => if c = 45 then (true, more) else if c = 43 then (false, more) else (false, body)
    | [] => (false, [])
  let value : Int := digitsValue 0 (rest.takeWhile isDigit)
  (if negative then -value else value, rest.dropWhile isDigit)

/-- Move the position of a handle's stream so that `count` characters are unread. -/
def State.leaveUnread (h : Int) (count : Nat) (s : State) : State :=
  match s.recordNo h with
  | none => s
  | some r =>
    match s.records[r]? with
    | none => s
    | some st => { s with records := s.records.set r { st with position := st.content.length - count } }

/-- `ReadN` (R241): the number to `A`, the terminator's code to `TERMINATOR_CELL`, its characters consumed from `CIS`. When `CIS`
names no stream, the number and the terminator are free values (log entry 9). -/
def serviceReadN (s : State) : Host.Outcome State Fault Refusal :=
  match s.streamAt s.cis with
  | none =>
    (writeCell s.par.terminatorCell (sext16 (Config.anyWord s.draws)) { s with draws := s.draws + 1 }).andThen fun _ s₁ =>
      .next (serviceDone s₁)
  | some _ =>
    let parsed := parseNumber ((s.unread s.cis).map normalizeChar)
    let terminator := parsed.2.head?
    (writeCell s.par.terminatorCell (characterValue s.par terminator)
      (s.leaveUnread s.cis (parsed.2.length - 1))).andThen fun _ s₁ => .next (serviceResult parsed.1 s₁)

/-! ## The port (R220, R223) -/

/-- One service, run to completion inside the `K` step (R220). -/
def runService (service : Service) (v : Int) (s : State) : Host.Outcome State Fault Refusal :=
  match service with
  | .abort => serviceAbort s
  | .backtrace => serviceBacktrace s
  | .selectInput => serviceSelectInput v s
  | .selectOutput => serviceSelectOutput v s
  | .rdch => serviceRdch s
  | .wrch => serviceWrch v s
  | .input => serviceInput s
  | .output => serviceOutput s
  | .stop => serviceStop v s
  | .level => serviceLevel s
  | .longJump => serviceLongJump v s
  | .aptOvec => serviceAptOvec v s
  | .findOutput => serviceFindOutput v s
  | .findInput => serviceFindInput v s
  | .endRead => serviceEndRead s
  | .endWrite => serviceEndWrite s
  | .writeS => serviceWriteS v s
  | .writeN => serviceWriteN v s
  | .newLine => serviceNewLine s
  | .newPage => serviceNewPage s
  | .packString => servicePackString v s
  | .unpackString => serviceUnpackString v s
  | .writeD => serviceWriteD v s
  | .readN => serviceReadN s
  | .writeHex => serviceWriteHex v s
  | .writeF => serviceWriteF v s
  | .writeOct => serviceWriteOct v s
  | .getByte => serviceGetByte v s
  | .putByte => servicePutByte v s

/-- `SysCall(n, V)` (R220): the service that owns number `n`, or the fatal `UnknownCall` (R223). -/
def sysCall (n v : Int) (s : State) : Host.Outcome State Fault Refusal :=
  match s.par.serviceOf n with
  | some service => runService service v s
  | none => .next (s.halt (.unknownCall n))

end Sys2Proof.Machine
end

