-- ==== Sys2Proof/Machine/Loader.lean ====
section
/-! DEFINITION. The assembler/loader and the label backpatch resolver (40_loader.md R100 to R119). The loader's step is one
top-level dispatch of R101: one token, one separator or one comment (70_reset_and_hazards.md R307). Characters are named by
their ASCII codes (00_scope.md R8): line feed 10, space 32, `-` 45, `/` 47, `0` 48, `A` 65. -/

namespace Sys2Proof.Machine

/-! ## The token reader -/

/-- `CH <- next()` (R101): the next character of the current input stream, or `ENDSTREAM`. -/
def nextChar (s : State) : State :=
  { (s.readChar s.cis).2 with ch := (s.readChar s.cis).1.join }

/-- Consume characters while `keep` holds of `CH`, and answer them; `fuel` bounds how many. -/
def takeChars (keep : Byte → Bool) (fuel : Nat) (s : State) : List Byte × State :=
  match fuel with
  | 0 => ([], s)
  | n + 1 =>
    match s.ch with
    | none => ([], s)
    | some c =>
      if keep c then
        let (rest, s₁) := takeChars keep n (nextChar s)
        (c :: rest, s₁)
      else ([], s)

/-- The maximal run of characters `keep` holds of: there are no more than the unread ones and `CH` itself. -/
def takeWhile (keep : Byte → Bool) (s : State) : List Byte × State :=
  takeChars keep ((s.unread s.cis).length + 1) s

/-- Characters of text that U9 says to refuse: control characters but the line feed, and lower-case letters. -/
def isStray (c : Byte) : Bool :=
  (decide (c.toNat < 32) && decide (c ≠ 10)) || c = 127 || (decide (97 ≤ c.toNat) && decide (c.toNat ≤ 122))

/-- `BadCode` (R114), for a character that cannot stand where it does: refused where 93_implementation_defined.md U9 says a model
should refuse the text instead of relying on the halt. -/
def badCode {α : Type} (s : State) : Res α :=
  match s.ch with
  | some c => if isStray c then .refused (.strayCharacter c) else raise .badCode s
  | none => raise .badCode s

/-- `rdn()` (R104): the maximal run of digits, at least one; a value above 65535 is refused (D26), and so is a sign (U8). -/
def readNumeral (s : State) : Res Nat :=
  match takeWhile isDigit s with
  | ([], _) => if s.ch = some 45 then .refused .signedNumeral else badCode s
  | (digits, s₁) =>
    if digitsValue 0 digits ≤ 65535 then .ok (digitsValue 0 digits) s₁ else .refused (.numeralTooLarge (digitsValue 0 digits))

/-! ## Emitting cells and label references -/

/-- Entry `n` of the label table, in the signed view (10_state.md R18). -/
def State.labelEntry (n : Nat) (s : State) : Int := sext16 ((lookupKey n s.labv).getD 0)

/-- `LABV[n] <- trunc16(v)`; an unused entry, 0, is not listed. -/
def State.setLabel (n : Nat) (v : Int) (s : State) : State :=
  { s with labv := if trunc16 v = 0 then eraseKey n s.labv else insertKey n (trunc16 v) s.labv }

/-- The canonical form of a label table: strictly rising numbers below `LABEL_COUNT`, no unused entry listed. -/
abbrev LabelTable.wf (p : Params) (t : LabelTable) : Prop :=
  t.Pairwise (fun e f => e.1 < f.1) ∧ (∀ e ∈ t, e.1 < p.labelCount) ∧ ∀ e ∈ t, e.2 ≠ 0

/-- A label number outside the table is refused (R117). -/
def checkLabel (n : Nat) (s : State) : Res Unit :=
  if n < s.par.labelCount then .ok () s else .refused (.labelOutOfTable n)

/-- `labref(n, a)` (R106): the address of a defined label, or a link of the label's chain. -/
def labelReference (n : Nat) (a : Int) (s : State) : Res Unit :=
  (checkLabel n s).bind fun _ s₁ =>
    if s₁.labelEntry n < 0 then writeCell a (-(s₁.labelEntry n)) s₁
    else (writeCell a (s₁.labelEntry n) s₁).bind fun _ s₂ => .ok () (s₂.setLabel n a)

/-- `stw(v)` (R107): emit one cell. -/
def emitCell (v : Int) (s : State) : Res Unit :=
  (writeCell s.lc v s).bind fun _ s₁ => .ok () { s₁ with lc := s₁.lc + 1, cp := .low }

/-! ## Tokens -/

/-- The walk of R105: patch every cell of the chain with the label's address, until the link 0. The fuel is more than the longest
walk that ends (log entry 13): without it the loader never finishes. -/
def patchChain (label : Nat) (fuel : Nat) (p : Int) (s : State) : Res Unit :=
  match fuel with
  | 0 => .fault (.chainNeverEnds label s)
  | n + 1 =>
    if p = 0 then .ok () s
    else (readCell p s).bind fun link s₁ => (writeCell p s₁.lc s₁).bind fun _ s₂ => patchChain label n (sext16 link) s₂

/-- More cells than a walk that ends can visit: each valid cell once, and two more (R105, R54). -/
def chainFuel : Nat := 32771

/-- Label definition (R105). -/
def defineLabel (s : State) : Res Unit :=
  (readNumeral s).bind fun n s₁ => (checkLabel n s₁).bind fun _ s₂ =>
    if s₂.labelEntry n < 0 then raise (.duplicateLabel n) s₂
    else (patchChain n chainFuel (s₂.labelEntry n) s₂).bind fun _ s₃ =>
      .ok () { s₃.setLabel n (-s₃.lc) with cp := .low }

/-- The opcode number of a letter (30_encoding.md R71): `L S A J T F K X` are 0 to 7. -/
def opcodeOfLetter (c : Byte) : Option Nat :=
  match c.toNat with
  | 76 => some 0
  | 83 => some 1
  | 65 => some 2
  | 74 => some 3
  | 84 => some 4
  | 70 => some 5
  | 75 => some 6
  | 88 => some 7
  | _ => none

/-- Consume `CH` if it is `c`, and say whether it was (R108). -/
def skipLetter (c : Byte) (s : State) : Bool × State :=
  if s.ch = some c then (true, nextChar s) else (false, s)

/-- Instruction (R108), entered with `CH` the opcode letter of `opcode`: `I`, `P`, the filler letter, then `L<n>` in the extended
form, or a numeral in the packed form up to 255 and in the extended form above. -/
def assembleInstruction (opcode : Nat) (s : State) : Res Unit :=
  let (indirect, s₁) := skipLetter 73 (nextChar s)
  let (relative, s₂) := skipLetter 80 s₁
  let (_, s₃) := skipLetter s.par.fillerLetter s₂
  let (byLabel, s₄) := skipLetter 76 s₃
  let w : Int := opcode + (if indirect then 8 else 0) + (if relative then 16 else 0)
  (readNumeral s₄).bind fun n s₅ =>
    if byLabel then
      (emitCell (w + 32) s₅).bind fun _ s₆ => (emitCell 0 s₆).bind fun _ s₇ => labelReference n (s₇.lc - 1) s₇
    else if n ≤ 255 then emitCell (w + 256 * n) s₅
    else (emitCell (w + 32) s₅).bind fun _ s₆ => emitCell n s₆

/-- `C<n>` (R109): the first byte of a pair starts a fresh zeroed cell and takes its low half, the second its high half. -/
def byteDirective (s : State) : Res Unit :=
  (readNumeral (nextChar s)).bind fun v s₁ =>
    if v > 255 then .refused (.byteTooLarge v)
    else
      match s₁.cp with
      | .low =>
        (emitCell 0 s₁).bind fun _ s₂ => (writeByte (2 * (s₂.lc - 1)) v s₂).bind fun _ s₃ => .ok () { s₃ with cp := .high }
      | .high =>
        (writeByte (2 * (s₁.lc - 1) + 1) v s₁).bind fun _ s₂ => .ok () { s₂ with cp := .low }

/-- `D<n>` (R110) and `DL<n>` (R111). -/
def dataDirective (s : State) : Res Unit :=
  let (byLabel, s₁) := skipLetter 76 (nextChar s)
  (readNumeral s₁).bind fun n s₂ =>
    if byLabel then (emitCell 0 s₂).bind fun _ s₃ => labelReference n (s₃.lc - 1) s₃
    else emitCell n s₂

/-- `G<n>L<m>` (R112): slot `n` of the global vector, zeroed, then a reference to label `m`. -/
def globalDirective (s : State) : Res Unit :=
  (readNumeral (nextChar s)).bind fun n s₁ =>
    let (_, s₂) := takeWhile (fun c => c = 32) s₁
    let (found, s₃) := skipLetter 76 s₂
    if found then
      (readNumeral s₃).bind fun m s₄ => (writeCell (s₄.par.gvecBase + n) 0 s₄).bind fun _ s₅ =>
        (labelReference m (s₅.par.gvecBase + n) s₅).bind fun _ s₆ => .ok () { s₆ with cp := .low }
    else badCode s₂

/-- The lowest label number referenced and not defined (R113; 90_conflicts.md C2). -/
def firstUnset (s : State) : Option Nat :=
  (List.range s.par.labelCount).find? fun n => decide (0 < s.labelEntry n)

/-- `Z` (R113): every label in use must be defined; then the table is cleared. -/
def endOfUnit (s : State) : Res Unit :=
  match firstUnset (nextChar s) with
  | some n => raise (.unsetLabel n) (nextChar s)
  | none => .ok () { nextChar s with labv := [], cp := .low }

/-- Comment (R103): characters up to a line feed or the end of the stream. -/
def skipComment (s : State) : State := (takeWhile (fun c => c ≠ 10) (nextChar s)).2

/-! ## Loading -/

/-- The entry of `assemble` (R100): `LC` goes on from where it was. -/
def beginAssemble (s : State) : State := nextChar { s with run := .loading, labv := [], cp := .low }

/-- `assemble` returns normally (R100, R115), and `loadcode` restores the default input stream (R116). -/
def endAssemble (s : State) : State := { s with run := .ready, cis := s.par.defaultInput }

/-- Top-level dispatch on the character `c` in `CH` (R101). -/
def dispatchChar (c : Byte) (s : State) : Res Unit :=
  if c = 32 ∨ c = 10 then .ok () (nextChar s)
  else if c = 47 then .ok () (skipComment s)
  else if isDigit c then defineLabel s
  else
    match opcodeOfLetter c with
    | some opcode => assembleInstruction opcode s
    | none =>
      match c.toNat with
      | 67 => byteDirective s
      | 68 => dataDirective s
      | 71 => globalDirective s
      | 90 => endOfUnit s
      | _ => badCode s

/-- One step of phase `Loading` (R101). -/
def loaderStep (s : State) : Host.Outcome State Fault Refusal :=
  match s.ch with
  | none => .next (endAssemble s)
  | some c => (dispatchChar c s).andThen fun _ s₁ => .next s₁

end Sys2Proof.Machine
end

