-- ==== Sys2Proof/Machine/Boot.lean ====
section
/-! DEFINITION. The run as the host drives it (70_reset_and_hazards.md R290 to R293): `loadcode`, redirection, the start. -/

namespace Sys2Proof.Machine

/-- Start of execution (R292): `PC <- PROG_START; SP <- LC; RUN <- Running`. -/
def State.start (s : State) : State := { s with pc := s.par.progStart, sp := s.lc, run := .running }

/-- `loadcode(name)` (40_loader.md R116): open, read from the new stream, assemble. A name that is not found is the fatal
`LoadFailure` (60_exceptions.md R260, R261). -/
def loadCode (name : Name) (s : State) : Res Unit :=
  let (handle, s₁) := s.openInput name
  if handle = 0 then raise .loadFailure s₁ else .ok () (beginAssemble { s₁ with cis := handle })

/-- One item of the configuration (R293). -/
def driveItem (item : RunItem) (s : State) : Res Unit :=
  match item with
  | .load name => loadCode name s
  | .redirectInput name =>
    match s.rebindInput name with
    | some s₁ => .ok () s₁
    | none => .refused (.redirectNotFound name)
  | .redirectOutput name => .ok () (s.rebindOutput name)

/-- One step of phases `Reset` and `Ready` (R293): the next item, or the start when none is left. -/
def driverStep (s : State) : Host.Outcome State Fault Refusal :=
  match s.config with
  | [] => .next s.start
  | item :: rest => (driveItem item { s with config := rest }).andThen fun _ s₁ => .next s₁

/-- Where a word placed from outside the machine is fetched next: at `PC` when the machine is running and the word and what may
follow it fit there, else at `PROG_START`, where execution starts (R292). -/
def fetchPlace (s : State) : Int :=
  if s.run = .running ∧ 0 ≤ s.pc ∧ s.pc + 3 < s.par.addrLimit then s.pc else s.par.progStart

/-- Cells written from outside the machine, from cell `c` on. -/
def State.pokeCells (c : Nat) (cells : List Word) (s : State) : State :=
  match cells with
  | [] => s
  | w :: rest => State.pokeCells (c + 1) rest (s.pokeCell c w)

/-- The machine running at `fetchPlace`, with the cells there. -/
def State.placeCells (cells : List Word) (s : State) : State :=
  let base := if s.run = .running then s else s.start
  { base with pc := fetchPlace s }.pokeCells (fetchPlace s).toNat cells

end Sys2Proof.Machine
end

