-- ==== Sys2Proof/Machine/Extended.lean ====
section
/-! DEFINITION. The sub-operations of opcode `X` (43_extended_ops.md R180 to R205). The left operand of a binary one is `B`, the
right `A`; each leaves `B` unchanged but `X23`. -/

namespace Sys2Proof.Machine

/-- The shape of the ALU sub-operations (R205): `A` receives an exact integer result of the signed values of `B` and `A`,
reduced modulo `2^16`. -/
def aluResult (f : Int → Int → Int) (s : State) : State := { s with a := trunc16 (f (sext16 s.b) (sext16 s.a)) }

/-- The shape of the bitwise sub-operations (R198 to R201), on the patterns of `B` and `A`. -/
def bitwiseResult (f : Word → Word → Word) (s : State) : State := { s with a := f s.b s.a }

/-- The shape of the shifts (R196, R197): a free value for an amount outside `0..15` (D15). -/
def shiftResult (f : Word → Nat → Word) (s : State) : State :=
  if shiftDefined (sext16 s.a) then { s with a := f s.b (sext16 s.a).toNat } else s.anyA

/-- `X1` (R181): `A <- M[A]`. -/
def execX1 (s : State) : Host.Outcome State Fault Refusal :=
  (readCell (sext16 s.a) s).andThen fun w s₁ => .next { s₁ with a := w }

/-- `X2` (R182): `A <- trunc16(-a)`. -/
def execX2 (s : State) : Host.Outcome State Fault Refusal := .next (aluResult (fun _ a => -a) s)

/-- `X3` (R183): `A <- ~A`. -/
def execX3 (s : State) : Host.Outcome State Fault Refusal := .next (bitwiseResult (fun _ a => ~~~a) s)

/-- `X4` (R184): the return address from cell `SP+1`, read first, then the caller's frame base from cell `SP`. -/
def execX4 (s : State) : Host.Outcome State Fault Refusal :=
  (readCell (s.sp + 1) s).andThen fun t s₁ => (readCell s₁.sp s₁).andThen fun u s₂ =>
    .next { s₂ with pc := sext16 t, sp := sext16 u }

/-- `X5` (R185): `A <- trunc16(b * a)`. -/
def execX5 (s : State) : Host.Outcome State Fault Refusal := .next (aluResult (fun b a => b * a) s)

/-- `X6` (R186): `A <- trunc16(tdiv(b, a))`; no register changes when `a = 0`. -/
def execX6 (s : State) : Host.Outcome State Fault Refusal :=
  .next (if sext16 s.a = 0 then s else aluResult quotient s)

/-- `X7` (R187): the remainder; no register changes when `a = 0`. -/
def execX7 (s : State) : Host.Outcome State Fault Refusal :=
  .next (if sext16 s.a = 0 then s else aluResult remainder s)

/-- `X8` (R188): `A <- trunc16(b + a)`. -/
def execX8 (s : State) : Host.Outcome State Fault Refusal := .next (aluResult (fun b a => b + a) s)

/-- `X9` (R189): `A <- trunc16(b - a)`. -/
def execX9 (s : State) : Host.Outcome State Fault Refusal := .next (aluResult (fun b a => b - a) s)

/-- `X10` (R190): equal. -/
def execX10 (s : State) : Host.Outcome State Fault Refusal := .next { s with a := truthWord (sext16 s.b = sext16 s.a) }

/-- `X11` (R191): not equal. -/
def execX11 (s : State) : Host.Outcome State Fault Refusal := .next { s with a := truthWord (sext16 s.b ≠ sext16 s.a) }

/-- `X12` (R192): less than, signed. -/
def execX12 (s : State) : Host.Outcome State Fault Refusal := .next { s with a := truthWord (sext16 s.b < sext16 s.a) }

/-- `X13` (R193): greater or equal, signed. -/
def execX13 (s : State) : Host.Outcome State Fault Refusal := .next { s with a := truthWord (sext16 s.b ≥ sext16 s.a) }

/-- `X14` (R194): greater than, signed. -/
def execX14 (s : State) : Host.Outcome State Fault Refusal := .next { s with a := truthWord (sext16 s.b > sext16 s.a) }

/-- `X15` (R195): less or equal, signed. -/
def execX15 (s : State) : Host.Outcome State Fault Refusal := .next { s with a := truthWord (sext16 s.b ≤ sext16 s.a) }

/-- `X16` (R196): shift left. -/
def execX16 (s : State) : Host.Outcome State Fault Refusal := .next (shiftResult shiftLeft s)

/-- `X17` (R197): logical shift right. -/
def execX17 (s : State) : Host.Outcome State Fault Refusal := .next (shiftResult shiftRight s)

/-- `X18` (R198): bitwise and. -/
def execX18 (s : State) : Host.Outcome State Fault Refusal := .next (bitwiseResult (fun b a => b &&& a) s)

/-- `X19` (R199): bitwise or. -/
def execX19 (s : State) : Host.Outcome State Fault Refusal := .next (bitwiseResult (fun b a => b ||| a) s)

/-- `X20` (R200): bitwise exclusive or. -/
def execX20 (s : State) : Host.Outcome State Fault Refusal := .next (bitwiseResult (fun b a => b ^^^ a) s)

/-- `X21` (R201): bitwise equivalence. -/
def execX21 (s : State) : Host.Outcome State Fault Refusal := .next (bitwiseResult (fun b a => ~~~(b ^^^ a)) s)

/-- `X22` (R202): `RUN <- Stopped(0)`, a normal end (90_conflicts.md C3). -/
def execX22 (s : State) : Host.Outcome State Fault Refusal := .next { s with run := .stopped 0 }

/-- The read of the target cell `q` of a pair that does not match, one of the `2 + 2k` of 20_memory.md R49, whose content is not
used. Where there is no such cell nothing is read and the scan goes on: R203's pseudocode reads a target on a match only, so a missing
one has no part in its effect (log entry 34). -/
def skipTarget (q : Int) (s : State) : Res Unit :=
  if validCell s.par q then (readCell q s).bind fun _ s₁ => .ok () s₁ else .ok () s

/-- The scan of `X23` (R203): the target of the first pair, from cell `q` on, whose value is `a`, else `default`. Pairs after
the match are not read. -/
def scanPairs (a default q : Int) (count : Nat) (s : State) : Res Int :=
  match count with
  | 0 => .ok default s
  | n + 1 =>
    (readCell q s).bind fun value s₁ =>
      if sext16 value = a then (readCell (q + 1) s₁).bind fun target s₂ => .ok (sext16 target) s₂
      else (skipTarget (q + 1) s₁).bind fun _ s₂ => scanPairs a default (q + 2) n s₂

/-- `X23` (R203): the inline table at `PC` is a count, a default target, then (value, target) pairs; `B <- any16` (D37). -/
def execX23 (s : State) : Host.Outcome State Fault Refusal :=
  (readCell s.pc s).andThen fun n s₁ => (readCell (s.pc + 1) s₁).andThen fun d s₂ =>
    if sext16 n < 0 then
      .fault (.badSwitchCount (sext16 n) { s₂ with run := .halted (.badSwitchCount (sext16 n)) })
    else
      (scanPairs (sext16 s.a) (sext16 d) (s.pc + 2) (sext16 n).toNat s₂).andThen fun target s₃ =>
        .next { s₃ with pc := target }.anyB

/-- Sub-operation `k` (R180): rules R181 to R203, or the fatal `UnknownSelector` (R204). -/
def subOperation (k : Int) (s : State) : Host.Outcome State Fault Refusal :=
  match k with
  | 1 => execX1 s
  | 2 => execX2 s
  | 3 => execX3 s
  | 4 => execX4 s
  | 5 => execX5 s
  | 6 => execX6 s
  | 7 => execX7 s
  | 8 => execX8 s
  | 9 => execX9 s
  | 10 => execX10 s
  | 11 => execX11 s
  | 12 => execX12 s
  | 13 => execX13 s
  | 14 => execX14 s
  | 15 => execX15 s
  | 16 => execX16 s
  | 17 => execX17 s
  | 18 => execX18 s
  | 19 => execX19 s
  | 20 => execX20 s
  | 21 => execX21 s
  | 22 => execX22 s
  | 23 => execX23 s
  | _ => .next (s.halt (.unknownSelector k))

/-- `X` (R180): the effective operand selects. -/
def execX (op : Operand) (s : State) : Host.Outcome State Fault Refusal :=
  (operand op s).andThen fun k s₁ => subOperation k s₁

end Sys2Proof.Machine
end

