-- ==== Sys2Proof/Machine/Primary.lean ====
section
/-! DEFINITION. The primary instructions `L S A J T F K` (42_primary_ops.md R160 to R167). `PC` already points past the
instruction and its operand cell when a meaning is entered (41_fetch_decode.md R140). -/

namespace Sys2Proof.Machine

/-- `L` (R160): `B <- A; A <- trunc16(EA)`. -/
def execL (op : Operand) (s : State) : Host.Outcome State Fault Refusal :=
  (operand op s).andThen fun ea s₁ => .next { s₁ with b := s₁.a, a := trunc16 ea }

/-- `S` (R161): `MemWrite(EA, 16, A)`. -/
def execS (op : Operand) (s : State) : Host.Outcome State Fault Refusal :=
  (operand op s).andThen fun ea s₁ => (writeCell ea (sext16 s₁.a) s₁).andThen fun _ s₂ => .next s₂

/-- `A` (R162): `A <- trunc16(sext_16(A) + EA)`. -/
def execA (op : Operand) (s : State) : Host.Outcome State Fault Refusal :=
  (operand op s).andThen fun ea s₁ => .next { s₁ with a := trunc16 (sext16 s₁.a + ea) }

/-- `J` (R163): `PC <- EA`. -/
def execJ (op : Operand) (s : State) : Host.Outcome State Fault Refusal :=
  (operand op s).andThen fun ea s₁ => .next { s₁ with pc := ea }

/-- `T` (R164): if `A ≠ 0`, `PC <- EA`; the operand is computed either way. -/
def execT (op : Operand) (s : State) : Host.Outcome State Fault Refusal :=
  (operand op s).andThen fun ea s₁ => .next (if isTruth s₁.a then { s₁ with pc := ea } else s₁)

/-- `F` (R165): if `A = 0`, `PC <- EA`; the operand is computed either way. -/
def execF (op : Operand) (s : State) : Host.Outcome State Fault Refusal :=
  (operand op s).andThen fun ea s₁ => .next (if isTruth s₁.a then s₁ else { s₁ with pc := ea })

/-- The genuine call of `K` (R166): push the link at `F`, then `SP <- F; PC <- A`. -/
def genuineCall (frame : Int) (s : State) : Host.Outcome State Fault Refusal :=
  (writeCell frame s.sp s).andThen fun _ s₁ => (writeCell (frame + 1) s₁.pc s₁).andThen fun _ s₂ =>
    .next { s₂ with sp := frame, pc := sext16 s₂.a }

/-- `K` (R166): `F = SP + EA`, added whether or not `P` is set (D10); a target below the threshold is a system call. -/
def execK (op : Operand) (s : State) : Host.Outcome State Fault Refusal :=
  (operand op s).andThen fun ea s₁ =>
    if sext16 s₁.a < s₁.par.progStart then sysCall (sext16 s₁.a) (s₁.sp + ea + 2) s₁
    else genuineCall (s₁.sp + ea) s₁

end Sys2Proof.Machine
end

