-- ==== Sys2Proof/Machine/Dispatch.lean ====
section
/-! DEFINITION. Dispatch (41_fetch_decode.md R147): one arm for each constructor of `Instr`. -/

namespace Sys2Proof.Machine

/-- The meaning of an instruction, entered with `PC` past its cells (R140). -/
def exec (i : Instr) (s : State) : Host.Outcome State Fault Refusal :=
  match i with
  | .l op => Sys2Proof.Machine.execL op s
  | .s op => Sys2Proof.Machine.execS op s
  | .a op => Sys2Proof.Machine.execA op s
  | .j op => Sys2Proof.Machine.execJ op s
  | .t op => Sys2Proof.Machine.execT op s
  | .f op => Sys2Proof.Machine.execF op s
  | .k op => Sys2Proof.Machine.execK op s
  | .x op => Sys2Proof.Machine.execX op s
  | .x1 => Sys2Proof.Machine.execX1 s
  | .x2 => Sys2Proof.Machine.execX2 s
  | .x3 => Sys2Proof.Machine.execX3 s
  | .x4 => Sys2Proof.Machine.execX4 s
  | .x5 => Sys2Proof.Machine.execX5 s
  | .x6 => Sys2Proof.Machine.execX6 s
  | .x7 => Sys2Proof.Machine.execX7 s
  | .x8 => Sys2Proof.Machine.execX8 s
  | .x9 => Sys2Proof.Machine.execX9 s
  | .x10 => Sys2Proof.Machine.execX10 s
  | .x11 => Sys2Proof.Machine.execX11 s
  | .x12 => Sys2Proof.Machine.execX12 s
  | .x13 => Sys2Proof.Machine.execX13 s
  | .x14 => Sys2Proof.Machine.execX14 s
  | .x15 => Sys2Proof.Machine.execX15 s
  | .x16 => Sys2Proof.Machine.execX16 s
  | .x17 => Sys2Proof.Machine.execX17 s
  | .x18 => Sys2Proof.Machine.execX18 s
  | .x19 => Sys2Proof.Machine.execX19 s
  | .x20 => Sys2Proof.Machine.execX20 s
  | .x21 => Sys2Proof.Machine.execX21 s
  | .x22 => Sys2Proof.Machine.execX22 s
  | .x23 => Sys2Proof.Machine.execX23 s

end Sys2Proof.Machine
end

