-- ==== Sys2Proof/Machine/Step.lean ====
section
/-! DEFINITION. One step of the machine, by its phase (00_scope.md R7, 10_state.md R21): the host's driver in `Reset` and `Ready`,
the loader in `Loading`, the engine in `Running`; none in a terminal phase. -/

namespace Sys2Proof.Machine

/-- One step of the engine (41_fetch_decode.md R140): fetch, decode, execute. -/
def engineStep (s : State) : Host.Outcome State Fault Refusal :=
  (fetch s).andThen fun i s₁ => exec i s₁

/-- One step. `Stopped` and `Halted` are terminal (R7): no step is taken. -/
def step (s : State) : Host.Outcome State Fault Refusal :=
  match s.run with
  | .reset => driverStep s
  | .ready => driverStep s
  | .loading => loaderStep s
  | .running => engineStep s
  | .stopped _ => .fault .runEnded
  | .halted _ => .fault .runEnded

/-- `s` with an instruction stored where `step` fetches next, and running: its bits `w`, numbered from bit 0 of the first cell,
and zeros above `nbits` for the operand cell and an empty inline table of `X23` (30_encoding.md R76). It stands for the load and
the start (log entry 14). -/
def State.withFetchWord (s : State) (nbits w : Nat) : State :=
  s.placeCells [tableCell nbits w 0, tableCell nbits w 1, tableCell nbits w 2, tableCell nbits w 3]

end Sys2Proof.Machine
end

