-- ==== Sys2Proof/Safety.lean ====
section
/-! DEFINITION. What a sound state and a safe run are. The spec asks that a claim about a program establish that its run raises
no model-only fault (60_exceptions.md R263) and meets no refusal; a run may end by a stop or a fatal condition (R275). -/

namespace Sys2Proof.Machine

/-- The stream registry is sound (44_syscall_port.md R237): every handle is new when given and never the "not found" value 0, it
stands for a record that exists, and the two default handles are always present. -/
abbrev State.registryOk (s : State) : Prop :=
  (s.slots.map Prod.fst).Nodup ∧ (∀ e ∈ s.slots, e.1 ≠ 0) ∧ (∀ e ∈ s.slots, e.2 < s.records.length) ∧
  (s.recordNo s.par.defaultInput).isSome = true ∧ (s.recordNo s.par.defaultOutput).isSome = true

/-- The representation invariant: memory and the label table are in canonical form, and the stream registry is sound. -/
abbrev State.Inv (s : State) : Prop :=
  Memory.wf s.par s.mem ∧ LabelTable.wf s.par s.labv ∧ s.registryOk

/-- The operand of `op` can be formed (R145): it is direct, or the cell it addresses is valid. -/
abbrev operandReady (op : Operand) (s : State) : Prop := op.indirect = true → validCell s.par (operandBase op s)

/-- The cells from cell address `c` on are valid and hold these patterns. -/
def holdsCells (s : State) (c : Int) (cells : List Word) : Bool :=
  match cells with
  | [] => true
  | w :: rest => decide (validCell s.par c) && decide (s.peekCell c.toNat = some w) && holdsCells s (c + 1) rest

/-- The bytes from byte address `b` on lie in valid cells and hold these values. -/
def holdsBytes (s : State) (b : Int) (bytes : List Byte) : Bool :=
  match bytes with
  | [] => true
  | x :: rest => decide (validCell s.par (b / 2)) && decide (s.peekByte b.toNat = some x) && holdsBytes s (b + 1) rest

/-- The packed string at cell `c` is `text` (20_memory.md R45): its length in byte 0, then its characters. -/
def holdsPacked (s : State) (c : Int) (text : List Byte) : Bool :=
  decide (text.length ≤ 255) && holdsBytes s (2 * c) (BitVec.ofNat 8 text.length :: text)

/-- The backpatch chain from address `k`: these cells in turn, each holding the next one's address and the last one 0. -/
def chainFrom (s : State) (k : Int) (cells : List Nat) : Bool :=
  match cells with
  | [] => decide (k = 0)
  | c :: rest =>
    decide (k = c) && decide (c ≠ 0) && decide (validCell s.par c) &&
      match s.peekCell c with
      | some w => chainFrom s (sext16 w) rest
      | none => false

/-- A `K` with operand `op` in `s` is a system call of `service` with argument base `v` (42_primary_ops.md R166,
44_syscall_port.md R220); `t` is `s` after its operand is read. -/
abbrev callsService (service : Service) (op : Operand) (v : Int) (s t : State) : Prop :=
  operand op s = .ok (v - s.sp - 2) t ∧ sext16 s.a < s.par.progStart ∧ s.par.serviceOf (sext16 s.a) = some service

/-- The run has ended (70_reset_and_hazards.md R295). -/
def State.hasEnded (s : State) : Bool :=
  match s.run with
  | .stopped _ => true
  | .halted _ => true
  | _ => false

/-- The next step, where one is to be taken, is one the spec gives a meaning to. -/
def SafeNow (s : State) : Prop := s.hasEnded = true ∨ ∃ t, step s = .next t

/-- The states of a run. -/
inductive Reaches : State → State → Prop where
  | refl (s : State) : Reaches s s
  | tail (s t u : State) : Reaches s t → step t = .next u → Reaches s u

/-- No state of the run from `s` meets a model-only fault or a refusal. -/
def SafeRun (s : State) : Prop := ∀ t, Reaches s t → SafeNow t

end Sys2Proof.Machine
end

