-- ==== Sys2Proof/Certificates/Slice0/Obligations.lean ====
section
/-! DEFINITION. The statements for the provers. Each says what the spec's rules say an instruction or the machine does. The next
states are written whole (`{ s with … }`), so that a result, the frame and the fact that the instruction completes are one
equation. The draw counter is the model's own: every statement lets it end at any value. -/

open Sys2Proof Sys2Proof.Machine

/-! ## Encoding (30_encoding.md) -/

/-- Decoding the bytes of a well-formed instruction gives it back, with every operand at every value, and the bytes after it. The
numbers of opcodes, flags and selectors are the spec's own decisions D5, D6 and D8 (log entry 24). -/
def Obligations.DecodeEncodeRoundTrip : Prop :=
  ∀ (i : Instr) (rest : List Byte), i.wf = true → decode (encodeBytes i ++ rest) = .ok (i, rest)

/-- Encoding what a word decodes to gives the word back with its ignored bits at 0 (R70, R71, R73, R74, R78); so two words that
differ only in ignored bits, 7:6, and 15:8 when `D = 1`, decode to the same instruction (R73). That the other bits are ignored is
the spec's own decision D7 (log entry 29). -/
def Obligations.EncodeDecodeCanonical : Prop :=
  (∀ w e : Word, encode (decodeWord w e) = if w.getLsbD 5 then [w &&& 0x003F, e] else [w &&& 0xFF3F]) ∧
  ∀ w v e f : Word, w &&& 0x003F = v &&& 0x003F → (w.getLsbD 5 = true → e = f) →
    (w.getLsbD 5 = false → w &&& 0xFF00 = v &&& 0xFF00) → decodeWord w e = decodeWord v f

/-- Words written out from the encoding tables decode to the instructions they stand for (R70, R71, R73, R77; the decode vectors of
95_test_vectors.md). The numbers are the spec's own decisions D5 to D8 (log entry 24). -/
def Obligations.SampleWordsDecode : Prop :=
  decodeWord 0b00000011_00011000 0 = .l ⟨true, true, .packed 3⟩ ∧
  decodeWord 0b00000011_00010001 0 = .s ⟨false, true, .packed 3⟩ ∧
  decodeWord 0b00000000_00100010 300 = .a ⟨false, false, .extended 300⟩ ∧
  decodeWord 0b00000000_00100011 440 = .j ⟨false, false, .extended 440⟩ ∧
  decodeWord 0b00000000_00100100 440 = .t ⟨false, false, .extended 440⟩ ∧
  decodeWord 0b00000000_00100101 440 = .f ⟨false, false, .extended 440⟩ ∧
  decodeWord 0b00000101_00000110 0 = .k ⟨false, false, .packed 5⟩ ∧
  decodeWord 0b00001000_00000111 0 = .x8 ∧
  decodeWord 0b00010111_00000111 0 = .x23 ∧
  decodeWord 0b00000000_00000111 0 = .x ⟨false, false, .packed 0⟩ ∧
  decodeWord 0b11111111_00100000 77 = .l ⟨false, false, .extended 77⟩ ∧
  decodeWord 0b00000011_11000000 0 = .l ⟨false, false, .packed 3⟩

/-- Every 16-bit pattern is a legal instruction word (R79), one cell long when bit 5 is 0 and two when it is 1 (R74). -/
def Obligations.EveryPatternDecodes : Prop :=
  ∀ (w e : Word) (rest : List Byte),
    (decodeWord w e).wf = true ∧
    decode (bytesOfCells [w, e] ++ rest) =
      .ok (decodeWord w e, if w.getLsbD 5 then rest else bytesOfCells [e] ++ rest)

/-! ## The step (41_fetch_decode.md) -/

/-- When the cells at `PC` decode to an instruction `i`, a step is `exec i` with `PC` past those cells; `i` is well formed. -/
def Obligations.StepRunsStoredInstruction : Prop :=
  ∀ (s : State) (i : Instr) (cells : List Word), s.run = .running → holdsCells s s.pc cells = true →
    decode (bytesOfCells cells) = .ok (i, []) →
    i.wf = true ∧ step s = exec i { s with pc := s.pc + cells.length }

/-- A well-formed instruction stored at `PC` as the encoder writes it is what a step runs. -/
def Obligations.EncodedInstructionRuns : Prop :=
  ∀ (s : State) (i : Instr), i.wf = true → s.run = .running → holdsCells s s.pc (encode i) = true →
    step s = exec i { s with pc := s.pc + (encode i).length }

/-- Every cell is executable and every pattern decodes (70_reset_and_hazards.md R297): a running machine whose next two cells are
valid runs some well-formed instruction, and has advanced `PC` by one or two. What a cell nothing has written holds is a free value
(log entry 5). -/
def Obligations.EveryFetchRunsAnInstruction : Prop :=
  ∀ s : State, s.run = .running → validCell s.par s.pc → validCell s.par (s.pc + 1) →
    ∃ (i : Instr) (k : Int) (n : Nat), i.wf = true ∧ (k = 1 ∨ k = 2) ∧ step s = exec i { s with pc := s.pc + k, draws := n }

/-- A fetch from outside memory faults (R141), and so does an operand cell outside memory (R143), with `PC` already advanced. The
fault is the spec's own, decisions D4 and D13; its form is log entry 15. -/
def Obligations.FetchOutsideMemoryFaults : Prop :=
  ∀ s : State, s.run = .running →
    (¬ validCell s.par s.pc →
      step s = .fault (.addressOutOfRange s.pc { s with run := .halted (.addressOutOfRange s.pc) })) ∧
    ∀ w, holdsCells s s.pc [w] = true → w.getLsbD 5 = true → ¬ validCell s.par (s.pc + 1) →
      step s = .fault (.addressOutOfRange (s.pc + 1)
        { s with pc := s.pc + 1, run := .halted (.addressOutOfRange (s.pc + 1)) })

/-- `Stopped` and `Halted` are terminal (00_scope.md R7, 70_reset_and_hazards.md R295). The fault is the model's way to say that
there is no next step (log entry 17). -/
def Obligations.EndedRunTakesNoStep : Prop :=
  ∀ (s : State) (v : Word) (cause : Cause), (s.run = .stopped v ∨ s.run = .halted cause) → step s = .fault .runEnded

/-- The effective operand in the eight addressing modes (R143 to R145): the literal, plus `SP` with `P`, replaced with `I` by the
signed content of the cell it addresses; the draw counter moves only where that cell holds nothing yet. The signed reading and the
missing truncation are the spec's own decisions D11 and D12 (log entry 23); the fault is decisions D4 and D13 (log entry 15). -/
def Obligations.EffectiveOperand : Prop :=
  ∀ (s : State) (n : Byte) (e : Word) (p : Bool),
    let base (literal : Int) : Int := if p then literal + s.sp else literal
    (operand ⟨false, p, .packed n⟩ s = .ok (base n.toNat) s) ∧
    (operand ⟨false, p, .extended e⟩ s = .ok (base (sext16 e)) s) ∧
    ∀ (l : Literal) (z : Int), (l = .packed n ∧ z = base n.toNat ∨ l = .extended e ∧ z = base (sext16 e)) →
      (∀ w, holdsCells s z [w] = true → operand ⟨true, p, l⟩ s = .ok (sext16 w) s) ∧
      (validCell s.par z → ∃ (w : Word) (m : Nat), operand ⟨true, p, l⟩ s = .ok (sext16 w) { s with draws := m }) ∧
      (¬ validCell s.par z → operand ⟨true, p, l⟩ s = addressFault z s)

/-! ## Memory (20_memory.md) -/

/-- A cell read after a write of it gives the value truncated to 16 bits (R41, R51), every other cell reads as before, and nothing
but memory changes. -/
def Obligations.CellReadAfterWrite : Prop :=
  ∀ (a v : Int) (s : State), validCell s.par a →
    ∃ t, writeCell a v s = .ok () t ∧ readCell a t = .ok (BitVec.ofInt 16 v) t ∧ t = { s with mem := t.mem } ∧
      ∀ c w, validCell s.par c → c ≠ a → holdsCells s c [w] = true → readCell c t = .ok w t

/-- Byte reads and writes in terms of the cell (R42, R43, R44): byte 0 is the low half, byte 1 the high half, the other half and
every other cell keep their values; and two byte writes make the cell `x + 256*y` (R46). A byte write of a cell nothing has written
leaves it with one pattern, which every later read gives (R51): the half it does not name is a free value (log entry 5). -/
def Obligations.BytesOfACell : Prop :=
  ∀ (b v : Int) (s : State),
    (∀ w, holdsCells s (b / 2) [w] = true →
      (b % 2 = 0 → readByte b s = .ok (w.setWidth 8) s) ∧
      (b % 2 = 1 → readByte b s = .ok ((w >>> 8).setWidth 8) s) ∧
      ∃ t, writeByte b v s = .ok () t ∧ t = { s with mem := t.mem } ∧
        (b % 2 = 0 → t.peekCell (b / 2).toNat = some ((w &&& 0xFF00) ||| BitVec.ofInt 16 (v % 256))) ∧
        (b % 2 = 1 → t.peekCell (b / 2).toNat = some ((w &&& 0x00FF) ||| (BitVec.ofInt 16 (v % 256) <<< 8))) ∧
        (∀ c : Nat, (c : Int) ≠ b / 2 → t.peekCell c = s.peekCell c) ∧
        ∀ y, b % 2 = 0 → ∃ u, writeByte (b + 1) y t = .ok () u ∧
          u.peekCell (b / 2).toNat = some (BitVec.ofInt 16 (v % 256 + 256 * (y % 256)))) ∧
    (validCell s.par (b / 2) → ∃ t, writeByte b v s = .ok () t ∧ t = { s with mem := t.mem, draws := t.draws } ∧
      readByte b t = .ok (BitVec.ofInt 8 v) t ∧ (∃ w, readCell (b / 2) t = .ok w t) ∧
      ∀ k, (k / 2 : Nat) ≠ (b / 2).toNat → t.peekByte k = s.peekByte k)

/-- Valid addresses, and the fault of every access at another (R54, R43, R44): `0 <= a < min(LABV_BASE, 32768)`. The limit and the
fault are the spec's own decisions D4 and D13 (log entry 15). -/
def Obligations.AccessOutsideMemoryFaults : Prop :=
  ∀ (a v : Int) (s : State),
    (validCell s.par a ↔ 0 ≤ a ∧ a < (s.par.memCells : Int) - s.par.labelCount ∧ a < 32768) ∧
    (¬ validCell s.par a → readCell a s = addressFault a s ∧ writeCell a v s = addressFault a s) ∧
    (¬ validCell s.par (a / 2) → readByte a s = addressFault a s ∧ writeByte a v s = addressFault a s)

/-- A store is seen by the next fetch of the cell, with no fence (R55). -/
def Obligations.StoreIsSeenByFetch : Prop :=
  ∀ (s t : State) (v e : Int), validCell s.par s.pc → validCell s.par (s.pc + 1) → writeCell s.pc v s = .ok () t →
    ∃ u, writeCell (s.pc + 1) e t = .ok () u ∧ ∃ k : Int,
      fetch u = .ok (decodeWord (trunc16 v) (trunc16 e)) { u with pc := s.pc + k } ∧
      k = if (trunc16 v).getLsbD 5 then 2 else 1

/-! ## Reset, boot, and the end of a run (70_reset_and_hazards.md) -/

/-- What memory holds where nothing has been written (10_state.md R17, R25): the identity region, the boot image, nothing else. The
boot image is the spec's own decision D34; a byte without a value is log entry 5. -/
def Obligations.ResetMemory : Prop :=
  ∀ (s : State) (c : Nat), s.mem = [] →
    (c < s.par.progStart → s.peekCell c = some (BitVec.ofNat 16 c)) ∧
    (∀ w, s.par.progStart ≤ c → s.par.bootImage[c - s.par.progStart]? = some w → s.peekCell c = some w) ∧
    (s.par.progStart + s.par.bootImage.length ≤ c → s.peekByte (2 * c) = none ∧ s.peekByte (2 * c + 1) = none)

/-- The values the spec gives the other state after reset (10_state.md R25), with the parameters' defaults. These are the spec's own
decisions D2, D3, D29, D33 and D34 (log entry 4 for the parameters). -/
def Obligations.ResetState : Prop :=
  State.reset.lc = 404 ∧ State.reset.cp = .low ∧ State.reset.cis = State.reset.par.defaultInput ∧
  State.reset.cos = State.reset.par.defaultOutput ∧ State.reset.run = .reset ∧ State.reset.mem = [] ∧
  State.reset.par.progStart = 401 ∧ State.reset.par.startGlobal = 1 ∧ State.reset.par.bootImage = [264, 518, 5639] ∧
  State.reset.par.labelCount = 500

/-- The host's driver (R292, R293): with nothing left to load it starts the engine with `PC <- PROG_START; SP <- LC; RUN <-
Running`; a code file that is not found is fatal (40_loader.md R116, 60_exceptions.md R260, R261), and nothing runs afterwards. The
start values are the spec's own decision D34; what one driver step is, log entry 22; that the halted state is a next state, log
entry 16; that a step after it answers the fault `runEnded`, log entry 17. -/
def Obligations.DriverSteps : Prop :=
  ∀ s : State, (s.run = .ready ∨ s.run = .reset) →
    (s.config = [] → step s = .next { s with pc := s.par.progStart, sp := s.lc, run := .running }) ∧
    ∀ (name : List Byte) (rest : List RunItem), s.config = .load name :: rest →
      reservedHandle s.par name = none → lookupFile name s.files = none →
      ∃ t, step s = .next t ∧ t.run = .halted .loadFailure ∧ step t = .fault .runEnded ∧
        t = { s with run := t.run, config := rest, records := t.records, files := t.files, live := t.live, draws := t.draws }

/-- The boot trampoline `LI<g> K2 X22` through global slot `g = START_GLOBAL` (R291, R292), the cells 264, 518, 5639 for slot 1:
from the start, two steps call the function whose address cell `g` holds, with its frame at `SP + 2`; a third step at the
trampoline's last cell stops with value 0. The trampoline is the spec's own decision D34. -/
def Obligations.BootTrampoline : Prop :=
  ∀ (s : State) (g : Nat) (e : Word), g ≤ 255 → s.run = .running → s.pc = s.par.progStart →
    holdsCells s s.pc [BitVec.ofNat 16 (256 * g + 8), 518, 5639] = true → holdsCells s g [e] = true →
    (s.par.progStart : Int) ≤ sext16 e → validCell s.par (s.sp + 2) → validCell s.par (s.sp + 3) →
    (∃ t u, step s = .next t ∧ step t = .next u ∧ u.pc = sext16 e ∧ u.sp = s.sp + 2 ∧ u.a = e ∧ u.run = .running ∧
      holdsCells u (s.sp + 2) [trunc16 s.sp, trunc16 (s.pc + 2)] = true ∧
      ∀ b, (b / 2 : Nat) ≠ (s.sp + 2).toNat → (b / 2 : Nat) ≠ (s.sp + 3).toNat → u.peekByte b = s.peekByte b) ∧
    step { s with pc := s.pc + 2 } = .next { s with pc := s.pc + 3, run := .stopped 0 }

/-- A run that publishes no entry point (R291; 44_syscall_port.md R223): a running machine at the trampoline `LI1 K2 X22` whose cell
1 holds a number below `PROG_START` that no service owns, such as the 1 of the identity region, halts two steps later with
`UnknownCall` of that number. The trampoline and its slot 1 are the spec's own decision D34; that the halted state is a next state
is log entry 16. -/
def Obligations.BootWithoutProgram : Prop :=
  ∀ (s : State) (e : Word), s.run = .running → s.pc = s.par.progStart → holdsCells s s.pc [264, 518, 5639] = true →
    holdsCells s 1 [e] = true → sext16 e < s.par.progStart → s.par.serviceOf (sext16 e) = none →
    ∃ t u, step s = .next t ∧ step t = .next u ∧ u.run = .halted (.unknownCall (sext16 e)) ∧
      u = { s with a := e, b := s.a, pc := s.pc + 2, run := u.run, records := u.records, files := u.files, live := u.live,
                   draws := u.draws }

/-! ## Invariants and whole-machine rules -/

/-- Every step keeps memory and the label table in canonical form and the stream registry sound. The canonical forms and the
registry's form are the model's (log entries 5, 8 and 18). -/
def Obligations.StepKeepsInvariant : Prop :=
  ∀ s t : State, s.Inv → step s = .next t → t.Inv

/-- The invariant holds after reset. The host's records at reset are log entry 6. -/
def Obligations.ResetInvariant : Prop := State.reset.Inv

/-- The engine never writes the loader's state, the parameters or the run's configuration (10_state.md R23). -/
def Obligations.EngineLeavesLoaderState : Prop :=
  ∀ s t : State, s.run = .running → step s = .next t →
    t.labv = s.labv ∧ t.lc = s.lc ∧ t.cp = s.cp ∧ t.ch = s.ch ∧ t.config = s.config ∧ t.par = s.par

/-- The ways a running machine leaves `Running` (60_exceptions.md R275), the model-only faults apart: a stop, or one of the two
fatal conditions of a running machine (R262), which are next states (log entry 16). The model-only causes are faults, no next states
(log entry 15). -/
def Obligations.WaysOutOfRunning : Prop :=
  ∀ s t : State, s.run = .running → step s = .next t →
    t.run = .running ∨ (∃ v, t.run = .stopped v) ∨ (∃ n, t.run = .halted (.unknownCall n)) ∨
      ∃ k, t.run = .halted (.unknownSelector k)

/-- Which instructions write which register (10_state.md R11 to R14): all others leave it alone. `x` is excluded, because its
operand selects one of `x1` to `x23`. -/
def Obligations.RegisterWriters : Prop :=
  ∀ (i : Instr) (s t : State), exec i s = .next t → (∀ op, i ≠ .x op) →
    ((∀ op, i ≠ .l op ∧ i ≠ .k op) → i ≠ .x23 → t.b = s.b) ∧
    ((∃ op, i = .s op ∨ i = .j op ∨ i = .t op ∨ i = .f op) ∨ i = .x4 ∨ i = .x22 ∨ i = .x23 → t.a = s.a) ∧
    ((∀ op, i ≠ .k op) → i ≠ .x4 → t.sp = s.sp) ∧
    ((∀ op, i ≠ .j op ∧ i ≠ .t op ∧ i ≠ .f op ∧ i ≠ .k op) → i ≠ .x4 → i ≠ .x23 → t.pc = s.pc)

/-- Only `S` and `K` write memory, and only `K` reaches the streams and their handles (20_memory.md R49, 10_state.md R20): every
other instruction but `x`, which may halt and print, leaves every byte and all host state as it was. -/
def Obligations.MemoryAndStreamWriters : Prop :=
  ∀ (i : Instr) (s t : State), exec i s = .next t → (∀ op, i ≠ .k op) →
    ((∀ op, i ≠ .s op) → ∀ b, t.peekByte b = s.peekByte b) ∧
    (t.cis = s.cis ∧ t.cos = s.cos ∧ t.slots = s.slots) ∧
    ((∀ op, i ≠ .x op) → t.records = s.records ∧ t.files = s.files ∧ t.live = s.live)

/-! ## Primary instructions (42_primary_ops.md) -/

/-- `L` (R160): `B <- A; A <- trunc16(EA)`. The fault of an operand that cannot be formed is the spec's own, decisions D4 and D13;
its form is log entry 15. -/
def Obligations.LoadResult : Prop :=
  ∀ (op : Operand) (s : State),
    (operandReady op s → ∃ (ea : Int) (n : Nat), operand op s = .ok ea { s with draws := n } ∧
      exec (.l op) s = .next { s with b := s.a, a := BitVec.ofInt 16 ea, draws := n }) ∧
    (¬ operandReady op s → exec (.l op) s = .fault (.addressOutOfRange (operandBase op s)
      { s with run := .halted (.addressOutOfRange (operandBase op s)) }))

/-- `S` (R161): the cell `EA` receives `A`; nothing else changes. The faults of an `EA` that is no valid address and of an operand
that cannot be formed are the spec's own, decisions D4 and D13; their form is log entry 15. -/
def Obligations.StoreResult : Prop :=
  ∀ (op : Operand) (s : State),
    (operandReady op s → ∃ (ea : Int) (n : Nat), operand op s = .ok ea { s with draws := n } ∧
      (validCell s.par ea → ∃ t, exec (.s op) s = .next t ∧ t = { s with mem := t.mem, draws := n } ∧
        t.peekCell ea.toNat = some s.a ∧ ∀ b, (b / 2 : Nat) ≠ ea.toNat → t.peekByte b = s.peekByte b) ∧
      (¬ validCell s.par ea → exec (.s op) s = .fault (.addressOutOfRange ea
        { s with draws := n, run := .halted (.addressOutOfRange ea) }))) ∧
    (¬ operandReady op s → exec (.s op) s = .fault (.addressOutOfRange (operandBase op s)
      { s with run := .halted (.addressOutOfRange (operandBase op s)) }))

/-- `A` (R162): `A <- trunc16(sext_16(A) + EA)`, wrapping. The fault of an operand that cannot be formed is the spec's own,
decisions D4 and D13; its form is log entry 15. -/
def Obligations.AddImmediateResult : Prop :=
  ∀ (op : Operand) (s : State),
    (operandReady op s → ∃ (ea : Int) (n : Nat) (w : Word), operand op s = .ok ea { s with draws := n } ∧
      exec (.a op) s = .next { s with a := w, draws := n } ∧ w.toInt = (s.a.toInt + ea).bmod 65536) ∧
    (¬ operandReady op s → exec (.a op) s = .fault (.addressOutOfRange (operandBase op s)
      { s with run := .halted (.addressOutOfRange (operandBase op s)) }))

/-- `J`, `T` and `F` (R163, R164, R165): `J` jumps always, and exactly one of `T` and `F`; the operand is computed either way, and
faults either way. The fault is the spec's own, decisions D4 and D13; its form is log entry 15. -/
def Obligations.JumpResults : Prop :=
  ∀ (op : Operand) (s : State),
    (operandReady op s → ∃ (ea : Int) (n : Nat), operand op s = .ok ea { s with draws := n } ∧
      exec (.j op) s = .next { s with pc := ea, draws := n } ∧
      (s.a ≠ 0 → exec (.t op) s = .next { s with pc := ea, draws := n } ∧ exec (.f op) s = .next { s with draws := n }) ∧
      (s.a = 0 → exec (.t op) s = .next { s with draws := n } ∧ exec (.f op) s = .next { s with pc := ea, draws := n })) ∧
    (¬ operandReady op s → ∃ r, exec (.j op) s = .fault (.addressOutOfRange (operandBase op s) r) ∧
      exec (.t op) s = .fault (.addressOutOfRange (operandBase op s) r) ∧
      exec (.f op) s = .fault (.addressOutOfRange (operandBase op s) r))

/-- `K`, the genuine call (R166): the frame base is `SP + EA`, whatever the modifiers; the caller's `SP` and the return address go
to its first two cells, `SP` becomes the frame base and `PC` the value of `A`. An operand that cannot be formed faults, whatever
`A`. That `K` adds `SP` itself is the spec's own decision D10; the faults are decisions D4 and D13, their form log entry 15. -/
def Obligations.GenuineCall : Prop :=
  ∀ (op : Operand) (s : State),
    (operandReady op s → (s.par.progStart : Int) ≤ sext16 s.a →
      ∃ (ea : Int) (n : Nat), operand op s = .ok ea { s with draws := n } ∧
        (validCell s.par (s.sp + ea) → validCell s.par (s.sp + ea + 1) →
          ∃ t, exec (.k op) s = .next t ∧ t = { s with mem := t.mem, sp := s.sp + ea, pc := sext16 s.a, draws := n } ∧
            holdsCells t (s.sp + ea) [trunc16 s.sp, trunc16 s.pc] = true ∧
            ∀ b, (b / 2 : Nat) ≠ (s.sp + ea).toNat → (b / 2 : Nat) ≠ (s.sp + ea + 1).toNat → t.peekByte b = s.peekByte b) ∧
        (¬ validCell s.par (s.sp + ea) → ∃ r, exec (.k op) s = .fault (.addressOutOfRange (s.sp + ea) r)) ∧
        (validCell s.par (s.sp + ea) → ¬ validCell s.par (s.sp + ea + 1) →
          ∃ r, exec (.k op) s = .fault (.addressOutOfRange (s.sp + ea + 1) r))) ∧
    (¬ operandReady op s → exec (.k op) s = .fault (.addressOutOfRange (operandBase op s)
      { s with run := .halted (.addressOutOfRange (operandBase op s)) }))

/-- `K` with a number no service owns, every negative one among them (44_syscall_port.md R223): fatal. The halted state keeps every
register, cell and handle (60_exceptions.md R262, R265); diagnostic text may go to the output. That the halted state is a next state
is log entry 16. -/
def Obligations.UnknownCall : Prop :=
  ∀ (op : Operand) (s : State), operandReady op s → sext16 s.a < s.par.progStart → s.par.serviceOf (sext16 s.a) = none →
    ∃ t, exec (.k op) s = .next t ∧ t.run = .halted (.unknownCall (sext16 s.a)) ∧
      t = { s with run := t.run, records := t.records, files := t.files, live := t.live, draws := t.draws }

/-- `X4` undoes `K` (43_extended_ops.md R184): after a genuine call, in any state with the callee's frame base whose two link cells
are as the call left them, a return restores the caller's `SP` and `PC`. -/
def Obligations.ReturnUndoesCall : Prop :=
  ∀ (op : Operand) (s t u : State), (s.par.progStart : Int) ≤ sext16 s.a → exec (.k op) s = .next t →
    0 ≤ s.pc → s.pc < 32768 → 0 ≤ s.sp → s.sp < 32768 →
    u.par = t.par → u.sp = t.sp → u.peekCell t.sp.toNat = t.peekCell t.sp.toNat →
    u.peekCell (t.sp + 1).toNat = t.peekCell (t.sp + 1).toNat →
    exec .x4 u = .next { u with pc := s.pc, sp := s.sp }

/-! ## The sub-operations of `X` (43_extended_ops.md) -/

/-- `X` with operand value `k` in `1..23` is sub-operation `k` (R180), in any form of the operand; an operand that cannot be formed
faults. The numbers are the spec's own decision D8 (log entry 24); the fault is decisions D4 and D13, its form log entry 15. -/
def Obligations.ExtendedSelects : Prop :=
  ∀ (op : Operand) (s : State),
    (∀ (k : Nat) (i : Instr) (n : Nat), selectorRow k = some i → operand op s = .ok k { s with draws := n } →
      exec (.x op) s = exec i { s with draws := n } ∧
      (k ≠ 1 → k ≠ 4 → k ≠ 23 → ∃ t, exec (.x op) s = .next t)) ∧
    (¬ operandReady op s → exec (.x op) s = .fault (.addressOutOfRange (operandBase op s)
      { s with run := .halted (.addressOutOfRange (operandBase op s)) }))

/-- `X` with an operand value outside `1..23` is fatal (R204): no register, cell or handle changes. That the halted state is a next
state is log entry 16. -/
def Obligations.UnknownSelector : Prop :=
  ∀ (op : Operand) (s : State) (k : Int) (n : Nat), operand op s = .ok k { s with draws := n } → (k < 1 ∨ 23 < k) →
    ∃ t, exec (.x op) s = .next t ∧ t.run = .halted (.unknownSelector k) ∧
      t = { s with run := t.run, records := t.records, files := t.files, live := t.live, draws := t.draws }

/-- `X1` (R181): `A <- M[A]`, for every valid address; an invalid one, every negative one among them, faults. The fault is the
spec's own, decisions D4 and D13, its form log entry 15; the pattern of a cell nothing has written is a free value (log entry 5). -/
def Obligations.IndirectFetch : Prop :=
  ∀ s : State,
    (validCell s.par (sext16 s.a) → ∃ (w : Word) (n : Nat), exec .x1 s = .next { s with a := w, draws := n } ∧
      ∀ v, s.peekCell (sext16 s.a).toNat = some v → w = v ∧ n = s.draws) ∧
    (¬ validCell s.par (sext16 s.a) → exec .x1 s = .fault (.addressOutOfRange (sext16 s.a)
      { s with run := .halted (.addressOutOfRange (sext16 s.a)) }))

/-- `X4` (R184): `PC` from cell `SP+1` and `SP` from cell `SP`, both in the signed view; the cells `SP+1` and `SP` are read in this
order, and the first invalid one faults. The signed view is the spec's own decision D11; the fault is decisions D4 and D13 (log
entry 15). -/
def Obligations.ReturnResult : Prop :=
  ∀ s : State,
    (∀ u t, holdsCells s s.sp [u, t] = true → exec .x4 s = .next { s with pc := t.toInt, sp := u.toInt }) ∧
    (validCell s.par s.sp → validCell s.par (s.sp + 1) → ∃ (u t : Word) (n : Nat),
      exec .x4 s = .next { s with pc := t.toInt, sp := u.toInt, draws := n }) ∧
    (¬ validCell s.par (s.sp + 1) → ∃ r, exec .x4 s = .fault (.addressOutOfRange (s.sp + 1) r)) ∧
    (validCell s.par (s.sp + 1) → ¬ validCell s.par s.sp → ∃ r, exec .x4 s = .fault (.addressOutOfRange s.sp r))

/-- `X2`, `X3`, `X5`, `X8`, `X9` (R182, R183, R185, R188, R189; property S1 of 95_test_vectors.md): the exact negation of `A`,
product, sum and difference of the signed values of `B` and `A`, reduced modulo `2^16` and read as signed; and every bit of `A`
inverted. -/
def Obligations.ArithmeticResults : Prop :=
  ∀ s : State,
    (∃ w, exec .x2 s = .next { s with a := w } ∧ w.toInt = (-s.a.toInt).bmod 65536) ∧
    (∃ w, exec .x3 s = .next { s with a := w } ∧ (∀ j, j < 16 → w.getLsbD j = !s.a.getLsbD j) ∧ w.toInt = -s.a.toInt - 1) ∧
    (∃ w, exec .x5 s = .next { s with a := w } ∧ w.toInt = (s.b.toInt * s.a.toInt).bmod 65536) ∧
    (∃ w, exec .x8 s = .next { s with a := w } ∧ w.toInt = (s.b.toInt + s.a.toInt).bmod 65536) ∧
    ∃ w, exec .x9 s = .next { s with a := w } ∧ w.toInt = (s.b.toInt - s.a.toInt).bmod 65536

/-- `X6` and `X7` (R186, R187): the quotient rounded toward zero and the remainder with the dividend's sign; with a zero divisor no
register changes. The rounding is the spec's own decision D14. -/
def Obligations.DivisionResults : Prop :=
  ∀ s : State,
    let b := s.b.toInt
    let a := s.a.toInt
    let q := b.sign * a.sign * ((b.natAbs / a.natAbs : Nat) : Int)
    (s.a = 0 → exec .x6 s = .next s ∧ exec .x7 s = .next s) ∧
    (s.a ≠ 0 →
      (∃ w, exec .x6 s = .next { s with a := w } ∧ w.toInt = q.bmod 65536) ∧
      ∃ w, exec .x7 s = .next { s with a := w } ∧ w.toInt = b - a * q ∧ w.toInt.natAbs < a.natAbs ∧
        (w.toInt = 0 ∨ w.toInt.sign = b.sign))

/-- `X10` to `X15` (R190 to R195): the six signed relations of `B` and `A`, all-ones for true and all-zeros for false. Their order
is the spec's own decision D9. -/
def Obligations.RelationResults : Prop :=
  ∀ s : State,
    let result (c : Bool) : Host.Outcome State Fault Refusal := .next { s with a := if c then 0xFFFF else 0x0000 }
    exec .x10 s = result (s.b == s.a) ∧ exec .x11 s = result (s.b != s.a) ∧
    exec .x12 s = result (s.b.slt s.a) ∧ exec .x13 s = result (s.a.sle s.b) ∧
    exec .x14 s = result (s.a.slt s.b) ∧ exec .x15 s = result (s.b.sle s.a)

/-- `X16` and `X17` (R196, R197): shifts by 0 to 15, zeros entering; for any other amount `A` receives some pattern, which no rule
gives, and nothing else changes. The free pattern is the spec's own decision D15 (log entry 7). -/
def Obligations.ShiftResults : Prop :=
  ∀ s : State,
    (∀ k : Nat, k ≤ 15 → s.a.toInt = k →
      exec .x16 s = .next { s with a := s.b <<< k } ∧ exec .x17 s = .next { s with a := s.b >>> k }) ∧
    ((s.a.toInt < 0 ∨ 15 < s.a.toInt) →
      (∃ (w : Word) (n : Nat), exec .x16 s = .next { s with a := w, draws := n }) ∧
      ∃ (w : Word) (n : Nat), exec .x17 s = .next { s with a := w, draws := n })

/-- `X18` to `X21` (R198 to R201): and, or, exclusive or, equivalence, bit by bit. -/
def Obligations.BitwiseResults : Prop :=
  ∀ s : State,
    (∃ w, exec .x18 s = .next { s with a := w } ∧ ∀ j, j < 16 → w.getLsbD j = (s.b.getLsbD j && s.a.getLsbD j)) ∧
    (∃ w, exec .x19 s = .next { s with a := w } ∧ ∀ j, j < 16 → w.getLsbD j = (s.b.getLsbD j || s.a.getLsbD j)) ∧
    (∃ w, exec .x20 s = .next { s with a := w } ∧ ∀ j, j < 16 → w.getLsbD j = (s.b.getLsbD j != s.a.getLsbD j)) ∧
    ∃ w, exec .x21 s = .next { s with a := w } ∧ ∀ j, j < 16 → w.getLsbD j = (s.b.getLsbD j == s.a.getLsbD j)

/-- `X22` (R202): a normal end with value 0; registers and memory keep their values, and no further step is taken. The fault
`runEnded` is the model's way to say so (log entry 17). -/
def Obligations.StopInstruction : Prop :=
  ∀ s : State, exec .x22 s = .next { s with run := .stopped 0 } ∧ step { s with run := .stopped 0 } = .fault .runEnded

/-- `X23` (R203): the target of the first pair whose value is `A`, else the default; cells after the match are not needed; `B` is
left with some pattern, which no rule gives; a negative count faults. A pair that does not match and whose target cell is outside
memory is passed over, as R203's pseudocode has it, though 20_memory.md R49 counts a read of that cell (log entry 34). The free `B`
and the fault of a negative count are the spec's own decision D37 (log entries 7 and 15). -/
def Obligations.SwitchResult : Prop :=
  ∀ (s : State) (n d : Word) (pairs : List (Word × Word)), (∀ e ∈ pairs, e.1 ≠ s.a) →
    let table := n :: d :: pairs.flatMap fun e => [e.1, e.2]
    (n.toInt = pairs.length → holdsCells s s.pc table = true →
      ∃ (w : Word) (m : Nat), exec .x23 s = .next { s with pc := d.toInt, b := w, draws := m }) ∧
    (∀ target : Word, (pairs.length : Int) < n.toInt → holdsCells s s.pc (table ++ [s.a, target]) = true →
      ∃ (w : Word) (m : Nat), exec .x23 s = .next { s with pc := target.toInt, b := w, draws := m }) ∧
    (∀ value : Word, value ≠ s.a → n.toInt = pairs.length + 1 → holdsCells s s.pc (table ++ [value]) = true →
      ¬ validCell s.par (s.pc + table.length + 1) →
      ∃ (w : Word) (m : Nat), exec .x23 s = .next { s with pc := d.toInt, b := w, draws := m }) ∧
    (n.toInt < 0 → holdsCells s s.pc [n, d] = true →
      exec .x23 s = .fault (.badSwitchCount n.toInt { s with run := .halted (.badSwitchCount n.toInt) }))

/-! ## System calls (44_syscall_port.md) -/

/-- `Stop` and `Level` (R225, R226): the exit value is argument 0; the token is `SP`. Argument 0 and the result in `A` are the
spec's own decisions D21 and D16 (log entry 26); the fault is decisions D4 and D13 (log entry 15). -/
def Obligations.StopAndLevel : Prop :=
  ∀ (op : Operand) (v : Int) (s t : State),
    (callsService .stop op v s t → validCell s.par v → ∃ (w a b : Word) (n : Nat),
      exec (.k op) s = .next { s with run := .stopped w, a := a, b := b, draws := n } ∧
      ∀ x, s.peekCell v.toNat = some x → w = x) ∧
    (callsService .stop op v s t → ¬ validCell s.par v → ∃ r, exec (.k op) s = .fault (.addressOutOfRange v r)) ∧
    (callsService .level op v s t → ∃ (b : Word) (n : Nat),
      exec (.k op) s = .next { s with a := BitVec.ofInt 16 s.sp, b := b, draws := n })

/-- `LongJump` (R227): `SP` and `PC` from the two arguments, with no check of either; memory is not changed. The arguments are the
spec's own decision D19, the free `A` and `B` D16; the faults are decisions D4 and D13 (log entry 15). -/
def Obligations.LongJump : Prop :=
  ∀ (op : Operand) (v : Int) (s t : State), callsService .longJump op v s t →
    (∀ x y, holdsCells s v [x, y] = true → ∃ (a b : Word) (n : Nat),
      exec (.k op) s = .next { s with sp := x.toInt, pc := y.toInt, a := a, b := b, draws := n }) ∧
    (¬ validCell s.par v → ∃ r, exec (.k op) s = .fault (.addressOutOfRange v r)) ∧
    (validCell s.par v → ¬ validCell s.par (v + 1) → ∃ r, exec (.k op) s = .fault (.addressOutOfRange (v + 1) r))

/-- `AptOvec` (R228): a new frame just above a vector of `n + 1` cells at the frame base `F = V - 2`; a negative bound is refused.
The layout is the spec's own decision D20; the refusal is log entry 20. -/
def Obligations.AptOvec : Prop :=
  ∀ (op : Operand) (v : Int) (s t : State) (f n : Word), callsService .aptOvec op v s t → holdsCells s v [f, n] = true →
    let base := (v - 2) + n.toInt + 1
    (0 ≤ n.toInt → validCell s.par base → validCell s.par (base + 3) →
      ∃ u, exec (.k op) s = .next u ∧
        u = { s with mem := u.mem, sp := base, pc := f.toInt, a := u.a, b := u.b, draws := u.draws } ∧
        holdsCells u base [trunc16 s.sp, trunc16 s.pc, trunc16 (v - 2), n] = true ∧
        ∀ b, ((b / 2 : Nat) : Int) < base ∨ base + 3 < ((b / 2 : Nat) : Int) → u.peekByte b = s.peekByte b) ∧
    (n.toInt < 0 → exec (.k op) s = .refused (.negativeVectorBound n.toInt))

/-- `GetByte` and `PutByte` (R229, R230): byte `2*s + i` of memory, zero-extended; only that byte is written, and the other byte of
its cell keeps its value. What a byte nothing has written holds is a free value, drawn at a read, and drawn and kept at a write of
its cell (log entry 5). The arguments are the spec's own decision D22; the fault is decisions D4 and D13 (log entry 15). -/
def Obligations.ByteServices : Prop :=
  ∀ (op : Operand) (v : Int) (s t : State) (c i x : Word),
    let address := 2 * c.toInt + i.toInt
    (callsService .getByte op v s t → holdsCells s v [c, i] = true →
      (validCell s.par (address / 2) → ∃ (y : Byte) (b : Word) (n : Nat),
        exec (.k op) s = .next { s with a := y.setWidth 16, b := b, draws := n } ∧
        ∀ z, s.peekByte address.toNat = some z → y = z) ∧
      (¬ validCell s.par (address / 2) → ∃ r, exec (.k op) s = .fault (.addressOutOfRange address r))) ∧
    (callsService .putByte op v s t → holdsCells s v [c, i, x] = true →
      (validCell s.par (address / 2) → ∃ u, exec (.k op) s = .next u ∧
        u = { s with mem := u.mem, a := u.a, b := u.b, draws := u.draws } ∧
        u.peekByte address.toNat = some (x.setWidth 8) ∧
        (∀ k y, k ≠ address.toNat → s.peekByte k = some y → u.peekByte k = some y) ∧
        ∀ k, (k / 2 : Nat) ≠ (address / 2).toNat → u.peekByte k = s.peekByte k) ∧
      (¬ validCell s.par (address / 2) → ∃ r, exec (.k op) s = .fault (.addressOutOfRange address r)))

/-- `Abort` and `Backtrace` do nothing (R231); the handle services set and answer `CIS` and `COS` (R236). The result in `A` and the
free `A` and `B` are the spec's own decision D16. -/
def Obligations.HandleServices : Prop :=
  ∀ (op : Operand) (v : Int) (s t : State),
    (callsService .abort op v s t ∨ callsService .backtrace op v s t → ∃ (a b : Word) (n : Nat),
      exec (.k op) s = .next { s with a := a, b := b, draws := n }) ∧
    (∀ h, callsService .selectInput op v s t → holdsCells s v [h] = true → ∃ (a b : Word) (n : Nat),
      exec (.k op) s = .next { s with cis := h.toInt, a := a, b := b, draws := n }) ∧
    (∀ h, callsService .selectOutput op v s t → holdsCells s v [h] = true → ∃ (a b : Word) (n : Nat),
      exec (.k op) s = .next { s with cos := h.toInt, a := a, b := b, draws := n }) ∧
    (callsService .input op v s t → ∃ (b : Word) (n : Nat),
      exec (.k op) s = .next { s with a := BitVec.ofInt 16 s.cis, b := b, draws := n }) ∧
    (callsService .output op v s t → ∃ (b : Word) (n : Nat),
      exec (.k op) s = .next { s with a := BitVec.ofInt 16 s.cos, b := b, draws := n }) ∧
    (callsService .endRead op v s t → ∃ (a b : Word) (n : Nat),
      exec (.k op) s = .next { s with cis := s.par.defaultInput, a := a, b := b, draws := n }) ∧
    (callsService .endWrite op v s t → ∃ (a b : Word) (n : Nat),
      exec (.k op) s = .next { s with cos := s.par.defaultOutput, a := a, b := b, draws := n })

/-- `rdch` (R233, R238): the next character of stream `CIS`, a carriage return read as a line feed, or `ENDSTREAM` at its end; the
position of that stream's record moves by one, and nothing else changes. The result in `A` and the free `B` are the spec's own
decision D16; the value of `ENDSTREAM` is a parameter. A stream of mode write is read like any other (log entry 31). -/
def Obligations.ReadCharacter : Prop :=
  ∀ (op : Operand) (v : Int) (s t : State) (r : Nat) (st : Stream), callsService .rdch op v s t →
    s.recordNo s.cis = some r → s.records[r]? = some st →
    (∀ c, st.content[st.position]? = some c → ∃ (b : Word) (n : Nat),
      exec (.k op) s = .next { s with records := s.records.set r { st with position := st.position + 1 },
                                      a := (if c = 13 then 10 else c.setWidth 16), b := b, draws := n }) ∧
    (st.content[st.position]? = none → ∃ (b : Word) (n : Nat),
      exec (.k op) s = .next { s with a := s.par.endStream, b := b, draws := n })

/-- The output services append to the record of stream `COS`, to the content of its name where it is a write stream that has one,
and to the live output when `COS` stands for the default output's record, and change no other record and no other name (R233, R234,
R238, R239; property S8 of 95_test_vectors.md): `wrch` a character, the line break a line feed, the string output and the format
writer on a format without `%` the characters of a packed string, the plain decimal output a sign and decimal digits without leading
zeros, the octal and hexadecimal outputs a fixed count of digits, most significant first. The arguments of `wrch` are as R233 has
them; those of the numbers and the string and their characters are log entries 4 and 19; that the format is the packed string at
argument 0 and every character but `%` is written as it is, log entry 35; the free `A` and `B` decision D16; that each character
shows under the name at once log entry 21; a stream of mode read, and two write streams on one name, log entries 31 and 32. -/
def Obligations.OutputServices : Prop :=
  ∀ (op : Operand) (v : Int) (s t : State) (r : Nat) (st : Stream), s.recordNo s.cos = some r → s.records[r]? = some st →
    let written (text : List Byte) : Prop := ∃ (files : List (List Byte × List Byte)) (a b : Word) (m : Nat),
      exec (.k op) s = .next { s with records := s.records.set r { st with content := st.content ++ text }, files := files,
                                      live := if s.recordNo s.par.defaultOutput = some r then s.live ++ text else s.live,
                                      a := a, b := b, draws := m } ∧
      ((st.mode = .read ∨ st.name = none) → files = s.files) ∧
      ∀ name, st.mode = .write → st.name = some name →
        (getFile name files).getD [] = (getFile name s.files).getD [] ++ text ∧
        ∀ other, other ≠ name → getFile other files = getFile other s.files
    (∀ c : Byte, callsService .wrch op v s t → holdsCells s v [c.setWidth 16] = true → written [c]) ∧
    (callsService .newLine op v s t → written [10]) ∧
    (∀ (c : Word) (text : List Byte), holdsCells s v [c] = true → holdsPacked s c.toInt text = true →
      (callsService .writeS op v s t → written text) ∧
      (callsService .writeF op v s t → (s.par.formatInline = true ∨ validCell s.par (v + 1)) → (∀ x ∈ text, x ≠ 37) → written text)) ∧
    (∀ n : Word, callsService .writeN op v s t → holdsCells s v [n] = true → ∃ digits : List Byte,
      (∀ x ∈ digits, 48 ≤ x.toNat ∧ x.toNat ≤ 57) ∧ digits ≠ [] ∧ (digits.head? = some 48 → n = 0) ∧
      digits.foldl (fun z x => 10 * z + (x.toNat - 48)) 0 = n.toInt.natAbs ∧
      written ((if n.toInt < 0 then [45] else []) ++ digits)) ∧
    ∀ (base : Nat) (n count : Word), (callsService .writeOct op v s t ∧ base = 8 ∨ callsService .writeHex op v s t ∧ base = 16) →
      holdsCells s v (if s.par.numberFirst then [n, count] else [count, n]) = true → 0 ≤ n.toInt → 0 ≤ count.toInt →
      ∃ text : List Byte, text.length = count.toNat ∧
        (∀ j, j < count.toNat → text[j]? = some (digitCharacter (n.toNat / base ^ (count.toNat - 1 - j) % base))) ∧ written text

/-- `ReadN` (R241): after blanks, a sign and decimal digits, `A` is the number and `TERMINATOR_CELL` holds the code of the character
that ends it; no other cell changes. The cell is the spec's own decision D43, the free `B` D16. The white space is log entry 12, what
becomes of the terminator log entry 28, that `+` is a sign beside `-` log entry 37; that `CIS` may name a stream of mode write, whose written text is then read, log entry 31. -/
def Obligations.ReadNumber : Prop :=
  ∀ (op : Operand) (v : Int) (s t : State) (blanks digits rest : List Byte) (sign : Int) (signText : List Byte) (c : Byte),
    callsService .readN op v s t → (s.streamAt s.cis).isSome = true → validCell s.par s.par.terminatorCell →
    (∀ x ∈ blanks, x = 32) → digits ≠ [] → (∀ x ∈ digits, 48 ≤ x.toNat ∧ x.toNat ≤ 57) →
    (c.toNat < 48 ∨ 57 < c.toNat) → c ≠ 13 →
    ((sign = 1 ∧ signText = []) ∨ (sign = 1 ∧ signText = [43]) ∨ (sign = -1 ∧ signText = [45])) →
    s.unread s.cis = blanks ++ signText ++ digits ++ c :: rest →
    ∃ u, exec (.k op) s = .next u ∧
      u = { s with mem := u.mem, records := u.records, a := u.a, b := u.b, draws := u.draws } ∧
      u.a = BitVec.ofInt 16 (sign * ((digits.foldl (fun z x => 10 * z + (x.toNat - 48)) 0 : Nat) : Int)) ∧
      u.peekCell s.par.terminatorCell.toNat = some (c.setWidth 16) ∧
      ∀ b, (b / 2 : Nat) ≠ s.par.terminatorCell.toNat → u.peekByte b = s.peekByte b

/-- Opening by name (R237, 60_exceptions.md R267): the default handle for a reserved name in either mode; for input, handle 0 for a
name without content, else a new handle on the content; for output, a new handle on a freshly created empty entry of that name, the
other names as they were. The name's place is from the spec's general knowledge G17; the handle in `A` and the free `B` are the spec's
own decision D16 (log entry 26). The new handle is log entry 8 and the content a read stream holds log entry 10; that a name opened
for output is empty also when it had content before is log entry 21, or 32 where a write stream of that name is open; that the entry
is made under the exact spelling, an entry under another spelling kept, log entry 36. -/
def Obligations.OpenByName : Prop :=
  ∀ (op : Operand) (v : Int) (s t : State) (c : Word) (name : List Byte),
    holdsCells s v [c] = true → holdsPacked s c.toInt name = true →
    (∀ h, callsService .findInput op v s t ∨ callsService .findOutput op v s t → reservedHandle s.par name = some h →
      ∃ (b : Word) (n : Nat), exec (.k op) s = .next { s with a := BitVec.ofInt 16 h, b := b, draws := n }) ∧
    (callsService .findInput op v s t → reservedHandle s.par name = none → lookupFile name s.files = none →
      ∃ (b : Word) (n : Nat), exec (.k op) s = .next { s with a := 0, b := b, draws := n }) ∧
    (∀ text, callsService .findInput op v s t → reservedHandle s.par name = none → lookupFile name s.files = some text →
      ∃ (h : Int) (u : State), exec (.k op) s = .next u ∧ h ≠ 0 ∧ s.recordNo h = none ∧ u.a = BitVec.ofInt 16 h ∧
        u = { s with slots := (h, s.records.length) :: s.slots, records := s.records ++ [⟨text, 0, .read, some name⟩],
                     a := u.a, b := u.b, draws := u.draws }) ∧
    (callsService .findOutput op v s t → reservedHandle s.par name = none →
      ∃ (h : Int) (u : State), exec (.k op) s = .next u ∧ h ≠ 0 ∧ s.recordNo h = none ∧ u.a = BitVec.ofInt 16 h ∧
        u = { s with slots := (h, s.records.length) :: s.slots, records := s.records ++ [⟨[], 0, .write, some name⟩],
                     files := u.files, a := u.a, b := u.b, draws := u.draws } ∧
        getFile name u.files = some [] ∧ ∀ other, other ≠ name → getFile other u.files = getFile other s.files)

/-- `PackString` and `UnpackString` (R235, 20_memory.md R45), in the argument order of the parameters: a string of one character a
cell, its length in cell 0, becomes a packed string, and a packed string becomes one character a cell; only the cells of the string
written change. The argument order is log entry 4 and the unused half cell log entry 11; the unpacked form is the spec's general
knowledge G16; the free `A` and `B` are the spec's own decision D16 (log entry 26). -/
def Obligations.StringServices : Prop :=
  ∀ (op : Operand) (v : Int) (s t : State) (source destination : Word) (text : List Byte),
    holdsCells s v (if s.par.packSourceFirst then [source, destination] else [destination, source]) = true →
    text.length ≤ 255 → 0 ≤ destination.toInt →
    let unpacked : List Word := BitVec.ofNat 16 text.length :: text.map fun c => c.setWidth 16
    (callsService .packString op v s t → holdsCells s source.toInt unpacked = true →
      destination.toInt + text.length / 2 < s.par.addrLimit →
      ∃ u, exec (.k op) s = .next u ∧ u = { s with mem := u.mem, a := u.a, b := u.b, draws := u.draws } ∧
        holdsPacked u destination.toInt text = true ∧
        ∀ b, ((b / 2 : Nat) : Int) < destination.toInt ∨ destination.toInt + text.length / 2 < ((b / 2 : Nat) : Int) →
          u.peekByte b = s.peekByte b) ∧
    (callsService .unpackString op v s t → holdsPacked s source.toInt text = true →
      destination.toInt + text.length < s.par.addrLimit →
      ∃ u, exec (.k op) s = .next u ∧ u = { s with mem := u.mem, a := u.a, b := u.b, draws := u.draws } ∧
        holdsCells u destination.toInt unpacked = true ∧
        ∀ b, ((b / 2 : Nat) : Int) < destination.toInt ∨ destination.toInt + text.length < ((b / 2 : Nat) : Int) →
          u.peekByte b = s.peekByte b)

/-- What the host may do at the port (R242, R232): `SP` and `PC` change only in `LongJump` and `AptOvec`, memory only in the
services whose rules name cells, the current handles only in the selections and ends of R236, the loader's state and the parameters
never; and the run goes on but for `Stop`, which ends it normally. -/
def Obligations.ServicesAreBounded : Prop :=
  ∀ (service : Service) (v : Int) (s t : State), runService service v s = .next t →
    (service ≠ .longJump → service ≠ .aptOvec → t.sp = s.sp ∧ t.pc = s.pc) ∧
    (service ≠ .aptOvec → service ≠ .putByte → service ≠ .packString → service ≠ .unpackString → service ≠ .readN →
      ∀ b, t.peekByte b = s.peekByte b) ∧
    (service ≠ .selectInput → service ≠ .endRead → t.cis = s.cis) ∧
    (service ≠ .selectOutput → service ≠ .endWrite → t.cos = s.cos) ∧
    (t.labv = s.labv ∧ t.lc = s.lc ∧ t.cp = s.cp ∧ t.ch = s.ch ∧ t.config = s.config ∧ t.par = s.par) ∧
    (service ≠ .stop → t.run = s.run) ∧ (service = .stop → ∃ w, t.run = .stopped w)

/-! ## The loader (40_loader.md) -/

/-- `stw` (R107): one cell at `LC`, `LC` advanced, `CP` 0. `CP` and the fault are the spec's own decisions D29 and D31, the fault's form
log entry 15. -/
def Obligations.EmitCell : Prop :=
  ∀ (v : Int) (s : State),
    (validCell s.par s.lc → ∃ t, emitCell v s = .ok () t ∧ t = { s with mem := t.mem, lc := s.lc + 1, cp := .low } ∧
      t.peekCell s.lc.toNat = some (BitVec.ofInt 16 v) ∧ ∀ b, (b / 2 : Nat) ≠ s.lc.toNat → t.peekByte b = s.peekByte b) ∧
    (¬ validCell s.par s.lc → emitCell v s = addressFault s.lc s)

/-- `labref` (R106): the address of a defined label, or a link of the chain of one that is not, whose head becomes the cell; a
number outside the table is refused (R117). The refusal is the spec's own decision D30, as log entry 20 has it. -/
def Obligations.LabelReference : Prop :=
  ∀ (n : Nat) (a : Int) (s : State),
    (n < s.par.labelCount → validCell s.par a → ∃ t, labelReference n a s = .ok () t ∧
      t = { s with mem := t.mem, labv := t.labv } ∧ (∀ b, (b / 2 : Nat) ≠ a.toNat → t.peekByte b = s.peekByte b) ∧
      (s.labelEntry n < 0 → t.peekCell a.toNat = some (trunc16 (-(s.labelEntry n))) ∧ t.labv = s.labv) ∧
      (0 ≤ s.labelEntry n → t.peekCell a.toNat = some (trunc16 (s.labelEntry n)) ∧ t.labelEntry n = a ∧
        ∀ m, m ≠ n → t.labelEntry m = s.labelEntry m)) ∧
    (s.par.labelCount ≤ n → labelReference n a s = .refused (.labelOutOfTable n))

/-- Defining a label (R105; property S2 of 95_test_vectors.md) patches every cell of its chain, however long, with the label's
address and nothing else, and marks the label defined there; a label already defined is fatal. That `CP` becomes 0 is the spec's own
decision D29; that the halted state is a next state is log entry 16. -/
def Obligations.LabelDefinitionPatchesEveryReference : Prop :=
  ∀ (s t : State) (n : Nat) (cells : List Nat), readNumeral s = .ok n t → n < t.par.labelCount →
    (chainFrom t (t.labelEntry n) cells = true → cells.Nodup → ∃ u, defineLabel s = .ok () u ∧
      u = { t with mem := u.mem, labv := u.labv, cp := .low } ∧
      (∀ c ∈ cells, u.peekCell c = some (trunc16 t.lc)) ∧
      (∀ b, b / 2 ∉ cells → u.peekByte b = t.peekByte b) ∧
      u.labelEntry n = s16 (-t.lc) ∧ ∀ m, m ≠ n → u.labelEntry m = t.labelEntry m) ∧
    (t.labelEntry n < 0 → ∃ u, defineLabel s = .ended u ∧ u.run = .halted (.duplicateLabel n) ∧
      u = { t with run := u.run, records := u.records, files := u.files, live := u.live, draws := u.draws })

/-- `Z` (R113): the lowest label referenced and not defined is fatal; otherwise every label is unused again. `LC` and memory stay.
The lowest number first and `CP` are the spec's own decisions D32 and D29; that the halted state is a next state is log entry 16. -/
def Obligations.EndOfUnit : Prop :=
  ∀ s : State, s.run = .loading → s.ch = some 90 →
    (∀ n, n < s.par.labelCount → 0 < s.labelEntry n → (∀ m, m < n → s.labelEntry m ≤ 0) →
      ∃ t, step s = .next t ∧ t.run = .halted (.unsetLabel n) ∧ t.labv = s.labv ∧ t.lc = s.lc ∧ t.mem = s.mem) ∧
    ((∀ n, n < s.par.labelCount → s.labelEntry n ≤ 0) →
      ∃ t, step s = .next t ∧ t.run = .loading ∧ (∀ n, t.labelEntry n = 0) ∧ t.cp = .low ∧ t.lc = s.lc ∧ t.mem = s.mem)

/-- `C<n>` (R109): the first byte of a pair starts a fresh cell and is its low half, the second is the high half of that cell. `CP`
and the refusal are the spec's own decisions D29 and D40 (log entry 20). -/
def Obligations.ByteDirective : Prop :=
  ∀ (s t : State) (n : Nat), readNumeral (nextChar s) = .ok n t →
    (n ≤ 255 → t.cp = .low → validCell t.par t.lc → ∃ u, byteDirective s = .ok () u ∧
      u = { t with mem := u.mem, lc := t.lc + 1, cp := .high } ∧ u.peekCell t.lc.toNat = some (BitVec.ofNat 16 n) ∧
      ∀ b, (b / 2 : Nat) ≠ t.lc.toNat → u.peekByte b = t.peekByte b) ∧
    (∀ w, n ≤ 255 → t.cp = .high → holdsCells t (t.lc - 1) [w] = true → ∃ u, byteDirective s = .ok () u ∧
      u = { t with mem := u.mem, cp := .low } ∧
      u.peekCell (t.lc - 1).toNat = some ((w &&& 0x00FF) ||| BitVec.ofNat 16 (256 * n)) ∧
      ∀ b, (b / 2 : Nat) ≠ (t.lc - 1).toNat → u.peekByte b = t.peekByte b) ∧
    (255 < n → byteDirective s = .refused (.byteTooLarge n))

/-- The loader and the decoder agree (R108; 30_encoding.md R71, R80): from the text of an instruction, whose operand is a decimal
number or a label and which ends at another character or with the text, the loader emits at `LC` the cells of that instruction,
which decode to it and which a step from there runs: a number packed up to 255 and extended above, a label extended, its address or
a link of its chain in the operand cell; and it consumes nothing more. The filler letter, a parameter, is one that cannot be taken
for another part. The order of the modifiers and the numbers are the spec's own decisions D38, D5 and D6. -/
def Obligations.AssembledInstructionDecodes : Prop :=
  ∀ (s : State) (letter : Byte) (indirect relative filler byLabel : Bool) (digits after : List Byte) (i : Instr),
    s.run = .loading → s.ch = some letter → s.par.fillerLetter ∉ [13, 73, 80, 76] → isDigit s.par.fillerLetter = false →
    digits ≠ [] → (∀ c ∈ digits, isDigit c = true) → (∀ c, after.head? = some c → isDigit c = false) →
    s.unread s.cis = (if indirect then [73] else []) ++ (if relative then [80] else []) ++
      (if filler then [s.par.fillerLetter] else []) ++ (if byLabel then [76] else []) ++ digits ++ after →
    let n := digitsValue 0 digits
    n ≤ 65535 → (byLabel = true → n < s.par.labelCount) → validCell s.par s.lc →
    (byLabel = true ∨ 255 < n → validCell s.par (s.lc + 1)) →
    let literal : Literal :=
      if byLabel then .extended (BitVec.ofInt 16 |s.labelEntry n|)
      else if n ≤ 255 then .packed (BitVec.ofNat 8 n) else .extended (BitVec.ofNat 16 n)
    let op : Operand := ⟨indirect, relative, literal⟩
    (letter, i) ∈ [((76 : Byte), Instr.l op), (83, .s op), (65, .a op), (74, .j op), (84, .t op), (70, .f op), (75, .k op),
      (88, decodeExtended op)] →
    ∃ t, step s = .next t ∧ t.lc = s.lc + (if byLabel = true ∨ 255 < n then 2 else 1) ∧
      holdsCells t s.lc (encode i) = true ∧ decode (encodeBytes i) = .ok (i, []) ∧
      (∀ u : State, u.run = .running → u.pc = s.lc → u.par = t.par → u.mem = t.mem → step u = exec i { u with pc := t.lc }) ∧
      t = { s with mem := t.mem, lc := t.lc, cp := .low, labv := t.labv, ch := after.head?.map normalizeChar, records := t.records } ∧
      t.unread s.cis = after.tail ∧
      (byLabel = false ∨ s.labelEntry n < 0 → t.labv = s.labv) ∧
      (byLabel = true → 0 ≤ s.labelEntry n → t.labelEntry n = s.lc + 1 ∧ ∀ m, m ≠ n → t.labelEntry m = s.labelEntry m) ∧
      ∀ b, ((b / 2 : Nat) : Int) < s.lc ∨ t.lc ≤ ((b / 2 : Nat) : Int) → t.peekByte b = s.peekByte b
end

