-- ==== Sys2Proof/Laws/Encoding.lean ====
section
/-! SUPPORT. The fields of an encoded word, and how bytes join into the cells they came from. -/

namespace Sys2Proof

section Fields
variable (n : Byte) (d p i : Bool) (op : BitVec 3)

/-- A word laid out by fields, most significant first (30_encoding.md R70). -/
def fieldsWord : Word := n ++ 0#2 ++ BitVec.ofBool d ++ BitVec.ofBool p ++ BitVec.ofBool i ++ op

theorem fieldsWord_opcode : opcodeField (fieldsWord n d p i op) = op.toNat := by
  unfold opcodeField fieldsWord
  congr 1
  apply BitVec.eq_of_getLsbD_eq
  intro j hj
  rw [BitVec.getLsbD_extractLsb', Nat.zero_add, BitVec.getLsbD_append, if_pos hj]
  simp [hj]

theorem fieldsWord_indirect : indirectBit (fieldsWord n d p i op) = i := by
  unfold indirectBit fieldsWord
  rw [BitVec.getLsbD_append, if_neg (by omega), BitVec.getLsbD_append, if_pos (by omega)]
  simp

theorem fieldsWord_relative : relativeBit (fieldsWord n d p i op) = p := by
  unfold relativeBit fieldsWord
  rw [BitVec.getLsbD_append, if_neg (by omega), BitVec.getLsbD_append, if_neg (by omega), BitVec.getLsbD_append, if_pos (by omega)]
  simp

theorem fieldsWord_extended : extendedBit (fieldsWord n d p i op) = d := by
  unfold extendedBit fieldsWord
  rw [BitVec.getLsbD_append, if_neg (by omega), BitVec.getLsbD_append, if_neg (by omega), BitVec.getLsbD_append, if_neg (by omega),
    BitVec.getLsbD_append, if_pos (by omega)]
  simp

theorem fieldsWord_packed : packedField (fieldsWord n d p i op) = n := by
  unfold packedField fieldsWord
  apply BitVec.eq_of_getLsbD_eq
  intro j hj
  rw [BitVec.getLsbD_extractLsb']
  simp only [hj, decide_true, Bool.true_and]
  rw [BitVec.getLsbD_append, if_neg (by omega), BitVec.getLsbD_append, if_neg (by omega), BitVec.getLsbD_append, if_neg (by omega),
    BitVec.getLsbD_append, if_neg (by omega), BitVec.getLsbD_append, if_neg (by omega)]
  congr 1
  omega

end Fields

theorem encodeWord_packed (op : BitVec 3) (i p : Bool) (n : Byte) : encodeWord op ⟨i, p, .packed n⟩ = fieldsWord n false p i op := rfl

theorem encodeWord_extended (op : BitVec 3) (i p : Bool) (e : Word) : encodeWord op ⟨i, p, .extended e⟩ = fieldsWord 0 true p i op := rfl

/-- The opcode of an encoded word. -/
theorem opcodeField_encodeWord (op : BitVec 3) (o : Operand) : opcodeField (encodeWord op o) = op.toNat := by
  obtain ⟨i, p, l⟩ := o
  cases l with
  | packed n => rw [encodeWord_packed, fieldsWord_opcode]
  | extended e => rw [encodeWord_extended, fieldsWord_opcode]

/-- Bit `D` of an encoded word says whether the literal is extended. -/
theorem extendedBit_encodeWord (op : BitVec 3) (o : Operand) :
    extendedBit (encodeWord op o) = match o.literal with | .packed _ => false | .extended _ => true := by
  obtain ⟨i, p, l⟩ := o
  cases l with
  | packed n => rw [encodeWord_packed, fieldsWord_extended]
  | extended e => rw [encodeWord_extended, fieldsWord_extended]

/-- The operand of an encoded word, its literal in the next cell when it is extended. -/
theorem decodeOperand_encodeWord (op : BitVec 3) (o : Operand) (e : Word) (h : ∀ w, o.literal = .extended w → e = w) :
    decodeOperand (encodeWord op o) e = o := by
  obtain ⟨i, p, l⟩ := o
  cases l with
  | packed n =>
    rw [encodeWord_packed]
    simp [decodeOperand, fieldsWord_indirect, fieldsWord_relative, fieldsWord_extended, fieldsWord_packed]
  | extended w =>
    rw [encodeWord_extended, h w rfl]
    simp [decodeOperand, fieldsWord_indirect, fieldsWord_relative, fieldsWord_extended]

end Sys2Proof
end

