-- ==== Sys2Proof/Laws/State.lean ====
section
/-! SUPPORT. One lemma for each field of the state and each named update: what the update leaves alone, and what it sets. -/

namespace Sys2Proof.Machine

/-! ## `anyA`: `A <- any16` -/

@[simp] theorem anyA_par (s : State) : (s.anyA).par = s.par := rfl
@[simp] theorem anyA_b (s : State) : (s.anyA).b = s.b := rfl
@[simp] theorem anyA_pc (s : State) : (s.anyA).pc = s.pc := rfl
@[simp] theorem anyA_sp (s : State) : (s.anyA).sp = s.sp := rfl
@[simp] theorem anyA_mem (s : State) : (s.anyA).mem = s.mem := rfl
@[simp] theorem anyA_labv (s : State) : (s.anyA).labv = s.labv := rfl
@[simp] theorem anyA_lc (s : State) : (s.anyA).lc = s.lc := rfl
@[simp] theorem anyA_cp (s : State) : (s.anyA).cp = s.cp := rfl
@[simp] theorem anyA_ch (s : State) : (s.anyA).ch = s.ch := rfl
@[simp] theorem anyA_cis (s : State) : (s.anyA).cis = s.cis := rfl
@[simp] theorem anyA_cos (s : State) : (s.anyA).cos = s.cos := rfl
@[simp] theorem anyA_run (s : State) : (s.anyA).run = s.run := rfl
@[simp] theorem anyA_slots (s : State) : (s.anyA).slots = s.slots := rfl
@[simp] theorem anyA_records (s : State) : (s.anyA).records = s.records := rfl
@[simp] theorem anyA_files (s : State) : (s.anyA).files = s.files := rfl
@[simp] theorem anyA_live (s : State) : (s.anyA).live = s.live := rfl
@[simp] theorem anyA_config (s : State) : (s.anyA).config = s.config := rfl
@[simp] theorem anyA_a (s : State) : s.anyA.a = Config.anyWord s.draws := rfl
@[simp] theorem anyA_draws (s : State) : s.anyA.draws = s.draws + 1 := rfl

/-! ## `anyB`: `B <- any16` -/

@[simp] theorem anyB_par (s : State) : (s.anyB).par = s.par := rfl
@[simp] theorem anyB_a (s : State) : (s.anyB).a = s.a := rfl
@[simp] theorem anyB_pc (s : State) : (s.anyB).pc = s.pc := rfl
@[simp] theorem anyB_sp (s : State) : (s.anyB).sp = s.sp := rfl
@[simp] theorem anyB_mem (s : State) : (s.anyB).mem = s.mem := rfl
@[simp] theorem anyB_labv (s : State) : (s.anyB).labv = s.labv := rfl
@[simp] theorem anyB_lc (s : State) : (s.anyB).lc = s.lc := rfl
@[simp] theorem anyB_cp (s : State) : (s.anyB).cp = s.cp := rfl
@[simp] theorem anyB_ch (s : State) : (s.anyB).ch = s.ch := rfl
@[simp] theorem anyB_cis (s : State) : (s.anyB).cis = s.cis := rfl
@[simp] theorem anyB_cos (s : State) : (s.anyB).cos = s.cos := rfl
@[simp] theorem anyB_run (s : State) : (s.anyB).run = s.run := rfl
@[simp] theorem anyB_slots (s : State) : (s.anyB).slots = s.slots := rfl
@[simp] theorem anyB_records (s : State) : (s.anyB).records = s.records := rfl
@[simp] theorem anyB_files (s : State) : (s.anyB).files = s.files := rfl
@[simp] theorem anyB_live (s : State) : (s.anyB).live = s.live := rfl
@[simp] theorem anyB_config (s : State) : (s.anyB).config = s.config := rfl
@[simp] theorem anyB_b (s : State) : s.anyB.b = Config.anyWord s.draws := rfl
@[simp] theorem anyB_draws (s : State) : s.anyB.draws = s.draws + 1 := rfl

/-! ## The end of a service -/

@[simp] theorem serviceDone_par (s : State) : (serviceDone s).par = s.par := rfl
@[simp] theorem serviceDone_pc (s : State) : (serviceDone s).pc = s.pc := rfl
@[simp] theorem serviceDone_sp (s : State) : (serviceDone s).sp = s.sp := rfl
@[simp] theorem serviceDone_mem (s : State) : (serviceDone s).mem = s.mem := rfl
@[simp] theorem serviceDone_labv (s : State) : (serviceDone s).labv = s.labv := rfl
@[simp] theorem serviceDone_lc (s : State) : (serviceDone s).lc = s.lc := rfl
@[simp] theorem serviceDone_cp (s : State) : (serviceDone s).cp = s.cp := rfl
@[simp] theorem serviceDone_ch (s : State) : (serviceDone s).ch = s.ch := rfl
@[simp] theorem serviceDone_cis (s : State) : (serviceDone s).cis = s.cis := rfl
@[simp] theorem serviceDone_cos (s : State) : (serviceDone s).cos = s.cos := rfl
@[simp] theorem serviceDone_run (s : State) : (serviceDone s).run = s.run := rfl
@[simp] theorem serviceDone_slots (s : State) : (serviceDone s).slots = s.slots := rfl
@[simp] theorem serviceDone_records (s : State) : (serviceDone s).records = s.records := rfl
@[simp] theorem serviceDone_files (s : State) : (serviceDone s).files = s.files := rfl
@[simp] theorem serviceDone_live (s : State) : (serviceDone s).live = s.live := rfl
@[simp] theorem serviceDone_config (s : State) : (serviceDone s).config = s.config := rfl

/-! ## The end of a service with a result -/

@[simp] theorem serviceResult_par (z : Int) (s : State) : (serviceResult z s).par = s.par := rfl
@[simp] theorem serviceResult_pc (z : Int) (s : State) : (serviceResult z s).pc = s.pc := rfl
@[simp] theorem serviceResult_sp (z : Int) (s : State) : (serviceResult z s).sp = s.sp := rfl
@[simp] theorem serviceResult_mem (z : Int) (s : State) : (serviceResult z s).mem = s.mem := rfl
@[simp] theorem serviceResult_labv (z : Int) (s : State) : (serviceResult z s).labv = s.labv := rfl
@[simp] theorem serviceResult_lc (z : Int) (s : State) : (serviceResult z s).lc = s.lc := rfl
@[simp] theorem serviceResult_cp (z : Int) (s : State) : (serviceResult z s).cp = s.cp := rfl
@[simp] theorem serviceResult_ch (z : Int) (s : State) : (serviceResult z s).ch = s.ch := rfl
@[simp] theorem serviceResult_cis (z : Int) (s : State) : (serviceResult z s).cis = s.cis := rfl
@[simp] theorem serviceResult_cos (z : Int) (s : State) : (serviceResult z s).cos = s.cos := rfl
@[simp] theorem serviceResult_run (z : Int) (s : State) : (serviceResult z s).run = s.run := rfl
@[simp] theorem serviceResult_slots (z : Int) (s : State) : (serviceResult z s).slots = s.slots := rfl
@[simp] theorem serviceResult_records (z : Int) (s : State) : (serviceResult z s).records = s.records := rfl
@[simp] theorem serviceResult_files (z : Int) (s : State) : (serviceResult z s).files = s.files := rfl
@[simp] theorem serviceResult_live (z : Int) (s : State) : (serviceResult z s).live = s.live := rfl
@[simp] theorem serviceResult_config (z : Int) (s : State) : (serviceResult z s).config = s.config := rfl
@[simp] theorem serviceResult_a (z : Int) (s : State) : (serviceResult z s).a = trunc16 z := rfl

/-! ## Writing a byte and a cell -/

@[simp] theorem pokeByte_par (k : Nat) (v : Byte) (s : State) : (s.pokeByte k v).par = s.par := rfl
@[simp] theorem pokeByte_a (k : Nat) (v : Byte) (s : State) : (s.pokeByte k v).a = s.a := rfl
@[simp] theorem pokeByte_b (k : Nat) (v : Byte) (s : State) : (s.pokeByte k v).b = s.b := rfl
@[simp] theorem pokeByte_pc (k : Nat) (v : Byte) (s : State) : (s.pokeByte k v).pc = s.pc := rfl
@[simp] theorem pokeByte_sp (k : Nat) (v : Byte) (s : State) : (s.pokeByte k v).sp = s.sp := rfl
@[simp] theorem pokeByte_labv (k : Nat) (v : Byte) (s : State) : (s.pokeByte k v).labv = s.labv := rfl
@[simp] theorem pokeByte_lc (k : Nat) (v : Byte) (s : State) : (s.pokeByte k v).lc = s.lc := rfl
@[simp] theorem pokeByte_cp (k : Nat) (v : Byte) (s : State) : (s.pokeByte k v).cp = s.cp := rfl
@[simp] theorem pokeByte_ch (k : Nat) (v : Byte) (s : State) : (s.pokeByte k v).ch = s.ch := rfl
@[simp] theorem pokeByte_cis (k : Nat) (v : Byte) (s : State) : (s.pokeByte k v).cis = s.cis := rfl
@[simp] theorem pokeByte_cos (k : Nat) (v : Byte) (s : State) : (s.pokeByte k v).cos = s.cos := rfl
@[simp] theorem pokeByte_run (k : Nat) (v : Byte) (s : State) : (s.pokeByte k v).run = s.run := rfl
@[simp] theorem pokeByte_slots (k : Nat) (v : Byte) (s : State) : (s.pokeByte k v).slots = s.slots := rfl
@[simp] theorem pokeByte_records (k : Nat) (v : Byte) (s : State) : (s.pokeByte k v).records = s.records := rfl
@[simp] theorem pokeByte_files (k : Nat) (v : Byte) (s : State) : (s.pokeByte k v).files = s.files := rfl
@[simp] theorem pokeByte_live (k : Nat) (v : Byte) (s : State) : (s.pokeByte k v).live = s.live := rfl
@[simp] theorem pokeByte_config (k : Nat) (v : Byte) (s : State) : (s.pokeByte k v).config = s.config := rfl
@[simp] theorem pokeByte_draws (k : Nat) (v : Byte) (s : State) : (s.pokeByte k v).draws = s.draws := rfl
@[simp] theorem pokeByte_mem (k : Nat) (v : Byte) (s : State) : (s.pokeByte k v).mem = putByteAt s.par s.mem k v := rfl


@[simp] theorem pokeCell_par (k : Nat) (w : Word) (s : State) : (s.pokeCell k w).par = s.par := rfl
@[simp] theorem pokeCell_a (k : Nat) (w : Word) (s : State) : (s.pokeCell k w).a = s.a := rfl
@[simp] theorem pokeCell_b (k : Nat) (w : Word) (s : State) : (s.pokeCell k w).b = s.b := rfl
@[simp] theorem pokeCell_pc (k : Nat) (w : Word) (s : State) : (s.pokeCell k w).pc = s.pc := rfl
@[simp] theorem pokeCell_sp (k : Nat) (w : Word) (s : State) : (s.pokeCell k w).sp = s.sp := rfl
@[simp] theorem pokeCell_labv (k : Nat) (w : Word) (s : State) : (s.pokeCell k w).labv = s.labv := rfl
@[simp] theorem pokeCell_lc (k : Nat) (w : Word) (s : State) : (s.pokeCell k w).lc = s.lc := rfl
@[simp] theorem pokeCell_cp (k : Nat) (w : Word) (s : State) : (s.pokeCell k w).cp = s.cp := rfl
@[simp] theorem pokeCell_ch (k : Nat) (w : Word) (s : State) : (s.pokeCell k w).ch = s.ch := rfl
@[simp] theorem pokeCell_cis (k : Nat) (w : Word) (s : State) : (s.pokeCell k w).cis = s.cis := rfl
@[simp] theorem pokeCell_cos (k : Nat) (w : Word) (s : State) : (s.pokeCell k w).cos = s.cos := rfl
@[simp] theorem pokeCell_run (k : Nat) (w : Word) (s : State) : (s.pokeCell k w).run = s.run := rfl
@[simp] theorem pokeCell_slots (k : Nat) (w : Word) (s : State) : (s.pokeCell k w).slots = s.slots := rfl
@[simp] theorem pokeCell_records (k : Nat) (w : Word) (s : State) : (s.pokeCell k w).records = s.records := rfl
@[simp] theorem pokeCell_files (k : Nat) (w : Word) (s : State) : (s.pokeCell k w).files = s.files := rfl
@[simp] theorem pokeCell_live (k : Nat) (w : Word) (s : State) : (s.pokeCell k w).live = s.live := rfl
@[simp] theorem pokeCell_config (k : Nat) (w : Word) (s : State) : (s.pokeCell k w).config = s.config := rfl
@[simp] theorem pokeCell_draws (k : Nat) (w : Word) (s : State) : (s.pokeCell k w).draws = s.draws := rfl

/-! ## An entry of the label table -/

@[simp] theorem setLabel_par (n : Nat) (v : Int) (s : State) : (s.setLabel n v).par = s.par := rfl
@[simp] theorem setLabel_a (n : Nat) (v : Int) (s : State) : (s.setLabel n v).a = s.a := rfl
@[simp] theorem setLabel_b (n : Nat) (v : Int) (s : State) : (s.setLabel n v).b = s.b := rfl
@[simp] theorem setLabel_pc (n : Nat) (v : Int) (s : State) : (s.setLabel n v).pc = s.pc := rfl
@[simp] theorem setLabel_sp (n : Nat) (v : Int) (s : State) : (s.setLabel n v).sp = s.sp := rfl
@[simp] theorem setLabel_mem (n : Nat) (v : Int) (s : State) : (s.setLabel n v).mem = s.mem := rfl
@[simp] theorem setLabel_lc (n : Nat) (v : Int) (s : State) : (s.setLabel n v).lc = s.lc := rfl
@[simp] theorem setLabel_cp (n : Nat) (v : Int) (s : State) : (s.setLabel n v).cp = s.cp := rfl
@[simp] theorem setLabel_ch (n : Nat) (v : Int) (s : State) : (s.setLabel n v).ch = s.ch := rfl
@[simp] theorem setLabel_cis (n : Nat) (v : Int) (s : State) : (s.setLabel n v).cis = s.cis := rfl
@[simp] theorem setLabel_cos (n : Nat) (v : Int) (s : State) : (s.setLabel n v).cos = s.cos := rfl
@[simp] theorem setLabel_run (n : Nat) (v : Int) (s : State) : (s.setLabel n v).run = s.run := rfl
@[simp] theorem setLabel_slots (n : Nat) (v : Int) (s : State) : (s.setLabel n v).slots = s.slots := rfl
@[simp] theorem setLabel_records (n : Nat) (v : Int) (s : State) : (s.setLabel n v).records = s.records := rfl
@[simp] theorem setLabel_files (n : Nat) (v : Int) (s : State) : (s.setLabel n v).files = s.files := rfl
@[simp] theorem setLabel_live (n : Nat) (v : Int) (s : State) : (s.setLabel n v).live = s.live := rfl
@[simp] theorem setLabel_config (n : Nat) (v : Int) (s : State) : (s.setLabel n v).config = s.config := rfl
@[simp] theorem setLabel_draws (n : Nat) (v : Int) (s : State) : (s.setLabel n v).draws = s.draws := rfl

/-! ## Writing a character -/

@[simp] theorem writeChar_par (h : Int) (c : Byte) (s : State) : (s.writeChar h c).par = s.par := by
  unfold State.writeChar
  split <;> (try split) <;> rfl
@[simp] theorem writeChar_a (h : Int) (c : Byte) (s : State) : (s.writeChar h c).a = s.a := by
  unfold State.writeChar
  split <;> (try split) <;> rfl
@[simp] theorem writeChar_b (h : Int) (c : Byte) (s : State) : (s.writeChar h c).b = s.b := by
  unfold State.writeChar
  split <;> (try split) <;> rfl
@[simp] theorem writeChar_pc (h : Int) (c : Byte) (s : State) : (s.writeChar h c).pc = s.pc := by
  unfold State.writeChar
  split <;> (try split) <;> rfl
@[simp] theorem writeChar_sp (h : Int) (c : Byte) (s : State) : (s.writeChar h c).sp = s.sp := by
  unfold State.writeChar
  split <;> (try split) <;> rfl
@[simp] theorem writeChar_mem (h : Int) (c : Byte) (s : State) : (s.writeChar h c).mem = s.mem := by
  unfold State.writeChar
  split <;> (try split) <;> rfl
@[simp] theorem writeChar_labv (h : Int) (c : Byte) (s : State) : (s.writeChar h c).labv = s.labv := by
  unfold State.writeChar
  split <;> (try split) <;> rfl
@[simp] theorem writeChar_lc (h : Int) (c : Byte) (s : State) : (s.writeChar h c).lc = s.lc := by
  unfold State.writeChar
  split <;> (try split) <;> rfl
@[simp] theorem writeChar_cp (h : Int) (c : Byte) (s : State) : (s.writeChar h c).cp = s.cp := by
  unfold State.writeChar
  split <;> (try split) <;> rfl
@[simp] theorem writeChar_ch (h : Int) (c : Byte) (s : State) : (s.writeChar h c).ch = s.ch := by
  unfold State.writeChar
  split <;> (try split) <;> rfl
@[simp] theorem writeChar_cis (h : Int) (c : Byte) (s : State) : (s.writeChar h c).cis = s.cis := by
  unfold State.writeChar
  split <;> (try split) <;> rfl
@[simp] theorem writeChar_cos (h : Int) (c : Byte) (s : State) : (s.writeChar h c).cos = s.cos := by
  unfold State.writeChar
  split <;> (try split) <;> rfl
@[simp] theorem writeChar_run (h : Int) (c : Byte) (s : State) : (s.writeChar h c).run = s.run := by
  unfold State.writeChar
  split <;> (try split) <;> rfl
@[simp] theorem writeChar_slots (h : Int) (c : Byte) (s : State) : (s.writeChar h c).slots = s.slots := by
  unfold State.writeChar
  split <;> (try split) <;> rfl
@[simp] theorem writeChar_config (h : Int) (c : Byte) (s : State) : (s.writeChar h c).config = s.config := by
  unfold State.writeChar
  split <;> (try split) <;> rfl
@[simp] theorem writeChar_draws (h : Int) (c : Byte) (s : State) : (s.writeChar h c).draws = s.draws := by
  unfold State.writeChar
  split <;> (try split) <;> rfl

/-! ## Writing text -/

/-- Writing a character changes the streams and their observers at most. -/
theorem writeChar_frame (h : Int) (c : Byte) (s : State) :
    ∃ records files live, s.writeChar h c = { s with records := records, files := files, live := live } := by
  unfold State.writeChar
  split
  · exact ⟨_, _, _, rfl⟩
  · split <;> exact ⟨_, _, _, rfl⟩

theorem writeChars_frame (h : Int) (text : Text) (s : State) :
    ∃ records files live, s.writeChars h text = { s with records := records, files := files, live := live } := by
  induction text generalizing s with
  | nil => exact ⟨_, _, _, rfl⟩
  | cons c rest ih =>
    obtain ⟨_, _, _, e⟩ := writeChar_frame h c s
    obtain ⟨r, f, l, e'⟩ := ih (s.writeChar h c)
    exact ⟨r, f, l, by rw [show s.writeChars h (c :: rest) = (s.writeChar h c).writeChars h rest from rfl, e', e]⟩

theorem writeText_eq (h : Int) (text : Text) (s : State) : s.writeText h text = s.writeChars h text := by
  obtain ⟨_, _, _, e⟩ := writeChars_frame h text s
  rw [State.writeText, e]

@[simp] theorem writeText_par (h : Int) (text : Text) (s : State) : (s.writeText h text).par = s.par := rfl
@[simp] theorem writeText_a (h : Int) (text : Text) (s : State) : (s.writeText h text).a = s.a := rfl
@[simp] theorem writeText_b (h : Int) (text : Text) (s : State) : (s.writeText h text).b = s.b := rfl
@[simp] theorem writeText_pc (h : Int) (text : Text) (s : State) : (s.writeText h text).pc = s.pc := rfl
@[simp] theorem writeText_sp (h : Int) (text : Text) (s : State) : (s.writeText h text).sp = s.sp := rfl
@[simp] theorem writeText_mem (h : Int) (text : Text) (s : State) : (s.writeText h text).mem = s.mem := rfl
@[simp] theorem writeText_labv (h : Int) (text : Text) (s : State) : (s.writeText h text).labv = s.labv := rfl
@[simp] theorem writeText_lc (h : Int) (text : Text) (s : State) : (s.writeText h text).lc = s.lc := rfl
@[simp] theorem writeText_cp (h : Int) (text : Text) (s : State) : (s.writeText h text).cp = s.cp := rfl
@[simp] theorem writeText_ch (h : Int) (text : Text) (s : State) : (s.writeText h text).ch = s.ch := rfl
@[simp] theorem writeText_cis (h : Int) (text : Text) (s : State) : (s.writeText h text).cis = s.cis := rfl
@[simp] theorem writeText_cos (h : Int) (text : Text) (s : State) : (s.writeText h text).cos = s.cos := rfl
@[simp] theorem writeText_run (h : Int) (text : Text) (s : State) : (s.writeText h text).run = s.run := rfl
@[simp] theorem writeText_slots (h : Int) (text : Text) (s : State) : (s.writeText h text).slots = s.slots := rfl
@[simp] theorem writeText_config (h : Int) (text : Text) (s : State) : (s.writeText h text).config = s.config := rfl
@[simp] theorem writeText_draws (h : Int) (text : Text) (s : State) : (s.writeText h text).draws = s.draws := rfl

/-! ## The fatal end -/

@[simp] theorem halt_par (cause : Cause) (s : State) : (s.halt cause).par = s.par := by simp [State.halt]
@[simp] theorem halt_a (cause : Cause) (s : State) : (s.halt cause).a = s.a := by simp [State.halt]
@[simp] theorem halt_b (cause : Cause) (s : State) : (s.halt cause).b = s.b := by simp [State.halt]
@[simp] theorem halt_pc (cause : Cause) (s : State) : (s.halt cause).pc = s.pc := by simp [State.halt]
@[simp] theorem halt_sp (cause : Cause) (s : State) : (s.halt cause).sp = s.sp := by simp [State.halt]
@[simp] theorem halt_mem (cause : Cause) (s : State) : (s.halt cause).mem = s.mem := by simp [State.halt]
@[simp] theorem halt_labv (cause : Cause) (s : State) : (s.halt cause).labv = s.labv := by simp [State.halt]
@[simp] theorem halt_lc (cause : Cause) (s : State) : (s.halt cause).lc = s.lc := by simp [State.halt]
@[simp] theorem halt_cp (cause : Cause) (s : State) : (s.halt cause).cp = s.cp := by simp [State.halt]
@[simp] theorem halt_ch (cause : Cause) (s : State) : (s.halt cause).ch = s.ch := by simp [State.halt]
@[simp] theorem halt_cis (cause : Cause) (s : State) : (s.halt cause).cis = s.cis := by simp [State.halt]
@[simp] theorem halt_cos (cause : Cause) (s : State) : (s.halt cause).cos = s.cos := by simp [State.halt]
@[simp] theorem halt_slots (cause : Cause) (s : State) : (s.halt cause).slots = s.slots := by simp [State.halt]
@[simp] theorem halt_config (cause : Cause) (s : State) : (s.halt cause).config = s.config := by simp [State.halt]
@[simp] theorem halt_run (cause : Cause) (s : State) : (s.halt cause).run = .halted cause := rfl

/-! ## Free output -/

@[simp] theorem freeOutput_par (s : State) : (freeOutput s).par = s.par := by simp [freeOutput]
@[simp] theorem freeOutput_a (s : State) : (freeOutput s).a = s.a := by simp [freeOutput]
@[simp] theorem freeOutput_b (s : State) : (freeOutput s).b = s.b := by simp [freeOutput]
@[simp] theorem freeOutput_pc (s : State) : (freeOutput s).pc = s.pc := by simp [freeOutput]
@[simp] theorem freeOutput_sp (s : State) : (freeOutput s).sp = s.sp := by simp [freeOutput]
@[simp] theorem freeOutput_mem (s : State) : (freeOutput s).mem = s.mem := by simp [freeOutput]
@[simp] theorem freeOutput_labv (s : State) : (freeOutput s).labv = s.labv := by simp [freeOutput]
@[simp] theorem freeOutput_lc (s : State) : (freeOutput s).lc = s.lc := by simp [freeOutput]
@[simp] theorem freeOutput_cp (s : State) : (freeOutput s).cp = s.cp := by simp [freeOutput]
@[simp] theorem freeOutput_ch (s : State) : (freeOutput s).ch = s.ch := by simp [freeOutput]
@[simp] theorem freeOutput_cis (s : State) : (freeOutput s).cis = s.cis := by simp [freeOutput]
@[simp] theorem freeOutput_cos (s : State) : (freeOutput s).cos = s.cos := by simp [freeOutput]
@[simp] theorem freeOutput_run (s : State) : (freeOutput s).run = s.run := by simp [freeOutput]
@[simp] theorem freeOutput_slots (s : State) : (freeOutput s).slots = s.slots := by simp [freeOutput]
@[simp] theorem freeOutput_config (s : State) : (freeOutput s).config = s.config := by simp [freeOutput]

/-! ## Reading a character -/

@[simp] theorem readChar_par (h : Int) (s : State) : (s.readChar h).2.par = s.par := by
  unfold State.readChar
  split <;> (try split) <;> (try split) <;> rfl
@[simp] theorem readChar_a (h : Int) (s : State) : (s.readChar h).2.a = s.a := by
  unfold State.readChar
  split <;> (try split) <;> (try split) <;> rfl
@[simp] theorem readChar_b (h : Int) (s : State) : (s.readChar h).2.b = s.b := by
  unfold State.readChar
  split <;> (try split) <;> (try split) <;> rfl
@[simp] theorem readChar_pc (h : Int) (s : State) : (s.readChar h).2.pc = s.pc := by
  unfold State.readChar
  split <;> (try split) <;> (try split) <;> rfl
@[simp] theorem readChar_sp (h : Int) (s : State) : (s.readChar h).2.sp = s.sp := by
  unfold State.readChar
  split <;> (try split) <;> (try split) <;> rfl
@[simp] theorem readChar_mem (h : Int) (s : State) : (s.readChar h).2.mem = s.mem := by
  unfold State.readChar
  split <;> (try split) <;> (try split) <;> rfl
@[simp] theorem readChar_labv (h : Int) (s : State) : (s.readChar h).2.labv = s.labv := by
  unfold State.readChar
  split <;> (try split) <;> (try split) <;> rfl
@[simp] theorem readChar_lc (h : Int) (s : State) : (s.readChar h).2.lc = s.lc := by
  unfold State.readChar
  split <;> (try split) <;> (try split) <;> rfl
@[simp] theorem readChar_cp (h : Int) (s : State) : (s.readChar h).2.cp = s.cp := by
  unfold State.readChar
  split <;> (try split) <;> (try split) <;> rfl
@[simp] theorem readChar_ch (h : Int) (s : State) : (s.readChar h).2.ch = s.ch := by
  unfold State.readChar
  split <;> (try split) <;> (try split) <;> rfl
@[simp] theorem readChar_cis (h : Int) (s : State) : (s.readChar h).2.cis = s.cis := by
  unfold State.readChar
  split <;> (try split) <;> (try split) <;> rfl
@[simp] theorem readChar_cos (h : Int) (s : State) : (s.readChar h).2.cos = s.cos := by
  unfold State.readChar
  split <;> (try split) <;> (try split) <;> rfl
@[simp] theorem readChar_run (h : Int) (s : State) : (s.readChar h).2.run = s.run := by
  unfold State.readChar
  split <;> (try split) <;> (try split) <;> rfl
@[simp] theorem readChar_slots (h : Int) (s : State) : (s.readChar h).2.slots = s.slots := by
  unfold State.readChar
  split <;> (try split) <;> (try split) <;> rfl
@[simp] theorem readChar_files (h : Int) (s : State) : (s.readChar h).2.files = s.files := by
  unfold State.readChar
  split <;> (try split) <;> (try split) <;> rfl
@[simp] theorem readChar_live (h : Int) (s : State) : (s.readChar h).2.live = s.live := by
  unfold State.readChar
  split <;> (try split) <;> (try split) <;> rfl
@[simp] theorem readChar_config (h : Int) (s : State) : (s.readChar h).2.config = s.config := by
  unfold State.readChar
  split <;> (try split) <;> (try split) <;> rfl
@[simp] theorem readChar_draws (h : Int) (s : State) : (s.readChar h).2.draws = s.draws := by
  unfold State.readChar
  split <;> (try split) <;> (try split) <;> rfl

/-! ## The next character -/

@[simp] theorem nextChar_par (s : State) : (nextChar s).par = s.par := by simp [nextChar]
@[simp] theorem nextChar_a (s : State) : (nextChar s).a = s.a := by simp [nextChar]
@[simp] theorem nextChar_b (s : State) : (nextChar s).b = s.b := by simp [nextChar]
@[simp] theorem nextChar_pc (s : State) : (nextChar s).pc = s.pc := by simp [nextChar]
@[simp] theorem nextChar_sp (s : State) : (nextChar s).sp = s.sp := by simp [nextChar]
@[simp] theorem nextChar_mem (s : State) : (nextChar s).mem = s.mem := by simp [nextChar]
@[simp] theorem nextChar_labv (s : State) : (nextChar s).labv = s.labv := by simp [nextChar]
@[simp] theorem nextChar_lc (s : State) : (nextChar s).lc = s.lc := by simp [nextChar]
@[simp] theorem nextChar_cp (s : State) : (nextChar s).cp = s.cp := by simp [nextChar]
@[simp] theorem nextChar_cis (s : State) : (nextChar s).cis = s.cis := by simp [nextChar]
@[simp] theorem nextChar_cos (s : State) : (nextChar s).cos = s.cos := by simp [nextChar]
@[simp] theorem nextChar_run (s : State) : (nextChar s).run = s.run := by simp [nextChar]
@[simp] theorem nextChar_slots (s : State) : (nextChar s).slots = s.slots := by simp [nextChar]
@[simp] theorem nextChar_files (s : State) : (nextChar s).files = s.files := by simp [nextChar]
@[simp] theorem nextChar_live (s : State) : (nextChar s).live = s.live := by simp [nextChar]
@[simp] theorem nextChar_config (s : State) : (nextChar s).config = s.config := by simp [nextChar]
@[simp] theorem nextChar_draws (s : State) : (nextChar s).draws = s.draws := by simp [nextChar]

/-! ## The start of execution -/

@[simp] theorem start_par (s : State) : (s.start).par = s.par := rfl
@[simp] theorem start_a (s : State) : (s.start).a = s.a := rfl
@[simp] theorem start_b (s : State) : (s.start).b = s.b := rfl
@[simp] theorem start_mem (s : State) : (s.start).mem = s.mem := rfl
@[simp] theorem start_labv (s : State) : (s.start).labv = s.labv := rfl
@[simp] theorem start_lc (s : State) : (s.start).lc = s.lc := rfl
@[simp] theorem start_cp (s : State) : (s.start).cp = s.cp := rfl
@[simp] theorem start_ch (s : State) : (s.start).ch = s.ch := rfl
@[simp] theorem start_cis (s : State) : (s.start).cis = s.cis := rfl
@[simp] theorem start_cos (s : State) : (s.start).cos = s.cos := rfl
@[simp] theorem start_slots (s : State) : (s.start).slots = s.slots := rfl
@[simp] theorem start_records (s : State) : (s.start).records = s.records := rfl
@[simp] theorem start_files (s : State) : (s.start).files = s.files := rfl
@[simp] theorem start_live (s : State) : (s.start).live = s.live := rfl
@[simp] theorem start_config (s : State) : (s.start).config = s.config := rfl
@[simp] theorem start_draws (s : State) : (s.start).draws = s.draws := rfl

/-! ## Moving a stream's position -/

@[simp] theorem leaveUnread_par (h : Int) (count : Nat) (s : State) : (s.leaveUnread h count).par = s.par := by
  unfold State.leaveUnread
  split <;> (try split) <;> rfl
@[simp] theorem leaveUnread_a (h : Int) (count : Nat) (s : State) : (s.leaveUnread h count).a = s.a := by
  unfold State.leaveUnread
  split <;> (try split) <;> rfl
@[simp] theorem leaveUnread_b (h : Int) (count : Nat) (s : State) : (s.leaveUnread h count).b = s.b := by
  unfold State.leaveUnread
  split <;> (try split) <;> rfl
@[simp] theorem leaveUnread_pc (h : Int) (count : Nat) (s : State) : (s.leaveUnread h count).pc = s.pc := by
  unfold State.leaveUnread
  split <;> (try split) <;> rfl
@[simp] theorem leaveUnread_sp (h : Int) (count : Nat) (s : State) : (s.leaveUnread h count).sp = s.sp := by
  unfold State.leaveUnread
  split <;> (try split) <;> rfl
@[simp] theorem leaveUnread_mem (h : Int) (count : Nat) (s : State) : (s.leaveUnread h count).mem = s.mem := by
  unfold State.leaveUnread
  split <;> (try split) <;> rfl
@[simp] theorem leaveUnread_labv (h : Int) (count : Nat) (s : State) : (s.leaveUnread h count).labv = s.labv := by
  unfold State.leaveUnread
  split <;> (try split) <;> rfl
@[simp] theorem leaveUnread_lc (h : Int) (count : Nat) (s : State) : (s.leaveUnread h count).lc = s.lc := by
  unfold State.leaveUnread
  split <;> (try split) <;> rfl
@[simp] theorem leaveUnread_cp (h : Int) (count : Nat) (s : State) : (s.leaveUnread h count).cp = s.cp := by
  unfold State.leaveUnread
  split <;> (try split) <;> rfl
@[simp] theorem leaveUnread_ch (h : Int) (count : Nat) (s : State) : (s.leaveUnread h count).ch = s.ch := by
  unfold State.leaveUnread
  split <;> (try split) <;> rfl
@[simp] theorem leaveUnread_cis (h : Int) (count : Nat) (s : State) : (s.leaveUnread h count).cis = s.cis := by
  unfold State.leaveUnread
  split <;> (try split) <;> rfl
@[simp] theorem leaveUnread_cos (h : Int) (count : Nat) (s : State) : (s.leaveUnread h count).cos = s.cos := by
  unfold State.leaveUnread
  split <;> (try split) <;> rfl
@[simp] theorem leaveUnread_run (h : Int) (count : Nat) (s : State) : (s.leaveUnread h count).run = s.run := by
  unfold State.leaveUnread
  split <;> (try split) <;> rfl
@[simp] theorem leaveUnread_slots (h : Int) (count : Nat) (s : State) : (s.leaveUnread h count).slots = s.slots := by
  unfold State.leaveUnread
  split <;> (try split) <;> rfl
@[simp] theorem leaveUnread_files (h : Int) (count : Nat) (s : State) : (s.leaveUnread h count).files = s.files := by
  unfold State.leaveUnread
  split <;> (try split) <;> rfl
@[simp] theorem leaveUnread_live (h : Int) (count : Nat) (s : State) : (s.leaveUnread h count).live = s.live := by
  unfold State.leaveUnread
  split <;> (try split) <;> rfl
@[simp] theorem leaveUnread_config (h : Int) (count : Nat) (s : State) : (s.leaveUnread h count).config = s.config := by
  unfold State.leaveUnread
  split <;> (try split) <;> rfl
@[simp] theorem leaveUnread_draws (h : Int) (count : Nat) (s : State) : (s.leaveUnread h count).draws = s.draws := by
  unfold State.leaveUnread
  split <;> (try split) <;> rfl

end Sys2Proof.Machine
end

