-- ==== Sys2Proof/Laws/Memory.lean ====
section
/-! SUPPORT. Memory: read after write, what a write leaves alone, the canonical form, and one spec lemma for each of
`readCell`, `writeCell`, `readByte`, `writeByte`. -/

namespace Sys2Proof.Machine

/-! ## The bytes of a cell -/

theorem getLsbD_joinBytes (lo hi : Byte) (i : Nat) :
    (joinBytes lo hi).getLsbD i = if i < 8 then lo.getLsbD i else hi.getLsbD (i - 8) := by
  unfold joinBytes
  exact BitVec.getLsbD_append (x := hi) (y := lo)

@[simp] theorem loByte_joinBytes (lo hi : Byte) : loByte (joinBytes lo hi) = lo := by
  apply BitVec.eq_of_getLsbD_eq
  intro i hi'
  simp [loByte, getLsbD_joinBytes, hi']

@[simp] theorem hiByte_joinBytes (lo hi : Byte) : hiByte (joinBytes lo hi) = hi := by
  apply BitVec.eq_of_getLsbD_eq
  intro i hi'
  simp [hiByte, getLsbD_joinBytes, hi']

@[simp] theorem joinBytes_lo_hi (w : Word) : joinBytes (loByte w) (hiByte w) = w := by
  apply BitVec.eq_of_getLsbD_eq
  intro i hi'
  rw [getLsbD_joinBytes]
  split
  · simp [loByte, *]
  · have h8 : i - 8 < 8 := by omega
    have e : 8 + (i - 8) = i := by omega
    simp [hiByte, h8, e]

/-! ## Sparse lists -/

section Sparse
variable {α : Type}

theorem lookupKey_insertKey_same (k : Nat) (v : α) (m : List (Nat × α)) : lookupKey k (insertKey k v m) = some v := by
  induction m with
  | nil => simp [insertKey, lookupKey]
  | cons e rest ih =>
    unfold insertKey
    split
    · simp [lookupKey]
    · split
      · simp [lookupKey]
      · simp [lookupKey, *]

theorem lookupKey_insertKey_other {k j : Nat} (h : j ≠ k) (v : α) (m : List (Nat × α)) :
    lookupKey j (insertKey k v m) = lookupKey j m := by
  have hk : ¬ k = j := fun e => h e.symm
  induction m with
  | nil => simp [insertKey, lookupKey, hk]
  | cons e rest ih =>
    unfold insertKey
    split
    · simp [lookupKey, hk]
    · split
      · rename_i _ he
        simp [lookupKey, hk, he]
      · simp [lookupKey, ih]

theorem lookupKey_eraseKey_same (k : Nat) (m : List (Nat × α)) : lookupKey k (eraseKey k m) = none := by
  induction m with
  | nil => rfl
  | cons e rest ih =>
    by_cases h : e.1 = k
    · simpa [eraseKey, List.filter_cons, h] using ih
    · simpa [eraseKey, List.filter_cons, h, lookupKey] using ih

theorem lookupKey_eraseKey_other {k j : Nat} (h : j ≠ k) (m : List (Nat × α)) : lookupKey j (eraseKey k m) = lookupKey j m := by
  induction m with
  | nil => rfl
  | cons e rest ih =>
    by_cases he : e.1 = k
    · have hj : ¬ e.1 = j := fun e' => h (e'.symm.trans he)
      simpa [eraseKey, List.filter_cons, he, lookupKey, he ▸ hj] using ih
    · by_cases hj : e.1 = j
      · simp [eraseKey, List.filter_cons, lookupKey, hj]
        simp [hj ▸ he, lookupKey, hj]
      · simpa [eraseKey, List.filter_cons, he, lookupKey, hj] using ih

theorem mem_insertKey {k : Nat} {v : α} {m : List (Nat × α)} {e : Nat × α} (h : e ∈ insertKey k v m) : e = (k, v) ∨ e ∈ m := by
  induction m with
  | nil => simpa [insertKey] using h
  | cons f rest ih =>
    unfold insertKey at h
    split at h
    · simpa using h
    · split at h
      · rcases List.mem_cons.mp h with h | h
        · exact .inl h
        · exact .inr (List.mem_cons_of_mem _ h)
      · rcases List.mem_cons.mp h with h | h
        · exact .inr (h ▸ List.mem_cons_self)
        · exact (ih h).imp id (List.mem_cons_of_mem _)

theorem insertKey_rising (k : Nat) (v : α) {m : List (Nat × α)} (h : m.Pairwise fun e f => e.1 < f.1) :
    (insertKey k v m).Pairwise fun e f => e.1 < f.1 := by
  induction m with
  | nil => simp [insertKey]
  | cons e rest ih =>
    have he := (List.pairwise_cons.mp h).1
    have hr := (List.pairwise_cons.mp h).2
    unfold insertKey
    split
    · rename_i hk
      refine List.pairwise_cons.mpr ⟨fun f hf => ?_, h⟩
      rcases List.mem_cons.mp hf with rfl | hf
      · exact hk
      · exact Nat.lt_trans hk (he f hf)
    · split
      · rename_i _ hk
        exact List.pairwise_cons.mpr ⟨fun f hf => hk ▸ he f hf, hr⟩
      · rename_i h1 h2
        refine List.pairwise_cons.mpr ⟨fun f hf => ?_, ih hr⟩
        rcases mem_insertKey hf with rfl | hf
        · simp only; omega
        · exact he f hf

theorem eraseKey_rising (k : Nat) {m : List (Nat × α)} (h : m.Pairwise fun e f => e.1 < f.1) :
    (eraseKey k m).Pairwise fun e f => e.1 < f.1 := h.filter _

theorem mem_eraseKey {k : Nat} {m : List (Nat × α)} {e : Nat × α} (h : e ∈ eraseKey k m) : e ∈ m := (List.mem_filter.mp h).1

end Sparse

/-! ## One byte -/

theorem getByteAt_putByteAt_same (p : Params) (m : Memory) (k : Nat) (v : Byte) : getByteAt p (putByteAt p m k v) k = some v := by
  unfold getByteAt
  by_cases hr : resetByte p k = some v
  · simp [putByteAt, hr, lookupKey_eraseKey_same]
  · simp [putByteAt, hr, lookupKey_insertKey_same]

theorem getByteAt_putByteAt_other (p : Params) (m : Memory) {k j : Nat} (h : j ≠ k) (v : Byte) :
    getByteAt p (putByteAt p m k v) j = getByteAt p m j := by
  unfold getByteAt
  by_cases hr : resetByte p k = some v
  · simp [putByteAt, hr, lookupKey_eraseKey_other h]
  · simp [putByteAt, hr, lookupKey_insertKey_other h]

/-- Writing a byte of a valid cell keeps the canonical form. -/
theorem putByteAt_wf {p : Params} {m : Memory} (h : Memory.wf p m) (k : Nat) (v : Byte) (hk : ((k / 2 : Nat) : Int) < p.addrLimit) :
    Memory.wf p (putByteAt p m k v) := by
  obtain ⟨h1, h2, h3⟩ := h
  unfold putByteAt
  split
  · exact ⟨eraseKey_rising k h1, fun e he => h2 e (mem_eraseKey he), fun e he => h3 e (mem_eraseKey he)⟩
  · refine ⟨insertKey_rising k v h1, fun e he => ?_, fun e he => ?_⟩
    · rcases mem_insertKey he with rfl | he
      · exact hk
      · exact h2 e he
    · rcases mem_insertKey he with rfl | he
      · assumption
      · exact h3 e he

@[simp] theorem peekByte_pokeByte_same (k : Nat) (v : Byte) (s : State) : (s.pokeByte k v).peekByte k = some v :=
  getByteAt_putByteAt_same ..

theorem peekByte_pokeByte_other {k j : Nat} (h : j ≠ k) (v : Byte) (s : State) : (s.pokeByte k v).peekByte j = s.peekByte j :=
  getByteAt_putByteAt_other _ _ h _

/-! ## One cell -/

@[simp] theorem peekCell_pokeCell_same (c : Nat) (w : Word) (s : State) : (s.pokeCell c w).peekCell c = some w := by
  simp only [State.peekCell, State.pokeCell, peekByte_pokeByte_same]
  rw [peekByte_pokeByte_other (by omega), peekByte_pokeByte_same]
  simp

theorem peekByte_pokeCell_other {c b : Nat} (h : b / 2 ≠ c) (w : Word) (s : State) : (s.pokeCell c w).peekByte b = s.peekByte b := by
  unfold State.pokeCell
  rw [peekByte_pokeByte_other (by omega), peekByte_pokeByte_other (by omega)]

theorem peekCell_pokeCell_other {c d : Nat} (h : d ≠ c) (w : Word) (s : State) : (s.pokeCell c w).peekCell d = s.peekCell d := by
  unfold State.peekCell
  rw [peekByte_pokeCell_other (by omega), peekByte_pokeCell_other (by omega)]

theorem pokeCell_wf {s : State} (h : Memory.wf s.par s.mem) (c : Nat) (w : Word) (hc : (c : Int) < s.par.addrLimit) :
    Memory.wf s.par (s.pokeCell c w).mem := by
  unfold State.pokeCell
  exact putByteAt_wf (putByteAt_wf h _ _ (by omega)) _ _ (by omega)

/-- What is peeked depends on the parameters and the memory alone. -/
theorem peekByte_congr {s t : State} (hp : t.par = s.par) (hm : t.mem = s.mem) (b : Nat) : t.peekByte b = s.peekByte b := by
  simp [State.peekByte, hp, hm]

theorem peekCell_congr {s t : State} (hp : t.par = s.par) (hm : t.mem = s.mem) (c : Nat) : t.peekCell c = s.peekCell c := by
  simp [State.peekCell, peekByte_congr hp hm]

@[simp] theorem peekCell_draws (s : State) (n c : Nat) : State.peekCell { s with draws := n } c = s.peekCell c := rfl

@[simp] theorem peekByte_draws (s : State) (n b : Nat) : State.peekByte { s with draws := n } b = s.peekByte b := rfl

/-! ## Reading -/

/-- A read of a byte changes the draw counter at most. -/
theorem takeByte_spec (b : Nat) (s : State) : ∃ v n, s.takeByte b = (v, { s with draws := n }) := by
  unfold State.takeByte
  split
  · exact ⟨_, s.draws, rfl⟩
  · exact ⟨_, s.draws + 1, rfl⟩

theorem takeByte_known {b : Nat} {v : Byte} {s : State} (h : s.peekByte b = some v) : s.takeByte b = (v, s) := by
  simp [State.takeByte, h]

/-- A read of a valid cell answers a pattern and changes the draw counter at most. -/
theorem readCell_valid {a : Int} {s : State} (h : validCell s.par a) : ∃ w n, readCell a s = .ok w { s with draws := n } := by
  obtain ⟨v1, n1, h1⟩ := takeByte_spec (2 * a.toNat) s
  obtain ⟨v2, n2, h2⟩ := takeByte_spec (2 * a.toNat + 1) { s with draws := n1 }
  exact ⟨joinBytes v1 v2, n2, by simp [readCell, h, h1, h2]⟩

/-- A read of a cell that holds a value answers it and changes nothing. -/
theorem readCell_known {a : Int} {w : Word} {s : State} (h : validCell s.par a) (hw : s.peekCell a.toNat = some w) :
    readCell a s = .ok w s := by
  unfold State.peekCell at hw
  split at hw
  · rename_i lo hi h1 h2
    simp [readCell, h, takeByte_known h1, takeByte_known h2, ← Option.some.inj hw]
  · cases hw

theorem readCell_invalid {a : Int} {s : State} (h : ¬ validCell s.par a) : readCell a s = addressFault a s := if_neg h

/-- All a read of a cell can do. -/
theorem readCell_cases (a : Int) (s : State) :
    (validCell s.par a ∧ ∃ w n, readCell a s = .ok w { s with draws := n } ∧ ∀ v, s.peekCell a.toNat = some v → w = v ∧ n = s.draws) ∨
    (¬ validCell s.par a ∧ readCell a s = addressFault a s) := by
  by_cases h : validCell s.par a
  · refine .inl ⟨h, ?_⟩
    cases hv : s.peekCell a.toNat with
    | none =>
      obtain ⟨w, n, hr⟩ := readCell_valid h
      exact ⟨w, n, hr, by simp⟩
    | some v => exact ⟨v, s.draws, readCell_known h hv, by simp⟩
  · exact .inr ⟨h, readCell_invalid h⟩

theorem readByte_valid {b : Int} {s : State} (h : validCell s.par (b / 2)) : ∃ v n, readByte b s = .ok v { s with draws := n } := by
  obtain ⟨v, n, h1⟩ := takeByte_spec b.toNat s
  exact ⟨v, n, by simp [readByte, h, h1]⟩

theorem readByte_known {b : Int} {v : Byte} {s : State} (h : validCell s.par (b / 2)) (hv : s.peekByte b.toNat = some v) :
    readByte b s = .ok v s := by
  simp [readByte, h, takeByte_known hv]

theorem readByte_invalid {b : Int} {s : State} (h : ¬ validCell s.par (b / 2)) : readByte b s = addressFault b s := if_neg h

/-- All a read of a byte can do. -/
theorem readByte_cases (b : Int) (s : State) :
    (validCell s.par (b / 2) ∧ ∃ v n, readByte b s = .ok v { s with draws := n }) ∨
    (¬ validCell s.par (b / 2) ∧ readByte b s = addressFault b s) := by
  by_cases h : validCell s.par (b / 2)
  · exact .inl ⟨h, readByte_valid h⟩
  · exact .inr ⟨h, readByte_invalid h⟩

/-! ## Writing -/

theorem writeCell_valid {a : Int} (v : Int) {s : State} (h : validCell s.par a) :
    writeCell a v s = .ok () (s.pokeCell a.toNat (trunc16 v)) := if_pos h

theorem writeCell_invalid {a : Int} (v : Int) {s : State} (h : ¬ validCell s.par a) : writeCell a v s = addressFault a s := if_neg h

theorem otherByte_ne (b : Nat) : otherByte b ≠ b := by
  unfold otherByte
  split <;> omega

theorem otherByte_div (b : Nat) : otherByte b / 2 = b / 2 := by
  unfold otherByte
  split <;> omega

/-- A byte of a cell is the one named or the other one. -/
theorem eq_otherByte {b k : Nat} (h : k / 2 = b / 2) (hk : k ≠ b) : k = otherByte b := by
  unfold otherByte
  split <;> omega

theorem writeByte_valid {b : Int} (v : Int) {s : State} (h : validCell s.par (b / 2)) :
    ∃ x n, s.takeByte (otherByte b.toNat) = (x, { s with draws := n }) ∧ writeByte b v s =
      .ok () (State.pokeByte b.toNat (trunc8 v) (State.pokeByte (otherByte b.toNat) x { s with draws := n })) := by
  obtain ⟨x, n, hx⟩ := takeByte_spec (otherByte b.toNat) s
  exact ⟨x, n, hx, by simp [writeByte, h, hx]⟩

theorem writeByte_invalid {b : Int} (v : Int) {s : State} (h : ¬ validCell s.par (b / 2)) : writeByte b v s = addressFault b s :=
  if_neg h

/-- All a write of a valid cell does: memory alone changes, the cell holds the value, every byte of the others is as before. -/
theorem writeCell_spec {a : Int} (v : Int) {s : State} (h : validCell s.par a) :
    ∃ m, writeCell a v s = .ok () { s with mem := m } ∧ State.peekCell { s with mem := m } a.toNat = some (trunc16 v) ∧
      ∀ b, b / 2 ≠ a.toNat → State.peekByte { s with mem := m } b = s.peekByte b :=
  ⟨_, writeCell_valid v h, peekCell_pokeCell_same .., fun _ hb => peekByte_pokeCell_other hb _ s⟩

/-- A cell that holds a pattern holds its two bytes. -/
theorem peekByte_of_peekCell {s : State} {c : Nat} {w : Word} (h : s.peekCell c = some w) :
    s.peekByte (2 * c) = some (loByte w) ∧ s.peekByte (2 * c + 1) = some (hiByte w) := by
  unfold State.peekCell at h
  split at h
  · rename_i lo hi h1 h2
    rw [← Option.some.inj h]
    simp [h1, h2]
  · cases h

/-- A cell both of whose bytes hold a value holds a pattern. -/
theorem peekCell_isSome {s : State} {c : Nat} (h1 : (s.peekByte (2 * c)).isSome = true) (h2 : (s.peekByte (2 * c + 1)).isSome = true) :
    (s.peekCell c).isSome = true := by
  obtain ⟨x, hx⟩ := Option.isSome_iff_exists.mp h1
  obtain ⟨y, hy⟩ := Option.isSome_iff_exists.mp h2
  simp [State.peekCell, hx, hy]

/-- All a write of a byte of a valid cell does: memory and the draw counter alone change, the byte holds the value, the cell holds a
pattern, and so does every byte that held a value before; the bytes of other cells are as before. -/
theorem writeByte_spec {b : Int} (v : Int) {s : State} (h : validCell s.par (b / 2)) :
    ∃ m n, writeByte b v s = .ok () { s with mem := m, draws := n } ∧
      State.peekByte { s with mem := m, draws := n } b.toNat = some (trunc8 v) ∧
      (State.peekCell { s with mem := m, draws := n } (b / 2).toNat).isSome = true ∧
      (∀ k, k / 2 ≠ (b / 2).toNat → State.peekByte { s with mem := m, draws := n } k = s.peekByte k) ∧
      ∀ k y, k ≠ b.toNat → s.peekByte k = some y → State.peekByte { s with mem := m, draws := n } k = some y := by
  obtain ⟨x, n, hx, hw⟩ := writeByte_valid v h
  have hb := h.1
  have hdiv : b.toNat / 2 = (b / 2).toNat := by omega
  let t := State.pokeByte b.toNat (trunc8 v) (State.pokeByte (otherByte b.toNat) x { s with draws := n })
  have hb1 : t.peekByte b.toNat = some (trunc8 v) := peekByte_pokeByte_same ..
  have hb2 : t.peekByte (otherByte b.toNat) = some x := by
    rw [peekByte_pokeByte_other (otherByte_ne _), peekByte_pokeByte_same]
  have hboth : ∀ k, k / 2 = b.toNat / 2 → (t.peekByte k).isSome = true := by
    intro k hk
    by_cases he : k = b.toNat
    · rw [he, hb1]
      rfl
    · rw [eq_otherByte hk he, hb2]
      rfl
  have hfar : ∀ k, k / 2 ≠ (b / 2).toNat → t.peekByte k = s.peekByte k := by
    intro k hk
    have := otherByte_div b.toNat
    rw [peekByte_pokeByte_other (by rintro rfl; omega), peekByte_pokeByte_other (by rintro rfl; omega)]
    rfl
  refine ⟨_, n, hw, hb1, peekCell_isSome (hboth _ (by omega)) (hboth _ (by omega)), hfar, fun k y hk hy => ?_⟩
  by_cases hc : k / 2 = (b / 2).toNat
  · obtain rfl := eq_otherByte (hc.trans hdiv.symm) hk
    rw [takeByte_known hy] at hx
    exact hb2.trans (congrArg some (congrArg Prod.fst hx).symm)
  · exact (hfar k hc).trans hy

/-- A write of a byte whose cell's other byte holds a value draws nothing. -/
theorem writeByte_known {b : Int} (v : Int) {x : Byte} {s : State} (h : validCell s.par (b / 2))
    (hx : s.peekByte (otherByte b.toNat) = some x) :
    writeByte b v s = .ok () ((s.pokeByte (otherByte b.toNat) x).pokeByte b.toNat (trunc8 v)) := by
  simp [writeByte, h, takeByte_known hx]

/-- A cell whose two bytes read the same holds the same. -/
theorem peekCell_eq_of_bytes {s t : State} {c : Nat} (h : ∀ b, b / 2 = c → t.peekByte b = s.peekByte b) :
    t.peekCell c = s.peekCell c := by
  unfold State.peekCell
  rw [h _ (by omega), h _ (by omega)]

/-- A write of a cell keeps the canonical form of memory. -/
theorem writeCell_wf {a v : Int} {s t : State} (h : Memory.wf s.par s.mem) (hw : writeCell a v s = .ok () t) :
    Memory.wf t.par t.mem := by
  unfold writeCell at hw
  split at hw
  · rename_i hv
    cases hw
    exact pokeCell_wf h _ _ (by have := hv.1; have := hv.2; omega)
  · cases hw

/-- A write of a byte keeps the canonical form of memory. -/
theorem writeByte_wf {b v : Int} {s t : State} (h : Memory.wf s.par s.mem) (hw : writeByte b v s = .ok () t) :
    Memory.wf t.par t.mem := by
  by_cases hv : validCell s.par (b / 2)
  · obtain ⟨x, n, _, hr⟩ := writeByte_valid v hv
    rw [hr] at hw
    cases hw
    have h1 := hv.1
    have h2 := hv.2
    exact putByteAt_wf (putByteAt_wf h _ _ (by rw [otherByte_div]; omega)) _ _ (by omega)
  · rw [writeByte_invalid _ hv] at hw
    cases hw

/-! ## Sequencing -/

@[simp] theorem bind_ok {α β : Type} (v : α) (s : State) (k : α → State → Res β) : (Res.ok v s).bind k = k v s := rfl

@[simp] theorem bind_ended {α β : Type} (s : State) (k : α → State → Res β) : (Res.ended s).bind k = .ended s := rfl

@[simp] theorem bind_fault {α β : Type} (f : Fault) (k : α → State → Res β) : (Res.fault f).bind k = .fault f := rfl

@[simp] theorem bind_refused {α β : Type} (q : Refusal) (k : α → State → Res β) : (Res.refused q).bind k = .refused q := rfl

@[simp] theorem bind_addressFault {α β : Type} (a : Int) (s : State) (k : α → State → Res β) :
    (addressFault a s : Res α).bind k = addressFault a s := rfl

@[simp] theorem andThen_ok {α : Type} (v : α) (s : State) (k : α → State → Host.Outcome State Fault Refusal) :
    (Res.ok v s).andThen k = k v s := rfl

@[simp] theorem andThen_ended {α : Type} (s : State) (k : α → State → Host.Outcome State Fault Refusal) :
    (Res.ended s : Res α).andThen k = .next s := rfl

@[simp] theorem andThen_fault {α : Type} (f : Fault) (k : α → State → Host.Outcome State Fault Refusal) :
    (Res.fault f : Res α).andThen k = .fault f := rfl

@[simp] theorem andThen_refused {α : Type} (q : Refusal) (k : α → State → Host.Outcome State Fault Refusal) :
    (Res.refused q : Res α).andThen k = .refused q := rfl

@[simp] theorem andThen_addressFault {α : Type} (a : Int) (s : State) (k : α → State → Host.Outcome State Fault Refusal) :
    (addressFault a s : Res α).andThen k =
      .fault (.addressOutOfRange a { s with run := .halted (.addressOutOfRange a) }) := rfl

/-- A sequence that goes on: its first part does. -/
theorem bind_eq_ok {α β : Type} {r : Res α} {k : α → State → Res β} {v : β} {t : State} (h : r.bind k = .ok v t) :
    ∃ u s, r = .ok u s ∧ k u s = .ok v t := by
  cases r with
  | ok u s => exact ⟨u, s, rfl, h⟩
  | ended s => cases h
  | fault f => cases h
  | refused q => cases h

/-- A meaning that answers a next state: its first part goes on, or ends the run. -/
theorem andThen_eq_next {α : Type} {r : Res α} {k : α → State → Host.Outcome State Fault Refusal} {t : State}
    (h : r.andThen k = .next t) : (∃ u s, r = .ok u s ∧ k u s = .next t) ∨ r = .ended t := by
  cases r with
  | ok u s => exact .inl ⟨u, s, rfl, h⟩
  | ended s => exact .inr (by cases h; rfl)
  | fault f => cases h
  | refused q => cases h

end Sys2Proof.Machine
end

