-- ==== Sys2Proof/Laws/Operands.lean ====
section
/-! SUPPORT. One spec lemma for each of: the effective operand, cells known to hold patterns, the fetch of an instruction that is
in memory, and the arguments of a service. -/

namespace Sys2Proof.Machine

/-! ## Words and integers -/

@[simp] theorem trunc16_sext16 (w : Word) : trunc16 (sext16 w) = w := BitVec.ofInt_toInt

theorem sext16_trunc16 (z : Int) : sext16 (trunc16 z) = z.bmod 65536 := BitVec.toInt_ofInt ..

/-- A value in the signed range survives a round trip through a cell. -/
theorem sext16_trunc16_of_range {z : Int} (h1 : -32768 ≤ z) (h2 : z ≤ 32767) : sext16 (trunc16 z) = z := by
  rw [sext16_trunc16, Int.bmod_def]
  split <;> omega

theorem sext16_range (w : Word) : -32768 ≤ sext16 w ∧ sext16 w ≤ 32767 := by
  have h1 := BitVec.two_mul_toInt_lt (x := w)
  have h2 := BitVec.le_two_mul_toInt (x := w)
  unfold sext16
  omega

theorem sext16_inj {v w : Word} : sext16 v = sext16 w ↔ v = w := BitVec.toInt_inj

theorem isTruth_iff (w : Word) : isTruth w = true ↔ w ≠ 0 := by
  rw [isTruth, decide_eq_true_eq, show (0 : Int) = sext16 0 from rfl, Ne, sext16_inj]

/-! ## The effective operand -/

theorem operand_direct {op : Operand} (h : op.indirect = false) (s : State) : operand op s = .ok (operandBase op s) s := by
  simp [operand, h]

/-- An indirect operand through a cell that holds a value. -/
theorem operand_known {op : Operand} {s : State} {w : Word} (h : op.indirect = true) (hv : validCell s.par (operandBase op s))
    (hw : s.peekCell (operandBase op s).toNat = some w) : operand op s = .ok (sext16 w) s := by
  simp [operand, h, readCell_known hv hw]

/-- An operand that is ready is formed, and the draw counter alone may move. -/
theorem operand_ready {op : Operand} {s : State} (h : operandReady op s) : ∃ ea n, operand op s = .ok ea { s with draws := n } := by
  cases hi : op.indirect with
  | false => exact ⟨_, s.draws, operand_direct hi s⟩
  | true =>
    obtain ⟨w, n, hr⟩ := readCell_valid (h hi)
    exact ⟨sext16 w, n, by simp [operand, hi, hr]⟩

/-- An operand that is not ready faults at the address it would be read from. -/
theorem operand_notReady {op : Operand} {s : State} (h : ¬ operandReady op s) :
    operand op s = addressFault (operandBase op s) s := by
  obtain ⟨hi, hv⟩ := Classical.not_imp.mp h
  simp [operand, hi, readCell_invalid hv]

/-- Reading an operand changes the draw counter at most. -/
theorem operand_eq_ok {op : Operand} {s t : State} {ea : Int} (h : operand op s = .ok ea t) : ∃ n, t = { s with draws := n } := by
  by_cases hr : operandReady op s
  · obtain ⟨ea', n, ho⟩ := operand_ready hr
    rw [ho] at h
    cases h
    exact ⟨n, rfl⟩
  · rw [operand_notReady hr] at h
    cases h

/-! ## Cells known to hold patterns -/

theorem holdsCells_cons {s : State} {c : Int} {w : Word} {rest : List Word} (h : holdsCells s c (w :: rest) = true) :
    validCell s.par c ∧ s.peekCell c.toNat = some w ∧ holdsCells s (c + 1) rest = true := by
  simpa [holdsCells, and_assoc] using h

theorem holdsCells_append {s : State} {c : Int} {l m : List Word} (h : holdsCells s c (l ++ m) = true) :
    holdsCells s c l = true ∧ holdsCells s (c + l.length) m = true := by
  induction l generalizing c with
  | nil => exact ⟨rfl, by simpa using h⟩
  | cons w rest ih =>
    obtain ⟨h1, h2, h3⟩ := holdsCells_cons h
    obtain ⟨h4, h5⟩ := ih h3
    refine ⟨by simp [holdsCells, h1, h2, h4], ?_⟩
    rw [List.length_cons, show c + ((rest.length + 1 : Nat) : Int) = c + 1 + (rest.length : Int) by omega]
    exact h5

/-- The cells read the same in a state with the same parameters and memory. -/
theorem holdsCells_congr {s t : State} (hp : t.par = s.par) (hm : t.mem = s.mem) (c : Int) (cells : List Word) :
    holdsCells t c cells = holdsCells s c cells := by
  induction cells generalizing c with
  | nil => rfl
  | cons w rest ih => simp only [holdsCells, hp, peekCell_congr hp hm, ih]

@[simp] theorem holdsCells_draws (s : State) (n : Nat) (c : Int) (cells : List Word) :
    holdsCells { s with draws := n } c cells = holdsCells s c cells :=
  holdsCells_congr (s := s) (t := { s with draws := n }) rfl rfl c cells

theorem readCell_holds {s : State} {c : Int} {w : Word} {rest : List Word} (h : holdsCells s c (w :: rest) = true) :
    readCell c s = .ok w s := by
  obtain ⟨h1, h2, _⟩ := holdsCells_cons h
  exact readCell_known h1 h2

/-! ## Fetch -/

theorem fetchCell_known {s : State} {w : Word} (h : validCell s.par s.pc) (hw : s.peekCell s.pc.toNat = some w) :
    fetchCell s = .ok w { s with pc := s.pc + 1 } := by
  simp [fetchCell, readCell_known h hw]

theorem fetchCell_valid {s : State} (h : validCell s.par s.pc) :
    ∃ w n, fetchCell s = .ok w { s with pc := s.pc + 1, draws := n } := by
  obtain ⟨w, n, hr⟩ := readCell_valid h
  exact ⟨w, n, by simp [fetchCell, hr]⟩

theorem fetchCell_invalid {s : State} (h : ¬ validCell s.par s.pc) : fetchCell s = addressFault s.pc s := by
  simp [fetchCell, readCell_invalid h]

/-- A one-cell instruction in memory is fetched. -/
theorem fetch_one {s : State} {w : Word} (h : holdsCells s s.pc [w] = true) (hd : extendedBit w = false) :
    fetch s = .ok (decodeWord w 0) { s with pc := s.pc + 1 } := by
  obtain ⟨h1, h2, _⟩ := holdsCells_cons h
  simp [fetch, fetchCell_known h1 h2, hd]

/-- A two-cell instruction in memory is fetched. -/
theorem fetch_two {s : State} {w e : Word} (h : holdsCells s s.pc [w, e] = true) (hd : extendedBit w = true) :
    fetch s = .ok (decodeWord w e) { s with pc := s.pc + 2 } := by
  obtain ⟨h1, h2, h3⟩ := holdsCells_cons h
  obtain ⟨h4, h5, _⟩ := holdsCells_cons h3
  have hf : fetchCell { s with pc := s.pc + 1 } = .ok e { s with pc := s.pc + 1 + 1 } := fetchCell_known h4 h5
  simp [fetch, fetchCell_known h1 h2, hd, hf, add_assoc]

/-! ## Services -/

theorem argument_known {v : Int} {i : Nat} {s : State} {w : Word} (h : validCell s.par (v + i))
    (hw : s.peekCell (v + i).toNat = some w) : argument v i s = .ok (sext16 w) s := by
  simp [argument, readCell_known h hw]

/-- A `K` that calls a service runs it. -/
theorem execK_service {service : Service} {op : Operand} {v : Int} {s t : State} (h : callsService service op v s t) :
    exec (.k op) s = runService service v t := by
  obtain ⟨ho, hlt, hs⟩ := h
  obtain ⟨n, rfl⟩ := operand_eq_ok ho
  show execK op s = _
  have hv : s.sp + (v - s.sp - 2) + 2 = v := by omega
  simp [execK, ho, hlt, sysCall, hs, hv]

end Sys2Proof.Machine
end

