-- ==== Sys2Proof/Laws/Keeps.lean ====
section
/-! SUPPORT. What a step keeps, said once: a property of states that is closed under the elementary updates is kept by every
operation, every service and every instruction. The whole-machine rules (what the engine never writes, the invariants, the ways
a run ends) are each an instance, with the property chosen for it. -/

namespace Sys2Proof.Machine

/-- The property holds of the state an operation leaves, where it leaves one. -/
def Res.Holds {α : Type} (P : State → Prop) (r : Res α) : Prop :=
  match r with
  | .ok _ s => P s
  | .ended s => P s
  | .fault _ => True
  | .refused _ => True

/-- The property holds of the next state, where there is one. -/
def OutcomeHolds (P : State → Prop) (o : Host.Outcome State Fault Refusal) : Prop :=
  match o with
  | .next s => P s
  | .fault _ => True
  | .refused _ => True

theorem holds_next {P : State → Prop} {o : Host.Outcome State Fault Refusal} {t : State} (h : OutcomeHolds P o) (ho : o = .next t) :
    P t := by
  rw [ho] at h; exact h

theorem holds_bind {α β : Type} {P : State → Prop} {r : Res α} {k : α → State → Res β} (h : r.Holds P)
    (hk : ∀ v s, P s → (k v s).Holds P) : (r.bind k).Holds P := by
  cases r with
  | ok v s => exact hk v s h
  | ended s => exact h
  | fault f => trivial
  | refused q => trivial

theorem holds_andThen {α : Type} {P : State → Prop} {r : Res α} {k : α → State → Host.Outcome State Fault Refusal} (h : r.Holds P)
    (hk : ∀ v s, P s → OutcomeHolds P (k v s)) : OutcomeHolds P (r.andThen k) := by
  cases r with
  | ok v s => exact hk v s h
  | ended s => exact h
  | fault f => trivial
  | refused q => trivial

/-- Kept by what reads of memory, the ALU and the streams of the host do to everything but memory, the control registers, the
current handles and the phase. -/
structure QuietClosed (P : State → Prop) : Prop where
  draws : ∀ s n, P s → P { s with draws := n }
  a : ∀ s w, P s → P { s with a := w }
  b : ∀ s w, P s → P { s with b := w }
  writeChar : ∀ s h c, P s → P (s.writeChar h c)
  readChar : ∀ s h, P s → P (s.readChar h).2
  leaveUnread : ∀ s h n, P s → P (s.leaveUnread h n)
  openInput : ∀ s name, P s → P (s.openInput name).2
  openOutput : ∀ s name, P s → P (s.openOutput name).2

/-- Kept by a change of the current input handle. -/
def CisClosed (P : State → Prop) : Prop := ∀ s h, P s → P { s with cis := h }

/-- Kept by a change of the current output handle. -/
def CosClosed (P : State → Prop) : Prop := ∀ s h, P s → P { s with cos := h }

/-- Kept by a normal end of the run. -/
def StopClosed (P : State → Prop) : Prop := ∀ s w, P s → P { s with run := .stopped w }

/-- Kept by all the engine does to everything but memory, `PC` and `SP`, the fatal ends apart. -/
structure EngineClosed (P : State → Prop) : Prop extends QuietClosed P where
  cis : CisClosed P
  cos : CosClosed P
  stop : StopClosed P

/-- Kept by a write of a byte of a valid cell. -/
def PokeClosed (P : State → Prop) : Prop :=
  ∀ s k v, ((k / 2 : Nat) : Int) < s.par.addrLimit → P s → P (s.pokeByte k v)

/-- Kept by a change of `PC` and `SP`. -/
def ControlClosed (P : State → Prop) : Prop :=
  ∀ s pc sp, P s → P { s with pc := pc, sp := sp }

/-- Kept by the two fatal conditions of a running machine (R262). -/
structure HaltClosed (P : State → Prop) : Prop where
  unknownCall : ∀ s n, P s → P (s.halt (.unknownCall n))
  unknownSelector : ∀ s k, P s → P (s.halt (.unknownSelector k))

section Keeps
variable {P : State → Prop}

/-! ## Operations -/

theorem readCell_keeps (hq : QuietClosed P) {a : Int} {s : State} (h : P s) : (readCell a s).Holds P := by
  rcases readCell_cases a s with ⟨_, w, n, hr, _⟩ | ⟨_, hr⟩ <;> rw [hr]
  · exact hq.draws s n h
  · trivial

theorem readByte_keeps (hq : QuietClosed P) {b : Int} {s : State} (h : P s) : (readByte b s).Holds P := by
  rcases readByte_cases b s with ⟨_, w, n, hr⟩ | ⟨_, hr⟩ <;> rw [hr]
  · exact hq.draws s n h
  · trivial

theorem pokeCell_keeps (hp : PokeClosed P) {c : Nat} {w : Word} {s : State} (hc : (c : Int) < s.par.addrLimit) (h : P s) :
    P (s.pokeCell c w) := by
  refine hp _ _ _ ?_ (hp _ _ _ ?_ h)
  · simp only [pokeByte_par]; omega
  · omega

theorem writeCell_keeps (hp : PokeClosed P) {a v : Int} {s : State} (h : P s) : (writeCell a v s).Holds P := by
  unfold writeCell
  split
  · rename_i hv
    exact pokeCell_keeps hp (by have := hv.1; have := hv.2; omega) h
  · trivial

theorem writeByte_keeps (hq : QuietClosed P) (hp : PokeClosed P) {b v : Int} {s : State} (h : P s) : (writeByte b v s).Holds P := by
  by_cases hv : validCell s.par (b / 2)
  · obtain ⟨x, n, _, hr⟩ := writeByte_valid v hv
    rw [hr]
    have h1 := hv.1
    have h2 := hv.2
    refine hp _ _ _ ?_ (hp _ _ _ ?_ (hq.draws s n h))
    · simp only [pokeByte_par]
      omega
    · rw [otherByte_div]
      show _ < s.par.addrLimit
      omega
  · rw [writeByte_invalid _ hv]
    trivial

theorem operand_keeps (hq : QuietClosed P) {op : Operand} {s : State} (h : P s) : (operand op s).Holds P := by
  unfold operand
  split
  · exact holds_bind (readCell_keeps hq h) fun _ _ h => h
  · exact h

theorem argument_keeps (hq : QuietClosed P) {v : Int} {i : Nat} {s : State} (h : P s) : (argument v i s).Holds P :=
  holds_bind (readCell_keeps hq h) fun _ _ h => h

theorem anyA_keeps (hq : QuietClosed P) {s : State} (h : P s) : P s.anyA := hq.draws _ _ (hq.a s (Config.anyWord s.draws) h)

theorem anyB_keeps (hq : QuietClosed P) {s : State} (h : P s) : P s.anyB := hq.draws _ _ (hq.b s (Config.anyWord s.draws) h)

theorem serviceDone_keeps (hq : QuietClosed P) {s : State} (h : P s) : P (serviceDone s) := anyB_keeps hq (anyA_keeps hq h)

theorem serviceResult_keeps (hq : QuietClosed P) {z : Int} {s : State} (h : P s) : P (serviceResult z s) :=
  anyB_keeps hq (hq.a s _ h)

theorem writeText_keeps (hq : QuietClosed P) {h : Int} {text : Text} {s : State} (hs : P s) : P (s.writeText h text) := by
  rw [writeText_eq]
  induction text generalizing s with
  | nil => exact hs
  | cons c rest ih => exact ih (hq.writeChar s h c hs)

theorem freeOutput_keeps (hq : QuietClosed P) {s : State} (h : P s) : P (freeOutput s) := writeText_keeps hq (hq.draws s _ h)

theorem readBytes_keeps (hq : QuietClosed P) {b : Int} {n : Nat} {s : State} (h : P s) : (readBytes b n s).Holds P := by
  induction n generalizing b s with
  | zero => exact h
  | succ n ih => exact holds_bind (readByte_keeps hq h) fun _ _ h => holds_bind (ih h) fun _ _ h => h

theorem readPacked_keeps (hq : QuietClosed P) {c : Int} {s : State} (h : P s) : (readPacked c s).Holds P :=
  holds_bind (readByte_keeps hq h) fun _ _ h => readBytes_keeps hq h

theorem readCellBytes_keeps (hq : QuietClosed P) {c : Int} {n : Nat} {s : State} (h : P s) : (readCellBytes c n s).Holds P := by
  induction n generalizing c s with
  | zero => exact h
  | succ n ih => exact holds_bind (readCell_keeps hq h) fun _ _ h => holds_bind (ih h) fun _ _ h => h

theorem writeBytes_keeps (hq : QuietClosed P) (hp : PokeClosed P) {b : Int} {l : List Byte} {s : State} (h : P s) :
    (writeBytes b l s).Holds P := by
  induction l generalizing b s with
  | nil => exact h
  | cons c rest ih => exact holds_bind (writeByte_keeps hq hp h) fun _ _ h => ih h

theorem writeCellBytes_keeps (hp : PokeClosed P) {c : Int} {l : List Byte} {s : State} (h : P s) :
    (writeCellBytes c l s).Holds P := by
  induction l generalizing c s with
  | nil => exact h
  | cons x rest ih => exact holds_bind (writeCell_keeps hp h) fun _ _ h => ih h

theorem twoArguments_keeps (hq : QuietClosed P) {o : Bool} {v : Int} {s : State} (h : P s) : (twoArguments o v s).Holds P :=
  holds_bind (argument_keeps hq h) fun _ _ h => holds_bind (argument_keeps hq h) fun _ _ h => h

theorem characterOf_keeps (hq : QuietClosed P) {value : Int} {s : State} (h : P s) : P (characterOf value s).2 := by
  unfold characterOf
  split
  · exact h
  · exact hq.draws s _ h

theorem writeDigits_keeps (hq : QuietClosed P) {base : Nat} {value count : Int} {s : State} (h : P s) :
    P (writeDigits base value count s) := by
  unfold writeDigits
  split
  · exact writeText_keeps hq h
  · exact freeOutput_keeps hq h

theorem writeField_keeps (hq : QuietClosed P) {value width : Int} {s : State} (h : P s) : P (writeField value width s) := by
  unfold writeField
  split
  · exact writeText_keeps hq h
  · exact freeOutput_keeps hq h

theorem writeConversion_keeps (hq : QuietClosed P) {c : Conversion} {width value : Int} {s : State} (h : P s) :
    (writeConversion c width value s).Holds P := by
  cases c with
  | string => exact holds_bind (readPacked_keeps hq h) fun _ _ h => writeText_keeps hq h
  | char => exact hq.writeChar _ _ _ (characterOf_keeps hq h)
  | octal => exact writeDigits_keeps hq h
  | hex => exact writeDigits_keeps hq h
  | decimal => exact writeField_keeps hq h
  | plainDecimal => exact writeText_keeps hq h

theorem writeFormat_keeps (hq : QuietClosed P) {n : Nat} {format : Text} {p : Int} {s : State} (h : P s) :
    (writeFormat n format p s).Holds P := by
  induction n generalizing format p s with
  | zero => exact h
  | succ n ih =>
    cases format with
    | nil => exact h
    | cons c rest =>
      unfold writeFormat
      dsimp only
      split
      · exact ih (hq.writeChar s _ _ h)
      · split
        · exact freeOutput_keeps hq h
        · split
          · exact ih (freeOutput_keeps hq h)
          · exact holds_bind (readCell_keeps hq h) fun _ _ h => holds_bind (writeConversion_keeps hq h) fun _ _ h => ih h

/-! ## Services -/

/-- A service keeps what its kind of writing keeps. -/
theorem runService_keeps (hq : QuietClosed P) {service : Service} (hp : service.writesMemory = true → PokeClosed P)
    (hc : service.writesControl = true → ControlClosed P) (hi : service = .selectInput ∨ service = .endRead → CisClosed P)
    (ho : service = .selectOutput ∨ service = .endWrite → CosClosed P) (he : service = .stop → StopClosed P) {v : Int} {s : State}
    (h : P s) : OutcomeHolds P (runService service v s) := by
  have arg : ∀ (i : Nat) (k : Int → State → Host.Outcome State Fault Refusal) (s : State), P s →
      (∀ z t, P t → OutcomeHolds P (k z t)) → OutcomeHolds P ((argument v i s).andThen k) :=
    fun i k s hs hk => holds_andThen (argument_keeps hq hs) hk
  cases service with
  | abort => exact serviceDone_keeps hq h
  | backtrace => exact serviceDone_keeps hq h
  | selectInput => exact arg _ _ _ h fun z t ht => serviceDone_keeps hq (hi (.inl rfl) t z ht)
  | selectOutput => exact arg _ _ _ h fun z t ht => serviceDone_keeps hq (ho (.inl rfl) t z ht)
  | rdch =>
    show OutcomeHolds P (serviceRdch s)
    have hr := hq.readChar s s.cis h
    unfold serviceRdch
    split <;> rename_i hs <;> rw [hs] at hr
    · exact serviceResult_keeps hq hr
    · exact serviceDone_keeps hq hr
  | wrch => exact arg _ _ _ h fun z t ht => serviceDone_keeps hq (hq.writeChar _ _ _ (characterOf_keeps hq ht))
  | input => exact serviceResult_keeps hq h
  | output => exact serviceResult_keeps hq h
  | stop => exact arg _ _ _ h fun z t ht => serviceDone_keeps hq (he rfl t _ ht)
  | level => exact serviceResult_keeps hq h
  | longJump =>
    exact arg _ _ _ h fun z t ht => arg _ _ _ ht fun u t ht =>
      serviceDone_keeps hq (hc rfl t u z ht)
  | aptOvec =>
    refine arg _ _ _ h fun f t ht => arg _ _ _ ht fun n t ht => ?_
    dsimp only
    split
    · trivial
    · exact holds_andThen (writeCell_keeps (hp rfl) ht) fun _ _ ht => holds_andThen (writeCell_keeps (hp rfl) ht) fun _ _ ht =>
        holds_andThen (writeCell_keeps (hp rfl) ht) fun _ _ ht => holds_andThen (writeCell_keeps (hp rfl) ht) fun _ t ht =>
        serviceDone_keeps hq (hc rfl t f _ ht)
  | findOutput =>
    exact arg _ _ _ h fun z t ht => holds_andThen (readPacked_keeps hq ht) fun name t ht =>
      serviceResult_keeps hq (hq.openOutput t name ht)
  | findInput =>
    exact arg _ _ _ h fun z t ht => holds_andThen (readPacked_keeps hq ht) fun name t ht =>
      serviceResult_keeps hq (hq.openInput t name ht)
  | endRead => exact serviceDone_keeps hq (hi (.inr rfl) s _ h)
  | endWrite => exact serviceDone_keeps hq (ho (.inr rfl) s _ h)
  | writeS =>
    exact arg _ _ _ h fun z t ht => holds_andThen (readPacked_keeps hq ht) fun text t ht =>
      serviceDone_keeps hq (writeText_keeps hq ht)
  | writeN => exact arg _ _ _ h fun z t ht => serviceDone_keeps hq (writeText_keeps hq ht)
  | newLine => exact serviceDone_keeps hq (hq.writeChar s _ _ h)
  | newPage => exact serviceDone_keeps hq (hq.writeChar s _ _ h)
  | packString =>
    exact holds_andThen (twoArguments_keeps hq h) fun _ _ ht => holds_andThen (readCell_keeps hq ht) fun _ _ ht =>
      holds_andThen (readCellBytes_keeps hq ht) fun _ t ht =>
      holds_andThen (writeBytes_keeps hq (hp rfl) (hq.draws t _ ht)) fun _ _ ht => serviceDone_keeps hq ht
  | unpackString =>
    exact holds_andThen (twoArguments_keeps hq h) fun _ _ ht => holds_andThen (readPacked_keeps hq ht) fun _ _ ht =>
      holds_andThen (writeCellBytes_keeps (hp rfl) ht) fun _ _ ht => serviceDone_keeps hq ht
  | writeD => exact holds_andThen (twoArguments_keeps hq h) fun _ _ ht => serviceDone_keeps hq (writeField_keeps hq ht)
  | readN =>
    show OutcomeHolds P (serviceReadN s)
    unfold serviceReadN
    split
    · exact holds_andThen (writeCell_keeps (hp rfl) (hq.draws s _ h)) fun _ _ ht => serviceDone_keeps hq ht
    · exact holds_andThen (writeCell_keeps (hp rfl) (hq.leaveUnread s _ _ h)) fun _ _ ht => serviceResult_keeps hq ht
  | writeHex => exact holds_andThen (twoArguments_keeps hq h) fun _ _ ht => serviceDone_keeps hq (writeDigits_keeps hq ht)
  | writeF =>
    refine arg _ _ _ h fun c t ht => holds_andThen ?_ fun p t ht => holds_andThen (readPacked_keeps hq ht) fun format t ht =>
      holds_andThen (writeFormat_keeps hq ht) fun _ _ ht => serviceDone_keeps hq ht
    unfold formatVector
    split
    · exact ht
    · exact argument_keeps hq ht
  | writeOct => exact holds_andThen (twoArguments_keeps hq h) fun _ _ ht => serviceDone_keeps hq (writeDigits_keeps hq ht)
  | getByte =>
    exact arg _ _ _ h fun c t ht => arg _ _ _ ht fun i t ht => holds_andThen (readByte_keeps hq ht) fun _ _ ht =>
      serviceResult_keeps hq ht
  | putByte =>
    exact arg _ _ _ h fun c t ht => arg _ _ _ ht fun i t ht => arg _ _ _ ht fun x t ht =>
      holds_andThen (writeByte_keeps hq (hp rfl) ht) fun _ _ ht => serviceDone_keeps hq ht

theorem sysCall_keeps (he : EngineClosed P) (hp : PokeClosed P) (hc : ControlClosed P) (hh : HaltClosed P) {n v : Int} {s : State}
    (h : P s) : OutcomeHolds P (sysCall n v s) := by
  unfold sysCall
  split
  · exact runService_keeps he.toQuietClosed (fun _ => hp) (fun _ => hc) (fun _ => he.cis) (fun _ => he.cos) (fun _ => he.stop) h
  · exact hh.unknownCall s n h

/-! ## Instructions -/

theorem skipTarget_keeps (hq : QuietClosed P) {q : Int} {s : State} (h : P s) : (skipTarget q s).Holds P := by
  unfold skipTarget
  split
  · exact holds_bind (readCell_keeps hq h) fun _ _ h => h
  · exact h

theorem scanPairs_keeps (hq : QuietClosed P) {a d q : Int} {n : Nat} {s : State} (h : P s) : (scanPairs a d q n s).Holds P := by
  induction n generalizing q s with
  | zero => exact h
  | succ n ih =>
    refine holds_bind (readCell_keeps hq h) fun w t ht => ?_
    split
    · exact holds_bind (readCell_keeps hq ht) fun _ _ h => h
    · exact holds_bind (skipTarget_keeps hq ht) fun _ _ h => ih h

theorem subOperation_keeps (he : EngineClosed P) (hc : ControlClosed P) (hh : HaltClosed P) {k : Int} {s : State} (h : P s) :
    OutcomeHolds P (subOperation k s) := by
  have hq := he.toQuietClosed
  have h23 : OutcomeHolds P (execX23 s) := by
    refine holds_andThen (readCell_keeps hq h) fun n t ht => holds_andThen (readCell_keeps hq ht) fun d t ht => ?_
    split
    · trivial
    · exact holds_andThen (scanPairs_keeps hq ht) fun target t ht => anyB_keeps hq (hc t target t.sp ht)
  have h16 : ∀ f, P (shiftResult f s) := by
    intro f
    unfold shiftResult
    split
    · exact hq.a s _ h
    · exact anyA_keeps hq h
  have hg : ∀ f, P (if sext16 s.a = 0 then s else aluResult f s) := by
    intro f
    split
    · exact h
    · exact hq.a s _ h
  unfold subOperation
  split
  · exact holds_andThen (readCell_keeps hq h) fun w t ht => hq.a t w ht
  · exact hq.a s _ h
  · exact hq.a s _ h
  · exact holds_andThen (readCell_keeps hq h) fun w t ht => holds_andThen (readCell_keeps hq ht) fun u t ht =>
      hc t (sext16 w) (sext16 u) ht
  · exact hq.a s _ h
  · exact hg _
  · exact hg _
  · exact hq.a s _ h
  · exact hq.a s _ h
  · exact hq.a s _ h
  · exact hq.a s _ h
  · exact hq.a s _ h
  · exact hq.a s _ h
  · exact hq.a s _ h
  · exact hq.a s _ h
  · exact h16 _
  · exact h16 _
  · exact hq.a s _ h
  · exact hq.a s _ h
  · exact hq.a s _ h
  · exact hq.a s _ h
  · exact he.stop s _ h
  · exact h23
  · exact hh.unknownSelector s k h

/-- Every instruction keeps a property closed under the elementary updates. -/
theorem exec_keeps (he : EngineClosed P) (hp : PokeClosed P) (hc : ControlClosed P) (hh : HaltClosed P) (i : Instr) {s : State}
    (h : P s) : OutcomeHolds P (exec i s) := by
  have hq := he.toQuietClosed
  have op : ∀ (o : Operand) (k : Int → State → Host.Outcome State Fault Refusal), (∀ z t, P t → OutcomeHolds P (k z t)) →
      OutcomeHolds P ((operand o s).andThen k) := fun o k hk => holds_andThen (operand_keeps hq h) hk
  have sub : ∀ k, OutcomeHolds P (subOperation k s) := fun k => subOperation_keeps he hc hh h
  cases i with
  | l o => exact op o _ fun z t ht => hq.a _ (trunc16 z) (hq.b t t.a ht)
  | s o => exact op o _ fun z t ht => holds_andThen (writeCell_keeps hp ht) fun _ _ ht => ht
  | a o => exact op o _ fun z t ht => hq.a t _ ht
  | j o => exact op o _ fun z t ht => hc t z t.sp ht
  | t o =>
    refine op o _ fun z t ht => ?_
    split
    · exact hc t z t.sp ht
    · exact ht
  | f o =>
    refine op o _ fun z t ht => ?_
    split
    · exact ht
    · exact hc t z t.sp ht
  | k o =>
    refine op o _ fun z t ht => ?_
    split
    · exact sysCall_keeps he hp hc hh ht
    · exact holds_andThen (writeCell_keeps hp ht) fun _ _ ht => holds_andThen (writeCell_keeps hp ht) fun _ t ht =>
        hc t (sext16 t.a) _ ht
  | x o => exact op o _ fun z t ht => subOperation_keeps he hc hh ht
  | x1 => exact sub 1
  | x2 => exact sub 2
  | x3 => exact sub 3
  | x4 => exact sub 4
  | x5 => exact sub 5
  | x6 => exact sub 6
  | x7 => exact sub 7
  | x8 => exact sub 8
  | x9 => exact sub 9
  | x10 => exact sub 10
  | x11 => exact sub 11
  | x12 => exact sub 12
  | x13 => exact sub 13
  | x14 => exact sub 14
  | x15 => exact sub 15
  | x16 => exact sub 16
  | x17 => exact sub 17
  | x18 => exact sub 18
  | x19 => exact sub 19
  | x20 => exact sub 20
  | x21 => exact sub 21
  | x22 => exact sub 22
  | x23 => exact sub 23

theorem fetchCell_keeps (hq : QuietClosed P) (hc : ControlClosed P) {s : State} (h : P s) : (fetchCell s).Holds P :=
  holds_bind (readCell_keeps hq h) fun _ t ht => hc t _ t.sp ht

theorem fetch_keeps (hq : QuietClosed P) (hc : ControlClosed P) {s : State} (h : P s) : (fetch s).Holds P := by
  refine holds_bind (fetchCell_keeps hq hc h) fun w t ht => ?_
  split
  · exact holds_bind (fetchCell_keeps hq hc ht) fun _ _ h => h
  · exact ht

/-- One step of the engine keeps a property closed under the elementary updates. -/
theorem engineStep_keeps (he : EngineClosed P) (hp : PokeClosed P) (hc : ControlClosed P) (hh : HaltClosed P) {s : State} (h : P s) :
    OutcomeHolds P (engineStep s) :=
  holds_andThen (fetch_keeps he.toQuietClosed hc h) fun i _ ht => exec_keeps he hp hc hh i ht

end Keeps

end Sys2Proof.Machine
end

