-- ==== Sys2Proof/Laws/LoaderKeeps.lean ====
section
/-! SUPPORT. What a step of the loader and of the host's driver keeps, and with Laws/Keeps.lean what any step keeps. -/

namespace Sys2Proof.Machine

/-- Kept by what the loader and the driver do beside reading and writing memory. -/
structure LoaderClosed (P : State → Prop) : Prop where
  ch : ∀ s c, P s → P { s with ch := c }
  cursor : ∀ s z c, P s → P { s with lc := z, cp := c }
  label : ∀ s n v, n < s.par.labelCount → P s → P (s.setLabel n v)
  clear : ∀ s, P s → P { s with labv := [] }
  run : ∀ s r, P s → P { s with run := r }
  halt : ∀ s cause, P s → P (s.halt cause)
  config : ∀ s c, P s → P { s with config := c }
  rebindInput : ∀ s name t, s.rebindInput name = some t → P s → P t
  rebindOutput : ∀ s name, P s → P (s.rebindOutput name)

section Keeps
variable {P : State → Prop}

theorem nextChar_keeps (hq : QuietClosed P) (hl : LoaderClosed P) {s : State} (h : P s) : P (nextChar s) :=
  hl.ch _ _ (hq.readChar s s.cis h)

theorem takeChars_keeps (hq : QuietClosed P) (hl : LoaderClosed P) {keep : Byte → Bool} {n : Nat} {s : State} (h : P s) :
    P (takeChars keep n s).2 := by
  induction n generalizing s with
  | zero => exact h
  | succ n ih =>
    unfold takeChars
    split
    · exact h
    · split
      · exact ih (nextChar_keeps hq hl h)
      · exact h

theorem takeWhile_keeps (hq : QuietClosed P) (hl : LoaderClosed P) {keep : Byte → Bool} {s : State} (h : P s) :
    P (takeWhile keep s).2 := takeChars_keeps hq hl h

theorem skipLetter_keeps (hq : QuietClosed P) (hl : LoaderClosed P) {c : Byte} {s : State} (h : P s) : P (skipLetter c s).2 := by
  unfold skipLetter
  split
  · exact nextChar_keeps hq hl h
  · exact h

theorem raise_keeps (hl : LoaderClosed P) {α : Type} {cause : Cause} {s : State} (h : P s) : (raise cause s : Res α).Holds P :=
  hl.halt s cause h

theorem badCode_keeps (hl : LoaderClosed P) {α : Type} {s : State} (h : P s) : (badCode s : Res α).Holds P := by
  unfold badCode
  split
  · split
    · trivial
    · exact raise_keeps hl h
  · exact raise_keeps hl h

theorem readNumeral_keeps (hq : QuietClosed P) (hl : LoaderClosed P) {s : State} (h : P s) : (readNumeral s).Holds P := by
  have ht := takeWhile_keeps hq hl (keep := isDigit) h
  unfold readNumeral
  split
  · split
    · trivial
    · exact badCode_keeps hl h
  · rename_i heq
    rw [heq] at ht
    split
    · exact ht
    · trivial

theorem checkLabel_eq_ok {n : Nat} {s t : State} {u : Unit} (h : checkLabel n s = .ok u t) : t = s ∧ n < s.par.labelCount := by
  unfold checkLabel at h
  split at h
  · cases h; exact ⟨rfl, ‹_›⟩
  · cases h

theorem emitCell_keeps (hp : PokeClosed P) (hl : LoaderClosed P) {v : Int} {s : State} (h : P s) : (emitCell v s).Holds P :=
  holds_bind (writeCell_keeps hp h) fun _ t ht => hl.cursor t _ _ ht

theorem writeCell_par {a v : Int} {s t : State} {u : Unit} (h : writeCell a v s = .ok u t) : t.par = s.par := by
  unfold writeCell at h
  split at h
  · cases h; rfl
  · cases h

theorem labelReference_keeps (hp : PokeClosed P) (hl : LoaderClosed P) {n : Nat} {a : Int} {s : State} (h : P s) :
    (labelReference n a s).Holds P := by
  unfold labelReference checkLabel
  split
  · rename_i hn
    simp only [bind_ok]
    split
    · exact writeCell_keeps hp h
    · cases hw : writeCell a (s.labelEntry n) s with
      | ok u t =>
        have ht := writeCell_keeps (a := a) (v := s.labelEntry n) hp h
        rw [hw] at ht
        exact hl.label t n a (writeCell_par hw ▸ hn) ht
      | ended t =>
        have ht := writeCell_keeps (a := a) (v := s.labelEntry n) hp h
        rw [hw] at ht
        exact ht
      | fault f => trivial
      | refused q => trivial
  · trivial

theorem patchChain_keeps (hq : QuietClosed P) (hp : PokeClosed P) {label : Nat} {fuel : Nat} {p : Int} {s : State} (h : P s) :
    (patchChain label fuel p s).Holds P := by
  induction fuel generalizing p s with
  | zero => trivial
  | succ n ih =>
    unfold patchChain
    split
    · exact h
    · exact holds_bind (readCell_keeps hq h) fun _ _ h => holds_bind (writeCell_keeps hp h) fun _ _ h => ih h

theorem patchChain_par {label fuel : Nat} {p : Int} {s t : State} {u : Unit} (h : patchChain label fuel p s = .ok u t) :
    t.par = s.par := by
  induction fuel generalizing p s with
  | zero => cases h
  | succ n ih =>
    unfold patchChain at h
    split at h
    · cases h; rfl
    · obtain ⟨w, s1, h1, h⟩ := bind_eq_ok h
      obtain ⟨_, s2, h2, h⟩ := bind_eq_ok h
      rw [ih h, writeCell_par h2]
      rcases readCell_cases p s with ⟨_, w, m, hr, _⟩ | ⟨_, hr⟩ <;> rw [hr] at h1 <;> cases h1
      rfl

theorem defineLabel_keeps (hq : QuietClosed P) (hp : PokeClosed P) (hl : LoaderClosed P) {s : State} (h : P s) :
    (defineLabel s).Holds P := by
  refine holds_bind (readNumeral_keeps hq hl h) fun n t ht => ?_
  unfold checkLabel
  split
  · rename_i hn
    simp only [bind_ok]
    split
    · exact raise_keeps hl ht
    · have hk := patchChain_keeps (label := n) (fuel := chainFuel) (p := t.labelEntry n) hq hp ht
      cases hc : patchChain n chainFuel (t.labelEntry n) t with
      | ok u t' =>
        rw [hc] at hk
        exact hl.cursor _ _ _ (hl.label t' n _ (patchChain_par hc ▸ hn) hk)
      | ended t' => rw [hc] at hk; exact hk
      | fault f => trivial
      | refused q => trivial
  · trivial

theorem assembleInstruction_keeps (hq : QuietClosed P) (hp : PokeClosed P) (hl : LoaderClosed P) {opcode : Nat} {s : State} (h : P s) :
    (assembleInstruction opcode s).Holds P := by
  have h4 := skipLetter_keeps (c := 76) hq hl (skipLetter_keeps (c := s.par.fillerLetter) hq hl (skipLetter_keeps (c := 80) hq hl
    (skipLetter_keeps (c := 73) hq hl (nextChar_keeps hq hl h))))
  unfold assembleInstruction
  refine holds_bind (readNumeral_keeps hq hl h4) fun n t ht => ?_
  split
  · exact holds_bind (emitCell_keeps hp hl ht) fun _ _ ht => holds_bind (emitCell_keeps hp hl ht) fun _ _ ht =>
      labelReference_keeps hp hl ht
  · split
    · exact emitCell_keeps hp hl ht
    · exact holds_bind (emitCell_keeps hp hl ht) fun _ _ ht => emitCell_keeps hp hl ht

theorem byteDirective_keeps (hq : QuietClosed P) (hp : PokeClosed P) (hl : LoaderClosed P) {s : State} (h : P s) :
    (byteDirective s).Holds P := by
  refine holds_bind (readNumeral_keeps hq hl (nextChar_keeps hq hl h)) fun v t ht => ?_
  split
  · trivial
  · split
    · exact holds_bind (emitCell_keeps hp hl ht) fun _ _ ht => holds_bind (writeByte_keeps hq hp ht) fun _ t ht =>
        hl.cursor t t.lc _ ht
    · exact holds_bind (writeByte_keeps hq hp ht) fun _ t ht => hl.cursor t t.lc _ ht

theorem dataDirective_keeps (hq : QuietClosed P) (hp : PokeClosed P) (hl : LoaderClosed P) {s : State} (h : P s) :
    (dataDirective s).Holds P := by
  unfold dataDirective
  refine holds_bind (readNumeral_keeps hq hl (skipLetter_keeps hq hl (nextChar_keeps hq hl h))) fun n t ht => ?_
  split
  · exact holds_bind (emitCell_keeps hp hl ht) fun _ _ ht => labelReference_keeps hp hl ht
  · exact emitCell_keeps hp hl ht

theorem globalDirective_keeps (hq : QuietClosed P) (hp : PokeClosed P) (hl : LoaderClosed P) {s : State} (h : P s) :
    (globalDirective s).Holds P := by
  refine holds_bind (readNumeral_keeps hq hl (nextChar_keeps hq hl h)) fun n t ht => ?_
  have h2 := takeWhile_keeps (keep := fun c => c = 32) hq hl ht
  dsimp only
  split
  · exact holds_bind (readNumeral_keeps hq hl (skipLetter_keeps hq hl h2)) fun m t ht => holds_bind (writeCell_keeps hp ht) fun _ t ht =>
      holds_bind (labelReference_keeps hp hl ht) fun _ t ht => hl.cursor t t.lc _ ht
  · exact badCode_keeps hl h2

theorem endOfUnit_keeps (hq : QuietClosed P) (hl : LoaderClosed P) {s : State} (h : P s) : (endOfUnit s).Holds P := by
  unfold endOfUnit
  split
  · exact raise_keeps hl (nextChar_keeps hq hl h)
  · exact hl.cursor _ (nextChar s).lc _ (hl.clear _ (nextChar_keeps hq hl h))

theorem dispatchChar_keeps (hq : QuietClosed P) (hp : PokeClosed P) (hl : LoaderClosed P) {c : Byte} {s : State} (h : P s) :
    (dispatchChar c s).Holds P := by
  unfold dispatchChar
  split
  · exact nextChar_keeps hq hl h
  · split
    · exact takeWhile_keeps hq hl (nextChar_keeps hq hl h)
    · split
      · exact defineLabel_keeps hq hp hl h
      · split
        · exact assembleInstruction_keeps hq hp hl h
        · split
          · exact byteDirective_keeps hq hp hl h
          · exact dataDirective_keeps hq hp hl h
          · exact globalDirective_keeps hq hp hl h
          · exact endOfUnit_keeps hq hl h
          · exact badCode_keeps hl h

theorem loaderStep_keeps (he : EngineClosed P) (hp : PokeClosed P) (hl : LoaderClosed P) {s : State} (h : P s) :
    OutcomeHolds P (loaderStep s) := by
  unfold loaderStep
  split
  · exact he.cis _ s.par.defaultInput (hl.run s .ready h)
  · exact holds_andThen (dispatchChar_keeps he.toQuietClosed hp hl h) fun _ _ ht => ht

theorem driveItem_keeps (he : EngineClosed P) (hl : LoaderClosed P) {item : RunItem} {s : State} (h : P s) :
    (driveItem item s).Holds P := by
  cases item with
  | load name =>
    show (loadCode name s).Holds P
    unfold loadCode
    dsimp only
    split
    · exact raise_keeps hl (he.openInput s name h)
    · have h1 := hl.run _ .loading (he.cis _ (s.openInput name).1 (he.openInput s name h))
      exact nextChar_keeps he.toQuietClosed hl (hl.cursor _ (s.openInput name).2.lc .low (hl.clear _ h1))
  | redirectInput name =>
    show (match s.rebindInput name with | some s₁ => Res.ok () s₁ | none => .refused (.redirectNotFound name)).Holds P
    split
    · exact hl.rebindInput s name _ ‹_› h
    · trivial
  | redirectOutput name => exact hl.rebindOutput s name h

theorem driverStep_keeps (he : EngineClosed P) (hc : ControlClosed P) (hl : LoaderClosed P) {s : State} (h : P s) :
    OutcomeHolds P (driverStep s) := by
  unfold driverStep
  split
  · exact hl.run _ .running (hc s s.par.progStart s.lc h)
  · exact holds_andThen (driveItem_keeps he hl (hl.config s _ h)) fun _ _ ht => ht

/-- Every step keeps a property closed under the elementary updates of the engine, the services, the loader and the driver. -/
theorem step_keeps (he : EngineClosed P) (hp : PokeClosed P) (hc : ControlClosed P) (hl : LoaderClosed P) {s : State} (h : P s) :
    OutcomeHolds P (step s) := by
  unfold step
  split
  · exact driverStep_keeps he hc hl h
  · exact driverStep_keeps he hc hl h
  · exact loaderStep_keeps he hp hl h
  · exact engineStep_keeps he hp hc ⟨fun s _ => hl.halt s _, fun s _ => hl.halt s _⟩ h
  · trivial
  · trivial

end Keeps

end Sys2Proof.Machine
end

