-- ==== Sys2Proof/Laws/Registry.lean ====
section
/-! SUPPORT. The label table keeps its canonical form, and the stream registry stays sound: one lemma for each operation on
them. -/

namespace Sys2Proof.Machine

/-! ## The label table (10_state.md R18) -/

theorem setLabel_wf {s : State} (h : LabelTable.wf s.par s.labv) {n : Nat} (v : Int) (hn : n < s.par.labelCount) :
    LabelTable.wf s.par (s.setLabel n v).labv := by
  obtain ⟨h1, h2, h3⟩ := h
  unfold State.setLabel
  dsimp only
  split
  · exact ⟨eraseKey_rising n h1, fun e he => h2 e (mem_eraseKey he), fun e he => h3 e (mem_eraseKey he)⟩
  · refine ⟨insertKey_rising n _ h1, fun e he => ?_, fun e he => ?_⟩
    · rcases mem_insertKey he with rfl | he
      · exact hn
      · exact h2 e he
    · rcases mem_insertKey he with rfl | he
      · assumption
      · exact h3 e he

theorem labelEntry_setLabel_same (n : Nat) (v : Int) (s : State) : (s.setLabel n v).labelEntry n = s16 v := by
  unfold State.labelEntry State.setLabel s16
  dsimp only
  split
  · rename_i h
    rw [lookupKey_eraseKey_same, h]
    rfl
  · rw [lookupKey_insertKey_same]
    rfl

theorem labelEntry_setLabel_other {n m : Nat} (h : m ≠ n) (v : Int) (s : State) : (s.setLabel n v).labelEntry m = s.labelEntry m := by
  unfold State.labelEntry State.setLabel
  dsimp only
  split
  · rw [lookupKey_eraseKey_other h]
  · rw [lookupKey_insertKey_other h]

/-! ## Names (44_syscall_port.md R237) -/

@[simp] theorem getFile_setFile_same (name : Name) (text : Text) (files : List (Name × Text)) :
    getFile name (setFile name text files) = some text := by
  induction files with
  | nil => simp [getFile, setFile]
  | cons e rest ih =>
    rw [setFile]
    split
    · simp [getFile]
    · rename_i h
      simpa [getFile, h] using ih

theorem getFile_setFile_other {name other : Name} (h : other ≠ name) (text : Text) (files : List (Name × Text)) :
    getFile other (setFile name text files) = getFile other files := by
  induction files with
  | nil => simp [getFile, setFile, Ne.symm h]
  | cons e rest ih =>
    rw [setFile]
    split
    · rename_i he
      simp [getFile, he, Ne.symm h]
    · by_cases ho : e.1 = other
      · simp [getFile, ho]
      · simpa [getFile, ho] using ih

/-! ## Handles (44_syscall_port.md R237) -/

theorem recordNo_eq_none {s : State} {h : Int} : s.recordNo h = none ↔ h ∉ s.slots.map Prod.fst := by
  simp only [State.recordNo, Option.map_eq_none_iff, List.find?_eq_none, decide_eq_true_eq, List.mem_map, not_exists, not_and]

/-- The spare handle is one no stream has. -/
theorem spareHandle_fresh (s : State) : s.spareHandle ≠ 0 ∧ s.recordNo s.spareHandle = none := by
  unfold State.spareHandle
  split
  · rename_i i hi
    have h := List.find?_some hi
    exact ⟨by omega, by simpa using h⟩
  · rename_i hnone
    exfalso
    have hall : ∀ i ∈ List.range (s.slots.length + 1), ((i : Int) + 1) ∈ s.slots.map Prod.fst := by
      intro i hi
      have h := List.find?_eq_none.mp hnone i hi
      by_contra hc
      exact h (by simp [recordNo_eq_none.mpr hc])
    have hnd : ((List.range (s.slots.length + 1)).map fun i : Nat => (i : Int) + 1).Nodup :=
      List.Nodup.map (fun a b h => by simpa using h) List.nodup_range
    have hsub : ((List.range (s.slots.length + 1)).map fun i : Nat => (i : Int) + 1) ⊆ s.slots.map Prod.fst := by
      intro z hz
      obtain ⟨i, hi, rfl⟩ := List.mem_map.mp hz
      exact hall i hi
    have hle := (hnd.subperm hsub).length_le
    simp at hle

/-- A new handle is new, and not 0 (R237). -/
theorem newHandle_fresh (s : State) : s.newHandle ≠ 0 ∧ s.recordNo s.newHandle = none := by
  unfold State.newHandle
  dsimp only
  split
  · rename_i h
    exact ⟨h.1, h.2.2.2⟩
  · exact spareHandle_fresh s

/-- The registry depends on the parameters, the slots and the number of records alone. -/
theorem registryOk_congr {s t : State} (hp : t.par = s.par) (hs : t.slots = s.slots) (hr : t.records.length = s.records.length)
    (h : s.registryOk) : t.registryOk := by
  obtain ⟨h1, h2, h3, h4, h5⟩ := h
  refine ⟨by rw [hs]; exact h1, by rw [hs]; exact h2, by rw [hs, hr]; exact h3, ?_, ?_⟩
  · simpa [State.recordNo, hs, hp] using h4
  · simpa [State.recordNo, hs, hp] using h5

theorem addStream_registryOk {s : State} (st : Stream) (h : s.registryOk) : (s.addStream st).2.registryOk := by
  obtain ⟨h1, h2, h3, h4, h5⟩ := h
  have hf := newHandle_fresh s
  have keep : ∀ k, (s.recordNo k).isSome = true → ((s.addStream st).2.recordNo k).isSome = true := by
    intro k hk
    simp only [State.recordNo, State.addStream, List.find?_cons]
    split
    · rfl
    · exact hk
  refine ⟨?_, ?_, ?_, keep _ h4, keep _ h5⟩
  · exact List.nodup_cons.mpr ⟨recordNo_eq_none.mp hf.2, h1⟩
  · intro e he
    rcases List.mem_cons.mp he with rfl | he
    · exact hf.1
    · exact h2 e he
  · intro e he
    simp only [State.addStream, List.length_append, List.length_singleton]
    rcases List.mem_cons.mp he with rfl | he
    · simp only; omega
    · have := h3 e he; omega

theorem writeChar_records (h : Int) (c : Byte) (s : State) : (s.writeChar h c).records.length = s.records.length := by
  unfold State.writeChar
  split
  · rfl
  · split
    · rfl
    · simp

theorem writeText_records (h : Int) (text : Text) (s : State) : (s.writeText h text).records.length = s.records.length := by
  rw [writeText_eq]
  induction text generalizing s with
  | nil => rfl
  | cons c rest ih => exact (ih (s.writeChar h c)).trans (writeChar_records h c s)

/-- What a fatal end changes (R264, R265). -/
theorem halt_frame (cause : Cause) (s : State) : ∃ records files live n,
    s.halt cause = { s with run := .halted cause, records := records, files := files, live := live, draws := n } := by
  exact ⟨_, _, _, _, rfl⟩

theorem readChar_records (h : Int) (s : State) : (s.readChar h).2.records.length = s.records.length := by
  unfold State.readChar
  split
  · rfl
  · split
    · rfl
    · split
      · rfl
      · simp

theorem leaveUnread_records (h : Int) (n : Nat) (s : State) : (s.leaveUnread h n).records.length = s.records.length := by
  unfold State.leaveUnread
  split
  · rfl
  · split
    · rfl
    · simp

theorem halt_records (cause : Cause) (s : State) : (s.halt cause).records.length = s.records.length :=
  writeText_records _ _ _

/-- Opening by name changes the registry and the draw counter at most. -/
theorem openInput_frame (name : Name) (s : State) :
    ∃ slots records n, (s.openInput name).2 = { s with slots := slots, records := records, draws := n } := by
  unfold State.openInput
  split
  · exact ⟨s.slots, s.records, s.draws, rfl⟩
  · split
    · exact ⟨s.slots, s.records, s.draws, rfl⟩
    · exact ⟨_, _, _, rfl⟩

theorem openOutput_frame (name : Name) (s : State) :
    ∃ slots records files n, (s.openOutput name).2 = { s with slots := slots, records := records, files := files, draws := n } := by
  unfold State.openOutput
  split
  · exact ⟨s.slots, s.records, s.files, s.draws, rfl⟩
  · exact ⟨_, _, _, _, rfl⟩

theorem rebindInput_frame {s t : State} {name : Name} (ht : s.rebindInput name = some t) : ∃ records, t = { s with records := records } := by
  unfold State.rebindInput at ht
  split at ht
  · cases ht
  · split at ht
    · cases ht; exact ⟨_, rfl⟩
    · split at ht <;> cases ht <;> exact ⟨_, rfl⟩

theorem openInput_registryOk {s : State} (name : Name) (h : s.registryOk) : (s.openInput name).2.registryOk := by
  unfold State.openInput
  split
  · exact h
  · split
    · exact h
    · exact addStream_registryOk _ h

theorem openOutput_registryOk {s : State} (name : Name) (h : s.registryOk) : (s.openOutput name).2.registryOk := by
  unfold State.openOutput
  split
  · exact h
  · exact addStream_registryOk _ (registryOk_congr rfl rfl rfl h)

theorem rebindInput_registryOk {s t : State} {name : Name} (ht : s.rebindInput name = some t) (h : s.registryOk) : t.registryOk := by
  unfold State.rebindInput at ht
  split at ht
  · cases ht
  · split at ht
    · cases ht; exact h
    · split at ht
      · cases ht; exact h
      · cases ht
        exact registryOk_congr (s := s) rfl rfl (by simp) h

theorem rebindOutput_registryOk {s : State} (name : Name) (h : s.registryOk) : (s.rebindOutput name).registryOk := by
  obtain ⟨h1, h2, h3, h4, h5⟩ := h
  have hfst : (s.rebindOutput name).slots.map Prod.fst = s.slots.map Prod.fst := by
    simp only [State.rebindOutput, List.map_map]
    apply List.map_congr_left
    intro e _
    simp only [Function.comp]
    split
    · exact Eq.symm ‹_› |>.symm ▸ rfl
    · rfl
  have keep : ∀ k, (s.recordNo k).isSome = true → ((s.rebindOutput name).recordNo k).isSome = true := by
    intro k hk
    by_contra hc
    have hn : (s.rebindOutput name).recordNo k = none := by simpa using hc
    rw [recordNo_eq_none, hfst, ← recordNo_eq_none] at hn
    simp [hn] at hk
  refine ⟨by rw [hfst]; exact h1, ?_, ?_, keep _ h4, keep _ h5⟩
  · intro e he
    obtain ⟨f, hf, rfl⟩ := List.mem_map.mp he
    split
    · rename_i hd
      exact hd ▸ h2 f hf
    · exact h2 f hf
  · intro e he
    obtain ⟨f, hf, rfl⟩ := List.mem_map.mp he
    simp only [State.rebindOutput, List.length_append, List.length_singleton]
    split
    · simp
    · have := h3 f hf; omega

end Sys2Proof.Machine
end

