-- ==== Sys2Proof/Laws/Frames.lean ====
section
/-! SUPPORT. What the reading operations can do, from their answer back; no read or write ends the run; and what each instruction
can change when it answers a next state. -/

namespace Sys2Proof.Machine

/-! ## Operations -/

theorem readCell_eq_ok {a : Int} {s t : State} {w : Word} (h : readCell a s = .ok w t) : ∃ n, t = { s with draws := n } := by
  rcases readCell_cases a s with ⟨_, _, n, hr, _⟩ | ⟨_, hr⟩ <;> rw [hr] at h <;> cases h
  exact ⟨n, rfl⟩

theorem writeCell_eq_ok {a v : Int} {s t : State} {u : Unit} (h : writeCell a v s = .ok u t) :
    validCell s.par a ∧ t = s.pokeCell a.toNat (trunc16 v) := by
  unfold writeCell at h
  split at h
  · cases h; exact ⟨‹_›, rfl⟩
  · cases h

/-- All a skipped target cell can do: the draw counter alone may move. -/
theorem skipTarget_cases (q : Int) (s : State) : ∃ m, skipTarget q s = .ok () { s with draws := m } := by
  unfold skipTarget
  split
  · rename_i hv
    rcases readCell_cases q s with ⟨_, _, m, hr, _⟩ | ⟨hn, _⟩
    · exact ⟨m, by rw [hr]; rfl⟩
    · exact absurd hv hn
  · exact ⟨s.draws, rfl⟩

/-- A skipped target cell that holds a value changes nothing. -/
theorem skipTarget_holds {q : Int} {s : State} {w : Word} {rest : List Word} (h : holdsCells s q (w :: rest) = true) :
    skipTarget q s = .ok () s := by
  rw [skipTarget, if_pos (holdsCells_cons h).1, readCell_holds h, bind_ok]

/-- A skipped target cell that is not in memory is passed over. -/
theorem skipTarget_missing {q : Int} {s : State} (h : ¬ validCell s.par q) :
    skipTarget q s = .ok () s := if_neg h

/-- Pairs in memory that do not match are passed over. -/
theorem scanPairs_skip {a d q : Int} {s : State} {pairs : List (Word × Word)} (n : Nat)
    (h : holdsCells s q (pairs.flatMap fun e => [e.1, e.2]) = true) (hne : ∀ e ∈ pairs, sext16 e.1 ≠ a) :
    scanPairs a d q (pairs.length + n) s = scanPairs a d (q + 2 * pairs.length) n s := by
  induction pairs generalizing q with
  | nil => simp
  | cons e rest ih =>
    simp only [List.flatMap_cons, List.cons_append, List.nil_append] at h
    obtain ⟨_, _, h3⟩ := holdsCells_cons h
    obtain ⟨_, _, h5⟩ := holdsCells_cons h3
    rw [show q + 1 + 1 = q + 2 by omega] at h5
    rw [List.length_cons, show rest.length + 1 + n = (rest.length + n) + 1 by omega, scanPairs, readCell_holds h, bind_ok,
      if_neg (hne e (by simp)), skipTarget_holds h3, bind_ok, ih h5 fun f hf => hne f (by simp [hf])]
    congr 1
    push_cast
    omega

theorem scanPairs_eq_ok {a d q z : Int} {n : Nat} {s t : State} (h : scanPairs a d q n s = .ok z t) : ∃ m, t = { s with draws := m } := by
  induction n generalizing q s with
  | zero => cases h; exact ⟨t.draws, rfl⟩
  | succ n ih =>
    unfold scanPairs at h
    obtain ⟨w, u, h1, h2⟩ := bind_eq_ok h
    obtain ⟨m, rfl⟩ := readCell_eq_ok h1
    split at h2
    · obtain ⟨_, _, h1, h2⟩ := bind_eq_ok h2
      obtain ⟨m, rfl⟩ := readCell_eq_ok h1
      cases h2; exact ⟨m, rfl⟩
    · obtain ⟨_, _, h1, h2⟩ := bind_eq_ok h2
      obtain ⟨k, hk⟩ := skipTarget_cases (q + 1) { s with draws := m }
      rw [hk] at h1
      cases h1
      obtain ⟨k, e⟩ := ih h2
      exact ⟨k, e⟩

theorem readCell_not_ended (a : Int) (s t : State) : readCell a s ≠ .ended t := by
  rcases readCell_cases a s with ⟨_, _, _, hr, _⟩ | ⟨_, hr⟩ <;> rw [hr] <;> simp [addressFault]

theorem writeCell_not_ended (a v : Int) (s t : State) : writeCell a v s ≠ .ended t := by
  unfold writeCell
  split <;> simp [addressFault]

theorem operand_not_ended (op : Operand) (s t : State) : operand op s ≠ .ended t := by
  by_cases h : operandReady op s
  · obtain ⟨_, _, ho⟩ := operand_ready h
    simp [ho]
  · simp [operand_notReady h, addressFault]

theorem scanPairs_not_ended (a d q : Int) (n : Nat) (s t : State) : scanPairs a d q n s ≠ .ended t := by
  induction n generalizing q s with
  | zero => simp [scanPairs]
  | succ n ih =>
    unfold scanPairs
    rcases readCell_cases q s with ⟨_, _, m, hr, _⟩ | ⟨_, hr⟩ <;> rw [hr]
    · simp only [bind_ok]
      split
      · rcases readCell_cases (q + 1) { s with draws := m } with ⟨_, _, _, hr, _⟩ | ⟨_, hr⟩ <;> rw [hr] <;> simp [addressFault]
      · obtain ⟨k, hk⟩ := skipTarget_cases (q + 1) { s with draws := m }
        rw [hk]
        exact ih _ _
    · simp [addressFault]

theorem next_inj {s t : State} (h : (Host.Outcome.next s : Host.Outcome State Fault Refusal) = .next t) : t = s := by
  cases h; rfl

/-! ## Instructions -/

/-- A meaning that starts with the operand goes on with some `EA` and at most the draw counter moved. -/
theorem operand_andThen_next {op : Operand} {k : Int → State → Host.Outcome State Fault Refusal} {s t : State}
    (h : (operand op s).andThen k = .next t) : ∃ ea n, k ea { s with draws := n } = .next t := by
  rcases andThen_eq_next h with ⟨ea, u, h1, h2⟩ | h1
  · obtain ⟨n, rfl⟩ := operand_eq_ok h1
    exact ⟨ea, n, h2⟩
  · exact (operand_not_ended _ _ _ h1).elim

theorem readCell_andThen_next {a : Int} {k : Word → State → Host.Outcome State Fault Refusal} {s t : State}
    (h : (readCell a s).andThen k = .next t) : ∃ w n, k w { s with draws := n } = .next t := by
  rcases andThen_eq_next h with ⟨w, u, h1, h2⟩ | h1
  · obtain ⟨n, rfl⟩ := readCell_eq_ok h1
    exact ⟨w, n, h2⟩
  · exact (readCell_not_ended _ _ _ h1).elim

theorem writeCell_andThen_next {a v : Int} {k : Unit → State → Host.Outcome State Fault Refusal} {s t : State}
    (h : (writeCell a v s).andThen k = .next t) : validCell s.par a ∧ k () (s.pokeCell a.toNat (trunc16 v)) = .next t := by
  rcases andThen_eq_next h with ⟨w, u, h1, h2⟩ | h1
  · obtain ⟨hv, rfl⟩ := writeCell_eq_ok h1
    exact ⟨hv, h2⟩
  · exact (writeCell_not_ended _ _ _ _ h1).elim

theorem execL_frame {op : Operand} {s t : State} (h : execL op s = .next t) : ∃ a n, t = { s with a := a, b := s.a, draws := n } := by
  obtain ⟨_, _, h⟩ := operand_andThen_next h
  cases h; exact ⟨_, _, rfl⟩

theorem execS_frame {op : Operand} {s t : State} (h : execS op s = .next t) : ∃ m n, t = { s with mem := m, draws := n } := by
  obtain ⟨_, _, h⟩ := operand_andThen_next h
  obtain ⟨_, h⟩ := writeCell_andThen_next h
  cases h; exact ⟨_, _, rfl⟩

theorem execA_frame {op : Operand} {s t : State} (h : execA op s = .next t) : ∃ a n, t = { s with a := a, draws := n } := by
  obtain ⟨_, _, h⟩ := operand_andThen_next h
  cases h; exact ⟨_, _, rfl⟩

theorem execJ_frame {op : Operand} {s t : State} (h : execJ op s = .next t) : ∃ pc n, t = { s with pc := pc, draws := n } := by
  obtain ⟨_, _, h⟩ := operand_andThen_next h
  cases h; exact ⟨_, _, rfl⟩

theorem execT_frame {op : Operand} {s t : State} (h : execT op s = .next t) : ∃ pc n, t = { s with pc := pc, draws := n } := by
  obtain ⟨_, _, h⟩ := operand_andThen_next h
  rw [next_inj h]
  split <;> exact ⟨_, _, rfl⟩

theorem execF_frame {op : Operand} {s t : State} (h : execF op s = .next t) : ∃ pc n, t = { s with pc := pc, draws := n } := by
  obtain ⟨_, _, h⟩ := operand_andThen_next h
  rw [next_inj h]
  split <;> exact ⟨_, _, rfl⟩

theorem execX1_frame {s t : State} (h : execX1 s = .next t) : ∃ a n, t = { s with a := a, draws := n } := by
  obtain ⟨_, _, h⟩ := readCell_andThen_next h
  cases h; exact ⟨_, _, rfl⟩

theorem execX4_frame {s t : State} (h : execX4 s = .next t) : ∃ pc sp n, t = { s with pc := pc, sp := sp, draws := n } := by
  obtain ⟨_, _, h⟩ := readCell_andThen_next h
  obtain ⟨_, _, h⟩ := readCell_andThen_next h
  cases h; exact ⟨_, _, _, rfl⟩

theorem execX23_frame {s t : State} (h : execX23 s = .next t) : ∃ pc b n, t = { s with pc := pc, b := b, draws := n } := by
  obtain ⟨_, _, h⟩ := readCell_andThen_next h
  obtain ⟨_, _, h⟩ := readCell_andThen_next h
  split at h
  · cases h
  · rcases andThen_eq_next h with ⟨_, _, h1, h2⟩ | h1
    · obtain ⟨_, rfl⟩ := scanPairs_eq_ok h1
      cases h2; exact ⟨_, _, _, rfl⟩
    · exact (scanPairs_not_ended _ _ _ _ _ _ h1).elim

/-- A shift changes `A` and, for an amount out of range, the draw counter. -/
theorem shiftResult_frame (f : Word → Nat → Word) (s : State) : ∃ a n, shiftResult f s = { s with a := a, draws := n } := by
  unfold shiftResult
  split <;> exact ⟨_, _, rfl⟩

end Sys2Proof.Machine
end

