-- ==== Sys2Proof/Laws/Strings.lean ====
section
/-! SUPPORT. One spec lemma for each of the operations on strings in memory: characters one to a cell, and successive bytes. -/

namespace Sys2Proof.Machine

/-- Characters stored one to a cell are read. -/
theorem readCellBytes_holds {s : State} {c : Int} {text : List Byte}
    (h : holdsCells s c (text.map fun c => c.setWidth 16) = true) :
    readCellBytes c text.length s = .ok text s := by
  induction text generalizing c with
  | nil => rfl
  | cons x rest ih =>
    rw [List.map_cons] at h
    obtain ⟨_, _, h3⟩ := holdsCells_cons h
    rw [List.length_cons, readCellBytes, readCell_holds h, bind_ok, ih h3, bind_ok]
    congr 2
    ext i hi
    simp [loByte, BitVec.getElem_extractLsb']
    rw [BitVec.getLsbD_eq_getElem hi]
    simp
    omega

/-- All a write of successive bytes of valid cells does: each byte is written, every other byte that held a value keeps it, and the
bytes of the cells it does not reach are as before. -/
theorem writeBytes_spec {b : Int} {bytes : List Byte} {s : State} (h0 : 0 ≤ b)
    (h : ∀ i : Nat, i < bytes.length → validCell s.par ((b + i) / 2)) :
    ∃ m n, writeBytes b bytes s = .ok () { s with mem := m, draws := n } ∧
      (∀ (i : Nat) x, bytes[i]? = some x → State.peekByte { s with mem := m, draws := n } (b.toNat + i) = some x) ∧
      (∀ k y, (k < b.toNat ∨ b.toNat + bytes.length ≤ k) → s.peekByte k = some y →
        State.peekByte { s with mem := m, draws := n } k = some y) ∧
      ∀ k, (∀ i : Nat, i < bytes.length → k / 2 ≠ (b.toNat + i) / 2) →
        State.peekByte { s with mem := m, draws := n } k = s.peekByte k := by
  induction bytes generalizing b s with
  | nil => exact ⟨s.mem, s.draws, rfl, by simp, fun _ _ _ h => h, fun _ _ => rfl⟩
  | cons x rest ih =>
    obtain ⟨m0, n0, w0, p0, -, f0, g0⟩ := writeByte_spec x.toNat (s := s) (b := b) (by simpa using h 0 (by simp))
    obtain ⟨m, n, w, p, g, f⟩ := ih (b := b + 1) (s := { s with mem := m0, draws := n0 }) (by omega) (fun i hi => by
      have := h (i + 1) (by simpa using hi)
      rw [show b + ((i + 1 : Nat) : Int) = b + 1 + i by omega] at this
      exact this)
    have ht : trunc8 (x.toNat : Int) = x := by simp [trunc8]
    rw [ht] at p0
    have hb : (b + 1).toNat = b.toNat + 1 := by omega
    rw [hb] at p g f
    refine ⟨m, n, ?_, ?_, ?_, ?_⟩
    · rw [writeBytes, w0, bind_ok, w]
    · intro i y hi
      cases i with
      | zero =>
        obtain rfl : x = y := by simpa using hi
        exact g _ _ (by omega) p0
      | succ i =>
        rw [show b.toNat + (i + 1) = b.toNat + 1 + i by omega]
        exact p i y (by simpa using hi)
    · intro k y hk hy
      rw [List.length_cons] at hk
      exact g k y (by omega) (g0 k y (by omega) hy)
    · intro k hk
      rw [List.length_cons] at hk
      refine (f k fun i hi => ?_).trans (f0 k ?_)
      · have := hk (i + 1) (by omega)
        rwa [show b.toNat + (i + 1) = b.toNat + 1 + i by omega] at this
      · have := hk 0 (by omega)
        omega

theorem holdsBytes_cons {s : State} {b : Int} {x : Byte} {rest : List Byte} (h : holdsBytes s b (x :: rest) = true) :
    validCell s.par (b / 2) ∧ s.peekByte b.toNat = some x ∧ holdsBytes s (b + 1) rest = true := by
  simpa [holdsBytes, and_assoc] using h

@[simp] theorem holdsBytes_draws (s : State) (n : Nat) (b : Int) (bytes : List Byte) :
    holdsBytes { s with draws := n } b bytes = holdsBytes s b bytes := by
  induction bytes generalizing b with
  | nil => rfl
  | cons x rest ih =>
    rw [holdsBytes, holdsBytes, ih]
    rfl

@[simp] theorem holdsPacked_draws (s : State) (n : Nat) (c : Int) (text : List Byte) :
    holdsPacked { s with draws := n } c text = holdsPacked s c text := by
  simp [holdsPacked]

/-- Bytes that hold values are read. -/
theorem readBytes_holds {s : State} {b : Int} {bytes : List Byte} (h : holdsBytes s b bytes = true) :
    readBytes b bytes.length s = .ok bytes s := by
  induction bytes generalizing b with
  | nil => rfl
  | cons x rest ih =>
    obtain ⟨h1, h2, h3⟩ := holdsBytes_cons h
    rw [List.length_cons, readBytes, readByte_known h1 h2, bind_ok, ih h3, bind_ok]

/-- A packed string is read. -/
theorem readPacked_holds {s : State} {c : Int} {text : List Byte} (h : holdsPacked s c text = true) :
    readPacked c s = .ok text s := by
  rw [holdsPacked, Bool.and_eq_true, decide_eq_true_eq] at h
  obtain ⟨h1, h2, h3⟩ := holdsBytes_cons h.2
  have hn : (BitVec.ofNat 8 text.length).toNat = text.length := by
    rw [BitVec.toNat_ofNat, Nat.mod_eq_of_lt (by omega)]
  rw [readPacked, readByte_known h1 h2, bind_ok, hn, readBytes_holds h3]

/-- Successive bytes with the values of a list are held. -/
theorem holdsBytes_of {s : State} {b : Int} {bytes : List Byte} (h0 : 0 ≤ b)
    (hv : ∀ i : Nat, i < bytes.length → validCell s.par ((b + i) / 2))
    (h : ∀ (i : Nat) x, bytes[i]? = some x → s.peekByte (b.toNat + i) = some x) : holdsBytes s b bytes = true := by
  induction bytes generalizing b with
  | nil => rfl
  | cons x rest ih =>
    simp only [holdsBytes, Bool.and_eq_true, decide_eq_true_eq]
    refine ⟨⟨by simpa using hv 0 (by simp), by simpa using h 0 x (by simp)⟩, ih (by omega) (fun i hi => ?_) fun i y hy => ?_⟩
    · have := hv (i + 1) (by simpa using hi)
      rwa [show b + ((i + 1 : Nat) : Int) = b + 1 + i by omega] at this
    · have := h (i + 1) y (by simpa using hy)
      rwa [show b.toNat + (i + 1) = (b + 1).toNat + i by omega] at this

/-- All a write of characters one to a cell does, where the cells are valid. -/
theorem writeCellBytes_spec {c : Int} {bytes : List Byte} {s : State}
    (h : ∀ i : Nat, i < bytes.length → validCell s.par (c + i)) :
    ∃ m, writeCellBytes c bytes s = .ok () { s with mem := m } ∧
      holdsCells { s with mem := m } c (bytes.map fun x => x.setWidth 16) = true ∧
      ∀ k, ((k / 2 : Nat) : Int) < c ∨ c + bytes.length ≤ ((k / 2 : Nat) : Int) →
        State.peekByte { s with mem := m } k = s.peekByte k := by
  induction bytes generalizing c s with
  | nil => exact ⟨s.mem, rfl, rfl, fun _ _ => rfl⟩
  | cons x rest ih =>
    have hc : validCell s.par c := by simpa using h 0 (by simp)
    have h0 := hc.1
    obtain ⟨m0, w0, p0, f0⟩ := writeCell_spec x.toNat (s := s) hc
    obtain ⟨m, w, p, f⟩ := ih (c := c + 1) (s := { s with mem := m0 }) (fun i hi => by
      have := h (i + 1) (by simpa using hi)
      rwa [show c + ((i + 1 : Nat) : Int) = c + 1 + i by omega] at this)
    have ht : trunc16 (x.toNat : Int) = x.setWidth 16 := by
      apply BitVec.eq_of_toNat_eq
      simp [trunc16]
    rw [ht] at p0
    refine ⟨m, by rw [writeCellBytes, w0, bind_ok, w], ?_, ?_⟩
    · simp only [List.map_cons, holdsCells, Bool.and_eq_true, decide_eq_true_eq]
      refine ⟨⟨hc, ?_⟩, p⟩
      exact (peekCell_eq_of_bytes fun b hb => f b (by omega)).trans p0
    · intro k hk
      rw [List.length_cons] at hk
      exact (f k (by omega)).trans (f0 k (by omega))

/-- Two arguments that hold values, in either order. -/
theorem twoArguments_holds {inOrder : Bool} {v : Int} {s : State} {x y : Word}
    (h : holdsCells s v (if inOrder then [x, y] else [y, x]) = true) :
    twoArguments inOrder v s = .ok (sext16 x, sext16 y) s := by
  cases inOrder
  · obtain ⟨h1, h2, h3⟩ := holdsCells_cons h
    obtain ⟨h4, h5, _⟩ := holdsCells_cons h3
    have a0 : argument v 0 s = .ok (sext16 y) s := argument_known (by simpa using h1) (by simpa using h2)
    have a1 : argument v 1 s = .ok (sext16 x) s := argument_known (by simpa using h4) (by simpa using h5)
    simp [twoArguments, a0, a1]
  · obtain ⟨h1, h2, h3⟩ := holdsCells_cons h
    obtain ⟨h4, h5, _⟩ := holdsCells_cons h3
    have a0 : argument v 0 s = .ok (sext16 x) s := argument_known (by simpa using h1) (by simpa using h2)
    have a1 : argument v 1 s = .ok (sext16 y) s := argument_known (by simpa using h4) (by simpa using h5)
    simp [twoArguments, a0, a1]

end Sys2Proof.Machine
end

