-- ==== Sys2Proof/Laws/Output.lean ====
section
/-! SUPPORT. What the output services write: text appended to a stream, digits of a fixed count, plain decimal numbers, and a
format without directives. -/

namespace Sys2Proof.Machine

/-! ## Streams -/

/-- A handle's stream is the record its number names. -/
theorem streamAt_eq_some {h : Int} {s : State} {st : Stream} :
    s.streamAt h = some st ↔ ∃ r, s.recordNo h = some r ∧ s.records[r]? = some st := by
  rw [State.streamAt, Option.bind_eq_some_iff]

/-- A character written to a stream is appended to its record, and to the live output where the record is the default output's. -/
theorem writeChar_known {h : Int} {c : Byte} {s : State} {r : Nat} {st : Stream} (hr : s.recordNo h = some r)
    (hs : s.records[r]? = some st) :
    s.writeChar h c =
      { s with
        records := s.records.set r { st with content := st.content ++ [c] }
        files := recordInFiles st c s.files
        live := if s.recordNo s.par.defaultOutput = some r then s.live ++ [c] else s.live } := by
  simp only [State.writeChar, hr, hs]

/-- The name's content after a character written to its stream: one character more, and every other name as it was; a stream of
mode read or without a name shows under no name. -/
theorem recordInFiles_spec (st : Stream) (c : Byte) (files : List (Name × Text)) :
    ((st.mode = .read ∨ st.name = none) → recordInFiles st c files = files) ∧
    ∀ name, st.mode = .write → st.name = some name →
      (getFile name (recordInFiles st c files)).getD [] = (getFile name files).getD [] ++ [c] ∧
      ∀ other, other ≠ name → getFile other (recordInFiles st c files) = getFile other files := by
  refine ⟨?_, fun name hm hn => ?_⟩
  · rintro (h | h)
    · simp [recordInFiles, h]
    · unfold recordInFiles
      split
      · simp_all
      · rfl
  · have e : recordInFiles st c files = setFile name ((getFile name files).getD [] ++ [c]) files := by
      simp only [recordInFiles, hm, hn]
    rw [e]
    exact ⟨by rw [getFile_setFile_same]; rfl, fun other ho => getFile_setFile_other ho ..⟩

/-- Text written to a stream is appended to its record, to the content of its name where it is a write stream that has one, and to
the live output where the record is the default output's. -/
theorem writeText_known {h : Int} {text : Text} {s : State} {r : Nat} {st : Stream} (hr : s.recordNo h = some r)
    (hs : s.records[r]? = some st) :
    ∃ files, s.writeText h text =
      { s with
        records := s.records.set r { st with content := st.content ++ text }
        files := files
        live := if s.recordNo s.par.defaultOutput = some r then s.live ++ text else s.live } ∧
      ((st.mode = .read ∨ st.name = none) → files = s.files) ∧
      ∀ name, st.mode = .write → st.name = some name →
        (getFile name files).getD [] = (getFile name s.files).getD [] ++ text ∧
        ∀ other, other ≠ name → getFile other files = getFile other s.files := by
  rw [writeText_eq]
  have hlt : r < s.records.length := (List.getElem?_eq_some_iff.mp hs).1
  have hget : s.records[r] = st := (List.getElem?_eq_some_iff.mp hs).2
  induction text generalizing s st with
  | nil =>
    refine ⟨s.files, ?_⟩
    have : s.records.set r { st with content := st.content ++ [] } = s.records := by
      rw [List.append_nil, ← hget]
      exact List.set_getElem_self hlt
    refine ⟨?_, fun _ => rfl, by simp⟩
    rw [this]
    simp [State.writeChars]
  | cons c rest ih =>
    have e := writeChar_known (c := c) hr hs
    obtain ⟨files, ih', f1, f2⟩ := ih (s := s.writeChar h c) (st := { st with content := st.content ++ [c] }) (by rw [e]; exact hr)
      (by rw [e]; simp [hlt]) (by rw [e]; simpa using hlt) (by simp [e])
    obtain ⟨g1, g2⟩ := recordInFiles_spec st c s.files
    rw [e] at f1 f2
    refine ⟨files, ?_, fun hm => (f1 hm).trans (g1 hm), fun name hm hn => ?_⟩
    rotate_left
    · obtain ⟨p1, p2⟩ := f2 name hm hn
      obtain ⟨q1, q2⟩ := g2 name hm hn
      exact ⟨by rw [p1, q1, List.append_assoc]; rfl, fun other ho => (p2 other ho).trans (q2 other ho)⟩
    rw [show s.writeChars h (c :: rest) = (s.writeChar h c).writeChars h rest from rfl, ih', e]
    have hd : ∀ records files live, State.recordNo s.par.defaultOutput
        { s with records := records, files := files, live := live } = s.recordNo s.par.defaultOutput := fun _ _ _ => rfl
    simp only [hd]
    split <;> simp

/-! ## Digits (44_syscall_port.md R234) -/

@[simp] theorem fixedDigits_length (base count n : Nat) : (fixedDigits base count n).length = count := by
  induction count generalizing n with
  | zero => rfl
  | succ k ih => simp [fixedDigits, ih]

/-- The digits of a fixed count, most significant first. -/
theorem fixedDigits_getElem? {base count n j : Nat} (hj : j < count) :
    (fixedDigits base count n)[j]? = some (digitCharacter (n / base ^ (count - 1 - j) % base)) := by
  induction count generalizing n with
  | zero => omega
  | succ k ih =>
    rw [fixedDigits]
    by_cases h : j < k
    · rw [List.getElem?_append_left (by simpa using h), ih h, Nat.div_div_eq_div_mul, ← Nat.pow_succ']
      rw [show (k - 1 - j).succ = k + 1 - 1 - j by omega]
    · obtain rfl : j = k := by omega
      rw [List.getElem?_append_right (by simp)]
      simp

theorem isDigit_ofNat {d : Nat} (h : d < 10) : isDigit (BitVec.ofNat 8 (48 + d)) = true := by
  simp [isDigit]
  omega

theorem digitsValue_append (v : Nat) (digits : List Byte) (c : Byte) :
    digitsValue v (digits ++ [c]) = 10 * digitsValue v digits + (c.toNat - 48) := by
  simp [digitsValue]

/-- The decimal digits of a number: digits that read back as it, without a leading zero. -/
theorem decimalDigits_spec {fuel n : Nat} (h : n < 10 ^ fuel) (hf : 0 < fuel) :
    (∀ c ∈ decimalDigits fuel n, isDigit c = true) ∧ digitsValue 0 (decimalDigits fuel n) = n ∧ decimalDigits fuel n ≠ [] ∧
      ((decimalDigits fuel n).head? = some 48 → n = 0) := by
  induction fuel generalizing n with
  | zero => omega
  | succ k ih =>
    rw [decimalDigits]
    split
    · rename_i hn
      refine ⟨by simpa using isDigit_ofNat hn, ?_, by simp, fun h0 => ?_⟩
      · simp [digitsValue]
        omega
      · have := congrArg BitVec.toNat (Option.some.inj h0)
        simp at this
        omega
    · rename_i hn
      have hk : 0 < k := by
        rcases Nat.eq_zero_or_pos k with rfl | hk
        · simp at h; omega
        · exact hk
      obtain ⟨h1, h2, h3, h4⟩ := ih (n := n / 10) (by rw [Nat.pow_succ] at h; omega) hk
      refine ⟨?_, ?_, by simp, fun h0 => ?_⟩
      · intro c hc
        rcases List.mem_append.mp hc with hc | hc
        · exact h1 c hc
        · obtain rfl := List.mem_singleton.mp hc
          exact isDigit_ofNat (Nat.mod_lt _ (by omega))
      · rw [digitsValue_append, h2]
        simp
        omega
      · rw [List.head?_append_of_ne_nil _ h3] at h0
        have := h4 h0
        omega

/-! ## The format writer (44_syscall_port.md R234) -/

/-- A format without a directive is written as it is. -/
theorem writeFormat_plain {n : Nat} {format : Text} {p : Int} {s : State} (h : ∀ c ∈ format, c ≠ 37) (hn : format.length ≤ n) :
    writeFormat n format p s = .ok () (s.writeText s.cos format) := by
  rw [writeText_eq]
  induction format generalizing n s with
  | nil => cases n <;> rfl
  | cons c rest ih =>
    obtain ⟨m, rfl⟩ : ∃ m, n = m + 1 := ⟨n - 1, by simp at hn; omega⟩
    unfold writeFormat
    dsimp only
    rw [if_pos (h c (by simp)), ih (fun x hx => h x (by simp [hx])) (by simpa using hn)]
    simp [State.writeChars]

end Sys2Proof.Machine
end

