-- ==== Sys2Proof/Laws/PerInstr.lean ====
section
/-! SUPPORT. What is said of every instruction as syntax, one lemma for each constructor. Family `Encoding`: the first cell the
encoder writes carries the row's opcode in its low three bits, and a second cell follows exactly when its bit `D` is set
(30_encoding.md R70, R71, R74). -/

namespace Sys2Proof.Laws.Encoding

/-- The opcode number of an instruction (R71). -/
def opcodeOf (i : Instr) : Nat :=
  match i with
  | .l _ => 0
  | .s _ => 1
  | .a _ => 2
  | .j _ => 3
  | .t _ => 4
  | .f _ => 5
  | .k _ => 6
  | .x _ => 7
  | .x1 | .x2 | .x3 | .x4 | .x5 | .x6 | .x7 | .x8 | .x9 | .x10 | .x11 | .x12 => 7
  | .x13 | .x14 | .x15 | .x16 | .x17 | .x18 | .x19 | .x20 | .x21 | .x22 | .x23 => 7

def Statement (i : Instr) : Prop :=
  ∃ w rest, encode i = w :: rest ∧ opcodeField w = opcodeOf i ∧ rest.length = if extendedBit w then 1 else 0

theorem cells (op : BitVec 3) (o : Operand) :
    ∃ w rest, encodeCells op o = w :: rest ∧ opcodeField w = op.toNat ∧ rest.length = if extendedBit w then 1 else 0 := by
  have hx := extendedBit_encodeWord op o
  have ho := opcodeField_encodeWord op o
  unfold encodeCells
  split <;> rename_i hl <;> rw [hl] at hx
  · exact ⟨_, _, rfl, ho, by rw [hx]; rfl⟩
  · exact ⟨_, _, rfl, ho, by rw [hx]; rfl⟩

theorem selector (k : Byte) :
    ∃ w rest, [selectorWord k] = w :: rest ∧ opcodeField w = 7 ∧ rest.length = if extendedBit w then 1 else 0 :=
  cells 7 ⟨false, false, .packed k⟩

theorem l (op : Operand) : Statement (.l op) := cells 0 op
theorem s (op : Operand) : Statement (.s op) := cells 1 op
theorem a (op : Operand) : Statement (.a op) := cells 2 op
theorem j (op : Operand) : Statement (.j op) := cells 3 op
theorem t (op : Operand) : Statement (.t op) := cells 4 op
theorem f (op : Operand) : Statement (.f op) := cells 5 op
theorem k (op : Operand) : Statement (.k op) := cells 6 op
theorem x (op : Operand) : Statement (.x op) := cells 7 op
theorem x1 : Statement .x1 := selector 1
theorem x2 : Statement .x2 := selector 2
theorem x3 : Statement .x3 := selector 3
theorem x4 : Statement .x4 := selector 4
theorem x5 : Statement .x5 := selector 5
theorem x6 : Statement .x6 := selector 6
theorem x7 : Statement .x7 := selector 7
theorem x8 : Statement .x8 := selector 8
theorem x9 : Statement .x9 := selector 9
theorem x10 : Statement .x10 := selector 10
theorem x11 : Statement .x11 := selector 11
theorem x12 : Statement .x12 := selector 12
theorem x13 : Statement .x13 := selector 13
theorem x14 : Statement .x14 := selector 14
theorem x15 : Statement .x15 := selector 15
theorem x16 : Statement .x16 := selector 16
theorem x17 : Statement .x17 := selector 17
theorem x18 : Statement .x18 := selector 18
theorem x19 : Statement .x19 := selector 19
theorem x20 : Statement .x20 := selector 20
theorem x21 : Statement .x21 := selector 21
theorem x22 : Statement .x22 := selector 22
theorem x23 : Statement .x23 := selector 23

end Sys2Proof.Laws.Encoding
end

