-- ==== Sys2Proof/Laws/Text.lean ====
section
/-! SUPPORT. Reading text: what the loader's `next()`, a run of characters and a numeral take from the current input stream. -/

namespace Sys2Proof.Machine

/-- The stream of a handle with unread text. -/
theorem unread_cons {h : Int} {s : State} {c : Byte} {rest : Text} (hu : s.unread h = c :: rest) :
    ∃ r st, s.recordNo h = some r ∧ s.records[r]? = some st ∧ st.content[st.position]? = some c ∧
      st.content.drop (st.position + 1) = rest := by
  unfold State.unread State.streamAt at hu
  cases hr : s.recordNo h with
  | none => simp [hr] at hu
  | some r =>
    cases hs : s.records[r]? with
    | none => simp [hr, hs] at hu
    | some st =>
      simp only [hr, hs, Option.bind_some] at hu
      refine ⟨r, st, rfl, hs, ?_, ?_⟩
      · have := congrArg List.head? hu
        simpa [List.head?_drop] using this
      · have := congrArg List.tail hu
        simpa [List.tail_drop] using this

/-- A read takes the first unread character, a carriage return as a line feed, and changes the stream's position alone. -/
theorem readChar_cons {h : Int} {s : State} {c : Byte} {rest : Text} (hu : s.unread h = c :: rest) :
    ∃ records, s.readChar h = (some (some (normalizeChar c)), { s with records := records }) ∧
      State.unread h { s with records := records } = rest := by
  obtain ⟨r, st, h1, h2, h3, h4⟩ := unread_cons hu
  refine ⟨s.records.set r { st with position := st.position + 1 }, by simp [State.readChar, h1, h2, h3], ?_⟩
  have hlt : r < s.records.length := by
    by_contra hc
    rw [List.getElem?_eq_none (by omega)] at h2
    cases h2
  have hr : State.recordNo h { s with records := s.records.set r { st with position := st.position + 1 } } = some r := h1
  simp [State.unread, State.streamAt, hr, hlt, h4]

/-- A read where no unread character is left gives none and changes nothing. -/
theorem readChar_nil {h : Int} {s : State} (hu : s.unread h = []) : (s.readChar h).1.join = none ∧ (s.readChar h).2 = s := by
  unfold State.unread State.streamAt at hu
  unfold State.readChar
  cases hr : s.recordNo h with
  | none => simp
  | some r =>
    cases hs : s.records[r]? with
    | none => simp [hs]
    | some st =>
      simp only [hr, hs, Option.bind_some] at hu
      have : st.content[st.position]? = none := List.getElem?_eq_none (List.drop_eq_nil_iff.mp hu)
      simp [hs, this]

/-- `CH <- next()`: the first unread character as it is read, or `ENDSTREAM` where none is left. -/
theorem nextChar_unread {s : State} {text : Text} (hu : s.unread s.cis = text) :
    ∃ records, nextChar s = { s with ch := text.head?.map normalizeChar, records := records } ∧
      State.unread s.cis { s with ch := text.head?.map normalizeChar, records := records } = text.tail := by
  cases text with
  | nil =>
    obtain ⟨h1, h2⟩ := readChar_nil hu
    exact ⟨s.records, by simp [nextChar, h1, h2], hu⟩
  | cons c rest =>
    obtain ⟨records, h1, h2⟩ := readChar_cons hu
    exact ⟨records, by simp [nextChar, h1], h2⟩

/-- A run of kept characters up to one that is not kept or the end of the text: the characters after `CH` as they are read. -/
theorem takeChars_run {keep : Byte → Bool} {n : Nat} {s : State} {c : Byte} {text rest : Text} (hch : s.ch = some c)
    (hc : keep c = true) (ht : ∀ x ∈ text, keep (normalizeChar x) = true)
    (hl : ∀ x, rest.head? = some x → keep (normalizeChar x) = false)
    (hu : s.unread s.cis = text ++ rest) (hn : text.length < n) :
    ∃ records, takeChars keep n s =
        (c :: text.map normalizeChar, { s with ch := rest.head?.map normalizeChar, records := records }) ∧
      State.unread s.cis { s with ch := rest.head?.map normalizeChar, records := records } = rest.tail := by
  induction text generalizing s c n with
  | nil =>
    obtain ⟨m, rfl⟩ : ∃ m, n = m + 1 := ⟨n - 1, by simp at hn; omega⟩
    obtain ⟨records, h1, h2⟩ := nextChar_unread hu
    refine ⟨records, ?_, h2⟩
    cases m with
    | zero => simp [takeChars, hch, hc, h1]
    | succ m =>
      cases hr : rest.head? with
      | none => simp [takeChars, hch, hc, h1, hr]
      | some x => simp [takeChars, hch, hc, h1, hr, hl x hr]
  | cons x text ih =>
    obtain ⟨m, rfl⟩ : ∃ m, n = m + 1 := ⟨n - 1, by omega⟩
    obtain ⟨records, h1, h2⟩ := nextChar_unread hu
    rw [← h1] at h2
    have hcis : (nextChar s).cis = s.cis := by rw [h1]
    obtain ⟨records', h3, h4⟩ := ih (n := m) (s := nextChar s) (c := normalizeChar x) (by rw [h1]; rfl) (ht x (by simp))
      (fun y hy => ht y (by simp [hy])) (by rw [hcis]; exact h2) (by simp at hn; omega)
    have he : ({ nextChar s with ch := rest.head?.map normalizeChar, records := records' } : State) =
        { s with ch := rest.head?.map normalizeChar, records := records' } := by rw [h1]
    rw [he] at h3 h4
    rw [hcis] at h4
    refine ⟨records', ?_, h4⟩
    rw [takeChars]
    simp [hch, hc, h3]

theorem normalizeChar_digit {c : Byte} (h : isDigit c = true) : normalizeChar c = c := by
  have : c ≠ 13 := by rintro rfl; simp [isDigit] at h
  exact if_neg this

theorem isDigit_normalizeChar {c : Byte} (h : isDigit c = false) : isDigit (normalizeChar c) = false := by
  unfold normalizeChar
  split
  · decide
  · exact h

/-- `rdn()` on a numeral (R104): its value, with `CH` the character after it, if one is left. -/
theorem readNumeral_run {s : State} {c : Byte} {digits rest : Text} (hch : s.ch = some c) (hc : isDigit c = true)
    (hd : ∀ x ∈ digits, isDigit x = true) (hl : ∀ x, rest.head? = some x → isDigit x = false)
    (hu : s.unread s.cis = digits ++ rest) (hv : digitsValue 0 (c :: digits) ≤ 65535) :
    ∃ records, readNumeral s =
        .ok (digitsValue 0 (c :: digits)) { s with ch := rest.head?.map normalizeChar, records := records } ∧
      State.unread s.cis { s with ch := rest.head?.map normalizeChar, records := records } = rest.tail := by
  have hmap : digits.map normalizeChar = digits := by
    conv_rhs => rw [← List.map_id digits]
    exact List.map_congr_left fun x hx => normalizeChar_digit (hd x hx)
  obtain ⟨records, h1, h2⟩ := takeChars_run (n := (s.unread s.cis).length + 1) hch hc
    (fun x hx => by rw [normalizeChar_digit (hd x hx)]; exact hd x hx) (fun x hx => isDigit_normalizeChar (hl x hx)) hu (by
      rw [hu, List.length_append]
      omega)
  refine ⟨records, ?_, h2⟩
  rw [hmap] at h1
  unfold readNumeral takeWhile
  rw [h1]
  simp [hv]

end Sys2Proof.Machine
end

