-- ==== Sys2Proof/Laws/Resolver.lean ====
section
/-! SUPPORT. One spec lemma for each operation of the label backpatch resolver: entries of the table, the emission of a cell, a
label reference, and the walk of a chain. -/

namespace Sys2Proof.Machine

theorem chainFrom_cons {s : State} {k : Int} {c : Nat} {rest : List Nat} (h : chainFrom s k (c :: rest) = true) :
    k = c ∧ c ≠ 0 ∧ validCell s.par c ∧ ∃ w, s.peekCell c = some w ∧ chainFrom s (sext16 w) rest = true := by
  rw [chainFrom] at h
  simp only [Bool.and_eq_true, decide_eq_true_eq] at h
  obtain ⟨⟨⟨h1, h2⟩, h3⟩, h4⟩ := h
  refine ⟨h1, h2, h3, ?_⟩
  cases hw : s.peekCell c with
  | none => simp [hw] at h4
  | some w => exact ⟨w, rfl, by simpa [hw] using h4⟩

/-- A chain is not touched by a write to a cell outside it. -/
theorem chainFrom_pokeCell {s : State} {k : Int} {cells : List Nat} {c : Nat} (w : Word) (h : chainFrom s k cells = true)
    (hc : c ∉ cells) : chainFrom (s.pokeCell c w) k cells = true := by
  induction cells generalizing k with
  | nil => exact h
  | cons d rest ih =>
    obtain ⟨rfl, h2, h3, v, hv, hr⟩ := chainFrom_cons h
    have hcd : d ≠ c := fun he => hc (by simp [he])
    have hp : (s.pokeCell c w).peekCell d = some v := by rw [peekCell_pokeCell_other hcd]; exact hv
    have hrest := ih hr (fun hm => hc (by simp [hm]))
    rw [chainFrom, hp]
    simp only [Bool.and_eq_true, decide_eq_true_eq]
    exact ⟨⟨⟨trivial, h2⟩, h3⟩, hrest⟩

/-- The walk of a chain of distinct cells ends, patches every one of them, and changes nothing else. -/
theorem patchChain_chain {label fuel : Nat} {k : Int} {s : State} {cells : List Nat} (h : chainFrom s k cells = true)
    (hn : cells.Nodup) (hf : cells.length < fuel) :
    ∃ t, patchChain label fuel k s = .ok () t ∧ t = { s with mem := t.mem } ∧
      (∀ c ∈ cells, t.peekCell c = some (trunc16 s.lc)) ∧ ∀ b, b / 2 ∉ cells → t.peekByte b = s.peekByte b := by
  induction cells generalizing k s fuel with
  | nil =>
    obtain ⟨m, rfl⟩ : ∃ m, fuel = m + 1 := ⟨fuel - 1, by simp at hf; omega⟩
    have hk : k = 0 := by simpa [chainFrom] using h
    exact ⟨s, by simp [patchChain, hk], rfl, by simp, by simp⟩
  | cons c rest ih =>
    obtain ⟨m, rfl⟩ : ∃ m, fuel = m + 1 := ⟨fuel - 1, by omega⟩
    obtain ⟨rfl, h2, h3, w, hw, hr⟩ := chainFrom_cons h
    obtain ⟨hc, hn'⟩ := List.nodup_cons.mp hn
    obtain ⟨t, ht1, ht2, ht3, ht4⟩ := ih (s := s.pokeCell c (trunc16 s.lc)) (fuel := m) (chainFrom_pokeCell _ hr hc) hn'
      (by simp at hf; omega)
    refine ⟨t, ?_, ?_, ?_, ?_⟩
    · rw [patchChain, if_neg (by omega), readCell_known h3 (by simpa using hw), bind_ok, writeCell_valid _ h3, bind_ok]
      exact ht1
    · rw [ht2]; rfl
    · intro d hd
      rcases List.mem_cons.mp hd with rfl | hd
      · unfold State.peekCell
        rw [ht4 _ (by rw [show 2 * d / 2 = d by omega]; exact hc), ht4 _ (by rw [show (2 * d + 1) / 2 = d by omega]; exact hc)]
        exact peekCell_pokeCell_same d (trunc16 s.lc) s
      · exact ht3 d hd
    · intro b hb
      rw [ht4 b (fun hm => hb (by simp [hm])), peekByte_pokeCell_other (fun he => hb (by simp [he]))]

/-- A chain has no more cells than there are valid addresses, so that the walk's fuel is enough. -/
theorem chainFrom_length {s : State} {k : Int} {cells : List Nat} (h : chainFrom s k cells = true) (hn : cells.Nodup) :
    cells.length < chainFuel := by
  have hv : ∀ c ∈ cells, c < 32768 := by
    clear hn
    induction cells generalizing k with
    | nil => simp
    | cons c rest ih =>
      obtain ⟨_, _, h3, w, _, hr⟩ := chainFrom_cons h
      intro d hd
      rcases List.mem_cons.mp hd with rfl | hd
      · have := h3.2
        unfold Params.addrLimit at this
        omega
      · exact ih hr d hd
  have hle := (hn.subperm (l₂ := List.range 32768) (fun c hc => List.mem_range.mpr (hv c hc))).length_le
  rw [List.length_range] at hle
  unfold chainFuel
  omega

end Sys2Proof.Machine
end

