-- ==== Sys2Proof/Tests/Slice0.lean ====
section
/-! SUPPORT. Tests of the model on values taken from spec/95_test_vectors.md (its vector's name stands in each comment) and from the
encoding tables, and for every statement with hypotheses a witness that meets them. -/

namespace Sys2Proof.Tests

open Sys2Proof Sys2Proof.Machine

/-! ## Helpers -/

/-- A running machine at cell 404 with frame base 500, `A` and `B` given, and these cells from 404 on: the start state of the vectors
of sections 3 to 6, with `M[503] = 600` and `M[600] = -7`. -/
def lab (code : List Word) (a b : Word) : State :=
  let s : State := { State.reset with run := .running, pc := 404, sp := 500, a := a, b := b }
  (State.pokeCells 404 code s).pokeCell 503 600 |>.pokeCell 600 0xFFF9

/-- The state after one step, where there is one. -/
def stepped (s : State) : Option State :=
  match step s with
  | .next t => some t
  | _ => none

/-- `A`, `PC` and `SP` after one step. -/
def regsAfter (code : List Word) (a b : Word) : Option (Word × Int × Int) :=
  (stepped (lab code a b)).map fun t => (t.a, t.pc, t.sp)

/-- `A` after one step of sub-operation `k`, `PC` and `B` being as they must be. -/
def aluAfter (k : Byte) (b a : Word) : Option (Word × Word × Int) :=
  (stepped (lab [selectorWord k] a b)).map fun t => (t.a, t.b, t.pc)

/-- The machine loading this text, with `CH` at its first character. -/
def loading (text : Text) : State :=
  beginAssemble { State.reset with records := [⟨text, 0, .read, none⟩, ⟨[], 0, .write, none⟩] }

/-- Loader steps. -/
def loadSteps (n : Nat) (s : State) : State :=
  match n with
  | 0 => s
  | k + 1 => match step s with
    | .next t => loadSteps k t
    | _ => s

/-! ## Well-formedness: the one check, with a term it refuses -/

theorem test_wf_x_usual_refused : (Instr.x ⟨false, false, .packed 8⟩).wf = false := by decide
theorem test_wf_x_others : (Instr.x ⟨false, false, .packed 0⟩).wf = true ∧ (Instr.x ⟨false, false, .packed 24⟩).wf = true ∧
    (Instr.x ⟨true, false, .packed 8⟩).wf = true ∧ (Instr.x ⟨false, false, .extended 8⟩).wf = true := by decide

/-! ## Decoding: words written out from 30_encoding.md R70, `nnnnnnnn--dpiooo` -/

theorem test_decode_l : decodeTableWord 16 0b00000011_00011_000 = some (.l ⟨true, true, .packed 3⟩) := by decide
theorem test_decode_s : decodeTableWord 16 0b00000011_00010_001 = some (.s ⟨false, true, .packed 3⟩) := by decide
theorem test_decode_a : decodeTableWord 16 0b11111111_00000_010 = some (.a ⟨false, false, .packed 255⟩) := by decide
theorem test_decode_j : decodeTableWord 16 0b00001001_00001_011 = some (.j ⟨true, false, .packed 9⟩) := by decide
theorem test_decode_t : decodeTableWord 16 0b00000000_00000_100 = some (.t ⟨false, false, .packed 0⟩) := by decide
theorem test_decode_f : decodeTableWord 16 0b10000000_00000_101 = some (.f ⟨false, false, .packed 128⟩) := by decide
theorem test_decode_k : decodeTableWord 16 0b00000101_00010_110 = some (.k ⟨false, true, .packed 5⟩) := by decide
theorem test_decode_x : decodeTableWord 16 0b00001000_00010_111 = some (.x ⟨false, true, .packed 8⟩) := by decide
theorem test_decode_extended : decodeTableWord 32 (0xFFFF * 65536 + 0b00000000_00110_000) = some (.l ⟨false, true, .extended 0xFFFF⟩) := by decide
theorem test_decode_x1_to_x12 : [263, 519, 775, 1031, 1287, 1543, 1799, 2055, 2311, 2567, 2823, 3079].map (decodeTableWord 16) =
    [some .x1, some .x2, some .x3, some .x4, some .x5, some .x6, some .x7, some .x8, some .x9, some .x10, some .x11, some .x12] := by decide
theorem test_decode_x13_to_x23 : [3335, 3591, 3847, 4103, 4359, 4615, 4871, 5127, 5383, 5639, 5895].map (decodeTableWord 16) =
    [some .x13, some .x14, some .x15, some .x16, some .x17, some .x18, some .x19, some .x20, some .x21, some .x22, some .x23] := by decide
theorem test_decode_rejects_short : decode [] = .error .noWord ∧ decode [0x20, 0x00, 0x05] = .error .noOperandCell := by decide

/-- The host's way in: the word placed after reset is the first instruction to run. -/
theorem test_withFetchWord : (stepped (State.reset.withFetchWord 16 0x0507)).map (fun t => (t.pc, t.run)) = some (402, .running) := by decide

/-! ## One step of each primary instruction -/

/-- V-A4 -/
theorem test_l_local : regsAfter [792] 0 0 = some (600, 405, 500) := by decide
/-- V-A6 -/
theorem test_l_signed : regsAfter [32, 65535] 0 0 = some (0xFFFF, 406, 500) := by decide
/-- V-P4 -/
theorem test_a_wraps : regsAfter [258] 32767 0 = some (0x8000, 405, 500) := by decide
/-- V-P6 -/
theorem test_a_indirect : regsAfter [794] 5 0 = some (605, 405, 500) := by decide
/-- V-P7 -/
theorem test_j : regsAfter [35, 440] 0 0 = some (0, 440, 500) := by decide
/-- V-P11 -/
theorem test_t_any_nonzero : regsAfter [36, 440] 256 0 = some (256, 440, 500) := by decide
/-- V-P10 -/
theorem test_t_zero : regsAfter [36, 440] 0 0 = some (0, 406, 500) := by decide
/-- V-P12 -/
theorem test_f_zero : regsAfter [37, 440] 0 0 = some (0, 440, 500) := by decide
/-- V-P13 -/
theorem test_f_nonzero : regsAfter [37, 440] 5 0 = some (5, 406, 500) := by decide
/-- V-P1 -/
theorem test_s_local : (stepped (lab [785] 0xFFFE 7)).map (fun t => (t.peekCell 503, t.a, t.b, t.pc)) = some (some 65534, 0xFFFE, 7, 405) := by
  decide
/-- V-P3 -/
theorem test_s_through_pointer : (stepped (lab [793] 9 0)).map (fun t => (t.peekCell 600, t.peekCell 503)) = some (some 9, some 600) := by decide
/-- V-P16: `SP` is added twice -/
theorem test_k_relative : (stepped (lab [1302] 430 0)).map (fun t => (t.peekCell 1005, t.peekCell 1006, t.sp, t.pc)) =
    some (some 500, some 405, 1005, 430) := by decide
/-- V-P17, V-P18: the threshold -/
theorem test_k_threshold : (stepped (lab [1286] 401 0)).map (fun t => t.pc) = some 401 ∧
    (stepped (lab [1286] 400 0)).map (fun t => (t.pc, t.run)) = some (405, .halted (.unknownCall 400)) := by decide

/-! ## One step of each sub-operation -/

/-- V-X1 -/
theorem test_x1 : aluAfter 1 0 600 = some (0xFFF9, 0, 405) := by decide
/-- V-X4 -/
theorem test_x4 : (stepped (State.pokeCells 500 [490, 421] (lab [1031] 9 8))).map (fun t => (t.a, t.b, t.pc, t.sp)) =
    some (9, 8, 421, 490) := by decide

/-- V-X2b -/
theorem test_x2 : aluAfter 2 0 0x8000 = some (0x8000, 0, 405) := by decide
/-- V-X3a -/
theorem test_x3 : aluAfter 3 0 0x00F0 = some (0xFF0F, 0, 405) := by decide
/-- V-X5a -/
theorem test_x5 : aluAfter 5 300 300 = some (24464, 300, 405) := by decide
/-- V-X5b -/
theorem test_x5b : aluAfter 5 0x8000 0xFFFF = some (0x8000, 0x8000, 405) := by decide
/-- V-X6b -/
theorem test_x6 : aluAfter 6 0xFFF9 2 = some (0xFFFD, 0xFFF9, 405) := by decide
/-- V-X6e -/
theorem test_x6b : aluAfter 6 5 0 = some (0, 5, 405) := by decide
/-- V-X7b -/
theorem test_x7 : aluAfter 7 0xFFF9 2 = some (0xFFFF, 0xFFF9, 405) := by decide
/-- V-X7c -/
theorem test_x7b : aluAfter 7 7 0xFFFE = some (1, 7, 405) := by decide
/-- V-X8b -/
theorem test_x8 : aluAfter 8 32767 1 = some (0x8000, 32767, 405) := by decide
/-- V-X9a -/
theorem test_x9 : aluAfter 9 36 4 = some (32, 36, 405) := by decide
/-- V-X10a -/
theorem test_x10 : aluAfter 10 3 3 = some (0xFFFF, 3, 405) := by decide
/-- V-X11a -/
theorem test_x11 : aluAfter 11 3 4 = some (0xFFFF, 3, 405) := by decide
/-- V-X12a -/
theorem test_x12 : aluAfter 12 0xFFFF 0 = some (0xFFFF, 0xFFFF, 405) := by decide
/-- V-X12c -/
theorem test_x12b : aluAfter 12 0x8000 0x7FFF = some (0xFFFF, 0x8000, 405) := by decide
/-- V-X13a -/
theorem test_x13 : aluAfter 13 5 5 = some (0xFFFF, 5, 405) := by decide
/-- V-X13b -/
theorem test_x13b : aluAfter 13 4 5 = some (0, 4, 405) := by decide
/-- V-X14a -/
theorem test_x14 : aluAfter 14 5 5 = some (0, 5, 405) := by decide
/-- V-X14b -/
theorem test_x14b : aluAfter 14 0x7FFF 0x8000 = some (0xFFFF, 0x7FFF, 405) := by decide
/-- V-X15b -/
theorem test_x15 : aluAfter 15 2 2 = some (0xFFFF, 2, 405) := by decide
/-- V-X15c -/
theorem test_x15b : aluAfter 15 3 2 = some (0, 3, 405) := by decide
/-- V-X16a -/
theorem test_x16 : aluAfter 16 0x4001 1 = some (0x8002, 0x4001, 405) := by decide
/-- V-X16b -/
theorem test_x16b : aluAfter 16 1 15 = some (0x8000, 1, 405) := by decide
/-- V-X17a -/
theorem test_x17 : aluAfter 17 0xFFFE 1 = some (0x7FFF, 0xFFFE, 405) := by decide
/-- V-X17b -/
theorem test_x17b : aluAfter 17 0xFFFF 15 = some (1, 0xFFFF, 405) := by decide
/-- V-X18a -/
theorem test_x18 : aluAfter 18 0x0FF0 0x00FF = some (0x00F0, 0x0FF0, 405) := by decide
/-- V-X19 -/
theorem test_x19 : aluAfter 19 0x0F00 0x00F0 = some (0x0FF0, 0x0F00, 405) := by decide
/-- V-X20a -/
theorem test_x20 : aluAfter 20 0x0FF0 0x00FF = some (0x0F0F, 0x0FF0, 405) := by decide
/-- V-X21a -/
theorem test_x21 : aluAfter 21 0x0FF0 0x00FF = some (0xF0F0, 0x0FF0, 405) := by decide
/-- V-X16e: the amount 16 gives no value, and the instruction runs -/
theorem test_x16_out_of_range : (stepped (lab [4103] 16 1)).map (fun t => (t.b, t.pc, t.run)) = some (1, 405, .running) := by decide
/-- V-X22 -/
theorem test_x22 : (stepped (lab [5639] 9 0)).map (fun t => (t.run, t.a, t.pc)) = some (.stopped 0, 9, 405) := by decide
/-- V-X23a, V-X23c -/
theorem test_x23 : (stepped (lab [5895, 2, 450, 10, 460, 20, 470] 20 0)).map (fun t => (t.pc, t.a)) = some (470, 20) ∧
    (stepped (lab [5895, 2, 450, 10, 460, 20, 470] 11 0)).map (fun t => t.pc) = some 450 := by decide
/-- V-X23e: the first match wins -/
theorem test_x23_first : (stepped (lab [5895, 2, 450, 5, 460, 5, 470] 5 0)).map (fun t => t.pc) = some 460 := by decide
/-- V-X0, V-Xneg -/
theorem test_x_unknown : (stepped (lab [7] 0 0)).map (fun t => (t.run, t.pc)) = some (.halted (.unknownSelector 0), 405) ∧
    (stepped (lab [39, 65535] 0 0)).map (fun t => (t.run, t.pc)) = some (.halted (.unknownSelector (-1)), 406) := by decide
/-- R78: a selector in the extended cell selects like the packed one -/
theorem test_x_extended : (stepped (lab [39, 8] 5 7)).map (fun t => (t.a, t.pc)) = some (12, 406) := by decide

/-! ## System calls: `K5` at 404, so the argument base is 507 -/

/-- V-S1 -/
theorem test_stop : (stepped ((lab [1286] 30 0).pokeCell 507 3)).map (fun t => t.run) = some (.stopped 3) := by decide
/-- V-S2 -/
theorem test_level : regsAfter [1286] 31 0 = some (500, 405, 500) := by decide
/-- V-S3 -/
theorem test_longJump : (stepped (State.pokeCells 507 [505, 440] (lab [1286] 32 0))).map (fun t => (t.sp, t.pc)) = some (505, 440) := by
  decide
/-- V-S4 -/
theorem test_aptOvec : (stepped (State.pokeCells 507 [430, 9] (lab [1286] 40 0))).map (fun t =>
    (t.sp, t.pc, [515, 516, 517, 518].map t.peekCell)) = some (515, 430, [some 500, some 405, some 505, some 9]) := by decide
/-- V-S7: byte 3 of the string at 600 is the high half of cell 601 -/
theorem test_getByte : (stepped (State.pokeCells 507 [600, 3] ((lab [1286] 85 0).pokeCell 601 0x4241))).map (fun t => t.a) = some 66 := by
  decide
/-- V-S9: the low 8 bits of 511 are stored -/
theorem test_putByte : (stepped (State.pokeCells 507 [600, 0, 511] ((lab [1286] 86 0).pokeCell 600 18434))).map (fun t => t.peekCell 600) =
    some (some 0x48FF) := by decide
/-- R233, property S6: a character to the default output -/
theorem test_wrch : (stepped ((lab [1286] 14 0).pokeCell 507 72)).map (fun t => (t.live, t.pc)) = some ([72], 405) := by decide
/-- Property S5: `ReadN` of `  -42abc` -/
theorem test_readN : (stepped { lab [1286] 70 0 with records := [⟨[32, 32, 45, 52, 50, 97, 98, 99], 0, .read, none⟩, ⟨[], 0, .write, none⟩] }).map
    (fun t => (t.a, t.peekCell 71)) = some (0xFFD6, some 97) := by decide

/-! ## The loader -/

/-- V-L2: `LIP3` -/
theorem test_load_packed : (loadSteps 1 (loading [76, 73, 80, 51])).peekCell 404 = some 792 := by decide
/-- V-L8: `A256` -/
theorem test_load_extended : (fun t => (t.peekCell 404, t.peekCell 405, t.lc)) (loadSteps 1 (loading [65, 50, 53, 54])) =
    (some 34, some 256, 406) := by decide
/-- V-L20b: `DL7 7` -/
theorem test_load_forward : (fun t => (t.peekCell 404, t.labelEntry 7)) (loadSteps 3 (loading [68, 76, 55, 32, 55])) =
    (some 405, -405) := by decide
/-- V-L17: `C2 C72 C73` -/
theorem test_load_bytes : (fun t => (t.peekCell 404, t.peekCell 405)) (loadSteps 5 (loading [67, 50, 32, 67, 55, 50, 32, 67, 55, 51])) =
    (some 18434, some 73) := by decide
/-- V-L25: `5 5` -/
theorem test_load_duplicate : (loadSteps 3 (loading [53, 32, 53])).run = .halted (.duplicateLabel 5) := by decide
/-- V-L26: `JL3 Z`, with a small label table -/
theorem test_load_unset : (loadSteps 3 { loading [74, 76, 51, 32, 90] with par := { Params.standard with labelCount := 8 } }).run = .halted (.unsetLabel 3) := by decide

/-! ## Formatted output and byte writes (44_syscall_port.md R230, R234; 20_memory.md R44) -/

/-- Octal 8 in 3 digits, most significant first: `010`. -/
theorem test_writeOct : (stepped (State.pokeCells 507 [8, 3] (lab [1286] 77 0))).map State.live = some [48, 49, 48] := by decide
/-- Hexadecimal 0x1234 in 2 digits: the low two. -/
theorem test_writeHex : (stepped (State.pokeCells 507 [0x1234, 2] (lab [1286] 75 0))).map State.live = some [51, 52] := by decide
/-- A byte write into a cell nothing has written fixes the other half too. -/
theorem test_putByte_unwritten : (stepped (State.pokeCells 507 [700, 1, 65] (lab [1286] 86 0))).map (fun t =>
    (t.peekByte 1401, (t.peekByte 1400).isSome)) = some (some 65, true) := by decide

/-! ## Witnesses: for each statement with hypotheses, values that meet them, one for each clause -/

/-- A packed operand without modifiers. -/
def lit (n : Byte) : Operand := ⟨false, false, .packed n⟩

/-- An extended operand through memory. -/
def via (w : Word) : Operand := ⟨true, false, .extended w⟩

/-- A `K5` of service `n` in frame 500, its arguments from 507 on. -/
def call (n : Word) (arguments : List Word) : State := State.pokeCells 507 arguments (lab [] n 0)

/-- The machine started at the trampoline with entry address 404. -/
def booted : State := (State.start { State.reset with lc := 420 }).pokeCell 1 404

/-- A machine with text on the default input and a small label table. -/
def reading (text : Text) (s : State) : State :=
  { s with par := { Params.standard with labelCount := 8 }, records := [⟨text, 0, .read, none⟩, ⟨[], 0, .write, none⟩] }

theorem witness_DecodeEncodeRoundTrip :
    (Instr.x ⟨true, true, .extended 0xFFFF⟩).wf = true ∧ (Instr.k (lit 255)).wf = true ∧ Instr.x23.wf = true := by decide
theorem witness_EncodeDecodeCanonical :
    ((0x03C0 : Word) &&& 0x003F = 0x0300 &&& 0x003F ∧ (0x03C0 : Word).getLsbD 5 = false ∧ (0x03C0 : Word) &&& 0xFF00 = 0x0300 &&& 0xFF00) ∧
    (0xFF20 : Word) &&& 0x003F = 0x0020 &&& 0x003F ∧ (0xFF20 : Word).getLsbD 5 = true := by decide
theorem witness_StepRunsStoredInstruction : (lab [32, 5] 0 0).run = .running ∧ holdsCells (lab [32, 5] 0 0) 404 [32, 5] = true ∧
    decode (bytesOfCells [32, 5]) = .ok (.l ⟨false, false, .extended 5⟩, []) := by decide
theorem witness_EncodedInstructionRuns : (Instr.s (via 9)).wf = true ∧ (lab (encode (.s (via 9))) 0 0).run = .running ∧
    holdsCells (lab (encode (.s (via 9))) 0 0) 404 (encode (.s (via 9))) = true := by decide
theorem witness_EveryFetchRunsAnInstruction : (lab [] 0 0).run = .running ∧ validCell (lab [] 0 0).par 32766 ∧
    validCell (lab [] 0 0).par (32766 + 1) := by decide
theorem witness_FetchOutsideMemoryFaults : (lab [] 0 0).run = .running ∧ ¬ validCell (lab [] 0 0).par 32768 ∧
    holdsCells ((lab [] 0 0).pokeCell 32767 32) 32767 [32] = true ∧ (32 : Word).getLsbD 5 = true ∧
    ¬ validCell (lab [] 0 0).par (32767 + 1) := by decide
theorem witness_EndedRunTakesNoStep : ({ lab [] 0 0 with run := .stopped 7 } : State).run = .stopped 7 ∧
    ({ lab [] 0 0 with run := .halted .badCode } : State).run = .halted .badCode := by decide
theorem witness_EffectiveOperand : holdsCells (lab [] 0 0) 503 [600] = true ∧ validCell (lab [] 0 0).par 32767 ∧
    (lab [] 0 0).peekCell 32767 = none ∧ ¬ validCell (lab [] 0 0).par (-1) := by decide
theorem witness_CellReadAfterWrite : validCell (lab [] 0 0).par 0 ∧ validCell (lab [] 0 0).par 32767 ∧
    holdsCells (lab [] 0 0) 503 [600] = true := by decide
theorem witness_BytesOfACell : holdsCells (lab [] 0 0) (1006 / 2) [600] = true ∧ (1006 : Int) % 2 = 0 ∧
    holdsCells (lab [] 0 0) (1007 / 2) [600] = true ∧ (1007 : Int) % 2 = 1 ∧ validCell (lab [] 0 0).par (65535 / 2) ∧
    (lab [] 0 0).peekByte 65535 = none := by decide
theorem witness_AccessOutsideMemoryFaults : ¬ validCell Params.standard (-1) ∧ ¬ validCell Params.standard 32768 ∧
    ¬ validCell Params.standard (-1 / 2) ∧ ¬ validCell Params.standard (65536 / 2) := by decide
theorem witness_StoreIsSeenByFetch : validCell (lab [] 0 0).par 404 ∧ validCell (lab [] 0 0).par (404 + 1) ∧
    writeCell 404 32 (lab [] 0 0) = .ok () ((lab [] 0 0).pokeCell 404 32) := by decide
theorem witness_ResetMemory : State.reset.mem = [] ∧ 400 < State.reset.par.progStart ∧
    State.reset.par.bootImage[401 - State.reset.par.progStart]? = some 264 ∧
    State.reset.par.bootImage[403 - State.reset.par.progStart]? = some 5639 ∧
    State.reset.par.progStart + State.reset.par.bootImage.length ≤ 404 := by decide
theorem witness_DriverSteps : State.reset.run = .reset ∧ State.reset.config = [] ∧
    ({ State.reset with config := [.load [88]] } : State).config = .load [88] :: [] ∧ reservedHandle State.reset.par [88] = none ∧
    lookupFile [88] State.reset.files = none := by decide
theorem witness_BootTrampoline : booted.run = .running ∧ booted.pc = booted.par.progStart ∧
    holdsCells booted booted.pc [BitVec.ofNat 16 (256 * 1 + 8), 518, 5639] = true ∧ holdsCells booted 1 [404] = true ∧
    (booted.par.progStart : Int) ≤ sext16 404 ∧ validCell booted.par (booted.sp + 2) ∧ validCell booted.par (booted.sp + 3) := by decide
/-- The same through slot 255, the last one. -/
def bootedLast : State := (booted.pokeCell 401 0xFF08).pokeCell 255 401
theorem witness_BootTrampoline_last : holdsCells bootedLast bootedLast.pc [BitVec.ofNat 16 (256 * 255 + 8), 518, 5639] = true ∧
    holdsCells bootedLast 255 [401] = true ∧ (bootedLast.par.progStart : Int) ≤ sext16 401 := by decide
theorem witness_BootWithoutProgram : (State.start State.reset).run = .running ∧
    (State.start State.reset).pc = (State.start State.reset).par.progStart ∧
    holdsCells (State.start State.reset) 401 [264, 518, 5639] = true ∧ holdsCells (State.start State.reset) 1 [1] = true ∧
    sext16 1 < (State.start State.reset).par.progStart ∧ (State.start State.reset).par.serviceOf (sext16 1) = none ∧
    holdsCells ((State.start State.reset).pokeCell 1 400) 1 [400] = true ∧ sext16 400 < Params.standard.progStart ∧
    Params.standard.serviceOf (sext16 400) = none := by decide
theorem witness_StepKeepsInvariant : State.reset.Inv ∧ ∃ t, step State.reset = .next t := ⟨by decide, _, rfl⟩
theorem witness_EngineLeavesLoaderState : (lab [1286] 430 0).run = .running ∧ ∃ t, step (lab [1286] 430 0) = .next t :=
  ⟨rfl, _, rfl⟩
theorem witness_WaysOutOfRunning : (lab [5639] 0 0).run = .running ∧ ∃ t, step (lab [5639] 0 0) = .next t := ⟨rfl, _, rfl⟩
theorem witness_RegisterWriters : (∃ t, exec .x2 (lab [] 0 0) = .next t) ∧ (∃ t, exec (.s (lit 9)) (lab [] 0 0) = .next t) ∧
    ∃ t, exec (.l (lit 9)) (lab [] 0 0) = .next t := ⟨⟨_, rfl⟩, ⟨_, rfl⟩, _, rfl⟩
theorem witness_MemoryAndStreamWriters : (∃ t, exec .x22 (lab [] 0 0) = .next t) ∧ ∃ t, exec (.x (lit 0)) (lab [] 0 0) = .next t :=
  ⟨⟨_, rfl⟩, _, rfl⟩
theorem witness_LoadResult : operandReady (lit 255) (lab [] 0 0) ∧ operandReady (via 32767) (lab [] 0 0) ∧
    ¬ operandReady (via 32768) (lab [] 0 0) := by decide
theorem witness_StoreResult : operandReady (lit 0) (lab [] 0 0) ∧ operandReady (via 600) (lab [] 0 0) ∧
    validCell (lab [] 0 0).par 0 ∧ ¬ validCell (lab [] 0 0).par (-7) ∧ ¬ operandReady (via 32768) (lab [] 0 0) := by decide
theorem witness_AddImmediateResult : operandReady (via 503) (lab [] 5 0) ∧ ¬ operandReady (via 32768) (lab [] 5 0) := by decide
theorem witness_JumpResults : operandReady (via 503) (lab [] 0 0) ∧ (lab [] 0 0).a = 0 ∧ (lab [] 256 0).a ≠ 0 ∧
    ¬ operandReady (via 0xFFFF) (lab [] 0 0) := by decide
theorem witness_GenuineCall : operandReady (lit 5) (lab [] 401 0) ∧ ((lab [] 401 0).par.progStart : Int) ≤ sext16 (lab [] 401 0).a ∧
    validCell (lab [] 401 0).par (500 + 5) ∧ validCell (lab [] 401 0).par (500 + 5 + 1) ∧
    ¬ validCell (lab [] 401 0).par (500 + 32268) ∧ validCell (lab [] 401 0).par (500 + 32267) ∧
    ¬ validCell (lab [] 401 0).par (500 + 32267 + 1) ∧ ¬ operandReady (via 32768) (lab [] 401 0) := by decide
theorem witness_UnknownCall : operandReady (lit 5) (lab [] 400 0) ∧ sext16 400 < (lab [] 400 0).par.progStart ∧
    (lab [] 400 0).par.serviceOf (sext16 400) = none ∧ sext16 0xFFFF < (lab [] 0xFFFF 0).par.progStart ∧
    (lab [] 0xFFFF 0).par.serviceOf (sext16 0xFFFF) = none := by decide
theorem witness_ReturnUndoesCall : ((lab [] 430 0).par.progStart : Int) ≤ sext16 430 ∧
    (∃ t, exec (.k (lit 5)) (lab [] 430 0) = .next t) ∧ (0 : Int) ≤ (lab [] 430 0).pc ∧ (lab [] 430 0).pc < 32768 ∧
    0 ≤ (lab [] 430 0).sp ∧ (lab [] 430 0).sp < 32768 := ⟨by decide, ⟨_, rfl⟩, by decide, by decide, by decide, by decide⟩
theorem witness_ExtendedSelects : selectorRow 1 = some .x1 ∧ selectorRow 23 = some .x23 ∧
    operand ⟨false, false, .extended 23⟩ (lab [] 0 0) = .ok ((23 : Nat) : Int) (lab [] 0 0) ∧ selectorRow 22 = some .x22 ∧
    ¬ operandReady (via 0xFFFF) (lab [] 0 0) := by decide
theorem witness_UnknownSelector : operand (lit 0) (lab [] 0 0) = .ok 0 (lab [] 0 0) ∧ (0 : Int) < 1 ∧
    operand (lit 24) (lab [] 0 0) = .ok 24 (lab [] 0 0) ∧ (23 : Int) < 24 := by decide
theorem witness_IndirectFetch : validCell (lab [] 0 0).par (sext16 32767) ∧ ¬ validCell (lab [] 0 0).par (sext16 0xFFFF) := by decide
theorem witness_ReturnResult : holdsCells (State.pokeCells 500 [490, 421] (lab [] 0 0)) 500 [490, 421] = true ∧
    validCell (lab [] 0 0).par 32766 ∧ validCell (lab [] 0 0).par (32766 + 1) ∧ ¬ validCell (lab [] 0 0).par (32767 + 1) ∧
    validCell (lab [] 0 0).par (-1 + 1) ∧ ¬ validCell (lab [] 0 0).par (-1) := by decide
theorem witness_DivisionResults : (lab [] 0 5).a = 0 ∧ (lab [] 0xFFFF 0x8000).a ≠ 0 := by decide
theorem witness_ShiftResults : (lab [] 0 1).a.toInt = (0 : Nat) ∧ (lab [] 15 1).a.toInt = (15 : Nat) ∧ (lab [] 0xFFFF 1).a.toInt < 0 ∧
    15 < (lab [] 16 1).a.toInt := by decide
theorem witness_SwitchResult_default :
    (∀ e ∈ [((10 : Word), (460 : Word))], e.1 ≠ (lab [1, 450, 10, 460] 11 0).a) ∧ (1 : Word).toInt = ([((10 : Word), (460 : Word))].length : Int) ∧
    holdsCells (lab [1, 450, 10, 460] 11 0) 404 [1, 450, 10, 460] = true := by
  refine ⟨?_, by decide, rfl⟩
  simp only [List.mem_singleton, forall_eq]
  decide
theorem witness_SwitchResult_empty :
    (0 : Word).toInt = (([] : List (Word × Word)).length : Int) ∧ holdsCells (lab [0, 450] 3 0) 404 [0, 450] = true := by decide
theorem witness_SwitchResult_match :
    (([] : List (Word × Word)).length : Int) < (1 : Word).toInt ∧
    holdsCells (lab [1, 450, 10, 460] 10 0) 404 ([1, 450] ++ [10, 460]) = true := by decide
/-- A switch table whose one pair has its value in the last cell of memory. -/
def edgeSwitch : State := State.pokeCells 32765 [1, 450, 10] { lab [] 11 0 with pc := 32765 }
theorem witness_SwitchResult_edge : (10 : Word) ≠ edgeSwitch.a ∧ (1 : Word).toInt = (([] : List (Word × Word)).length : Int) + 1 ∧
    holdsCells edgeSwitch 32765 ([1, 450] ++ [10]) = true ∧ ¬ validCell edgeSwitch.par (32765 + ([1, 450] : List Word).length + 1) := by decide
/-- 43_extended_ops.md R203: the target cell of a pair that does not match need not exist. -/
theorem test_x23_missing_target : ∃ w m, exec .x23 edgeSwitch = .next { edgeSwitch with pc := 450, b := w, draws := m } := ⟨_, _, rfl⟩
theorem witness_SwitchResult_negative :
    (0xFFFF : Word).toInt < 0 ∧ holdsCells (lab [0xFFFF, 450] 3 0) 404 [0xFFFF, 450] = true := by decide
theorem witness_StopAndLevel : callsService .stop (lit 5) 507 (call 30 [3]) (call 30 [3]) ∧ validCell (call 30 [3]).par 507 ∧
    callsService .stop ⟨false, false, .extended 32266⟩ 32768 (call 30 []) (call 30 []) ∧ ¬ validCell (call 30 []).par 32768 ∧
    callsService .level (lit 5) 507 (call 31 []) (call 31 []) := by decide
theorem witness_LongJump : callsService .longJump (lit 5) 507 (call 32 [505, 440]) (call 32 [505, 440]) ∧
    holdsCells (call 32 [505, 440]) 507 [505, 440] = true ∧
    callsService .longJump ⟨false, false, .extended 32266⟩ 32768 (call 32 []) (call 32 []) ∧ ¬ validCell (call 32 []).par 32768 ∧
    callsService .longJump ⟨false, false, .extended 32265⟩ 32767 (call 32 []) (call 32 []) ∧ validCell (call 32 []).par 32767 := by decide
theorem witness_AptOvec : callsService .aptOvec (lit 5) 507 (call 40 [430, 0]) (call 40 [430, 0]) ∧
    holdsCells (call 40 [430, 0]) 507 [430, 0] = true ∧ 0 ≤ (0 : Word).toInt ∧ validCell (call 40 []).par 506 ∧
    validCell (call 40 []).par (506 + 3) ∧ callsService .aptOvec (lit 5) 507 (call 40 [430, 0xFFFF]) (call 40 [430, 0xFFFF]) ∧
    holdsCells (call 40 [430, 0xFFFF]) 507 [430, 0xFFFF] = true ∧ (0xFFFF : Word).toInt < 0 := by decide
theorem witness_ByteServices : callsService .getByte (lit 5) 507 (call 85 [600, 1]) (call 85 [600, 1]) ∧
    holdsCells (call 85 [600, 1]) 507 [600, 1] = true ∧ (call 85 [600, 1]).peekByte 1201 = some 0xFF ∧
    holdsCells (call 85 [700, 1]) 507 [700, 1] = true ∧ (call 85 [700, 1]).peekByte 1401 = none ∧ validCell (call 85 []).par (1401 / 2) ∧
    validCell (call 85 []).par (1201 / 2) ∧ ¬ validCell (call 85 []).par ((2 * 0 + -1) / 2) ∧
    holdsCells (call 85 [0, 0xFFFF]) 507 [0, 0xFFFF] = true ∧
    callsService .putByte (lit 5) 507 (call 86 [32767, 1, 511]) (call 86 [32767, 1, 511]) ∧
    holdsCells (call 86 [32767, 1, 511]) 507 [32767, 1, 511] = true ∧ validCell (call 86 []).par (65535 / 2) := by decide
theorem witness_HandleServices : callsService .abort (lit 5) 507 (call 3 []) (call 3 []) ∧
    callsService .backtrace (lit 5) 507 (call 4 []) (call 4 []) ∧ callsService .selectInput (lit 5) 507 (call 11 [2]) (call 11 [2]) ∧
    callsService .selectOutput (lit 5) 507 (call 12 [2]) (call 12 [2]) ∧ holdsCells (call 12 [2]) 507 [2] = true ∧
    callsService .input (lit 5) 507 (call 16 []) (call 16 []) ∧ callsService .output (lit 5) 507 (call 17 []) (call 17 []) ∧
    callsService .endRead (lit 5) 507 (call 46 []) (call 46 []) ∧ callsService .endWrite (lit 5) 507 (call 47 []) (call 47 []) ∧
    holdsCells (call 11 [2]) 507 [2] = true := by decide
theorem witness_ReadCharacter : callsService .rdch (lit 5) 507 (reading [13] (call 13 [])) (reading [13] (call 13 [])) ∧
    (reading [13] (call 13 [])).recordNo (reading [13] (call 13 [])).cis = some 0 ∧
    (reading [13] (call 13 [])).records[0]? = some ⟨[13], 0, .read, none⟩ ∧ [(13 : Byte)][0]? = some 13 ∧
    (reading [] (call 13 [])).records[0]? = some ⟨[], 0, .read, none⟩ ∧ ([] : Text)[0]? = none := by decide
theorem witness_OutputServices_streams : (call 14 [255]).recordNo (call 14 [255]).cos = some 1 ∧
    (call 14 [255]).records[1]? = some ⟨[], 0, .write, none⟩ ∧
    (call 14 [255]).recordNo (call 14 [255]).par.defaultOutput = some 1 := by decide
theorem witness_OutputServices_characters : callsService .wrch (lit 5) 507 (call 14 [255]) (call 14 [255]) ∧
    holdsCells (call 14 [255]) 507 [(255 : Byte).setWidth 16] = true ∧
    callsService .newLine (lit 5) 507 (call 63 []) (call 63 []) := by decide
/-- The same call with a named write stream for the output. -/
def namedOutput : State := { call 14 [255] with records := [⟨[], 0, .read, none⟩, ⟨[], 0, .write, some [88]⟩] }
theorem witness_OutputServices_names : namedOutput.recordNo namedOutput.cos = some 1 ∧
    namedOutput.records[1]? = some ⟨[], 0, .write, some [88]⟩ ∧ ([89] : Name) ≠ [88] ∧
    callsService .wrch (lit 5) 507 namedOutput namedOutput ∧
    holdsCells namedOutput 507 [(255 : Byte).setWidth 16] = true := by decide
/-- A call of service `n` on the packed string of the two characters `H` and `I` at cell 700. -/
def printing (n : Word) : State := State.pokeCells 700 [18434, 73] (call n [700])
theorem witness_OutputServices_strings : callsService .writeS (lit 5) 507 (printing 60) (printing 60) ∧
    callsService .writeF (lit 5) 507 (printing 76) (printing 76) ∧ (printing 76).par.formatInline = true ∧
    validCell (printing 76).par (507 + 1) ∧ holdsCells (printing 60) 507 [700] = true ∧
    holdsPacked (printing 60) ((700 : Word).toInt) [72, 73] = true ∧ holdsPacked (printing 76) ((700 : Word).toInt) [72, 73] = true ∧
    ∀ x ∈ ([72, 73] : List Byte), x ≠ 37 := by decide
theorem witness_OutputServices_numbers : callsService .writeN (lit 5) 507 (call 62 [0x8000]) (call 62 [0x8000]) ∧
    holdsCells (call 62 [0x8000]) 507 [0x8000] = true ∧
    callsService .writeOct (lit 5) 507 (call 77 [32767, 5]) (call 77 [32767, 5]) ∧
    callsService .writeHex (lit 5) 507 (call 75 [0, 0]) (call 75 [0, 0]) ∧
    holdsCells (call 77 [32767, 5]) 507 (if (call 77 []).par.numberFirst then [32767, 5] else [5, 32767]) = true ∧
    0 ≤ (32767 : Word).toInt ∧ 0 ≤ (5 : Word).toInt ∧ 0 ≤ (0 : Word).toInt := by decide
theorem witness_ReadNumber :
    let s := reading [32, 32, 45, 52, 50, 97, 98, 99] (call 70 [])
    callsService .readN (lit 5) 507 s s ∧ (s.streamAt s.cis).isSome = true ∧ validCell s.par s.par.terminatorCell ∧
    (∀ x ∈ ([32, 32] : List Byte), x = 32) ∧ (∀ x ∈ ([52, 50] : List Byte), 48 ≤ x.toNat ∧ x.toNat ≤ 57) ∧ 57 < (97 : Byte).toNat ∧
    (97 : Byte) ≠ 13 ∧ s.unread s.cis = [32, 32] ++ [45] ++ [52, 50] ++ 97 :: [98, 99] := by decide
/-- A call of service `n` on the packed name of the one character `X` at cell 600. -/
def opening (n : Word) : State := (call n [600]).pokeCell 600 0x5801
theorem witness_OpenByName_arguments : callsService .findInput (lit 5) 507 (opening 42) (opening 42) ∧
    callsService .findOutput (lit 5) 507 (opening 41) (opening 41) ∧
    holdsCells (opening 42) 507 [600] = true ∧ holdsPacked (opening 42) ((600 : Word).toInt) [88] = true ∧
    holdsCells (opening 41) 507 [600] = true ∧ holdsPacked (opening 41) ((600 : Word).toInt) [88] = true := by decide
theorem witness_OpenByName_names : reservedHandle Params.standard [88] = none ∧ lookupFile [88] [] = none ∧
    lookupFile [88] [([120], [65])] = some [65] := by decide
/-- A call of service `n` on the packed name `SYSIN` at cell 600. -/
def openingReserved (n : Word) : State := State.pokeCells 600 [21253, 21337, 20041] (call n [600])
theorem witness_OpenByName_reserved : holdsPacked (openingReserved 42) ((600 : Word).toInt) [83, 89, 83, 73, 78] = true ∧
    reservedHandle (openingReserved 42).par [83, 89, 83, 73, 78] = some 1 ∧
    holdsPacked (openingReserved 41) ((600 : Word).toInt) [83, 89, 83, 73, 78] = true := by decide
/-- A call of `PackString` on the string of the one character `X` at cell 700. -/
def packing : State := State.pokeCells 700 [1, 88] (call 66 [700, 800])
theorem witness_StringServices_pack : callsService .packString (lit 5) 507 packing packing ∧
    holdsCells packing 507 (if packing.par.packSourceFirst then [700, 800] else [800, 700]) = true ∧
    holdsCells packing 700 [1, (88 : Byte).setWidth 16] = true ∧ (800 : Word).toInt + 1 / 2 < packing.par.addrLimit := by decide
/-- A call of `UnpackString` on the packed string of the one character `X` at cell 700. -/
def unpacking : State := State.pokeCells 700 [0x5801] (call 67 [700, 800])
theorem witness_StringServices_unpack : callsService .unpackString (lit 5) 507 unpacking unpacking ∧
    holdsCells unpacking 507 (if unpacking.par.packSourceFirst then [700, 800] else [800, 700]) = true ∧
    holdsPacked unpacking ((700 : Word).toInt) [88] = true ∧ (800 : Word).toInt + 1 < unpacking.par.addrLimit := by decide
theorem witness_ServicesAreBounded : (∃ t, runService .writeD 507 (call 68 []) = .next t) ∧ (∃ t, runService .level 507 (call 31 []) = .next t) ∧
    ∃ t, runService .stop 507 (call 30 [3]) = .next t := ⟨⟨_, rfl⟩, ⟨_, rfl⟩, _, rfl⟩
theorem witness_EmitCell : validCell State.reset.par State.reset.lc ∧ ¬ validCell State.reset.par 32768 := by decide
theorem witness_LabelReference : 7 < State.reset.par.labelCount ∧ validCell State.reset.par 410 ∧
    (State.reset.setLabel 7 (-420)).labelEntry 7 < 0 ∧ 0 ≤ State.reset.labelEntry 7 ∧ State.reset.par.labelCount ≤ 500 := by decide
/-- The loader at the `7` of a definition of label 7, to which the cell 404 refers. -/
def defining : State := loadSteps 2 (loading [68, 76, 55, 32, 55])
theorem witness_LabelDefinitionPatchesEveryReference_chain :
    readNumeral defining = .ok 7 (nextChar defining) ∧ 7 < (nextChar defining).par.labelCount ∧
    chainFrom (nextChar defining) ((nextChar defining).labelEntry 7) [404] = true ∧ ([404] : List Nat).Nodup := by decide
theorem witness_LabelDefinitionPatchesEveryReference_duplicate :
    readNumeral (defining.setLabel 7 (-404)) = .ok 7 (nextChar (defining.setLabel 7 (-404))) ∧
    (nextChar (defining.setLabel 7 (-404))).labelEntry 7 < 0 := by decide
theorem witness_EndOfUnit :
    let s := reading [] { State.reset with run := .loading, ch := some 90 }
    s.run = .loading ∧ s.ch = some 90 ∧ 3 < s.par.labelCount ∧ 0 < (s.setLabel 3 405).labelEntry 3 ∧
    (∀ m, m < 3 → (s.setLabel 3 405).labelEntry m ≤ 0) ∧ (∀ n, n < s.par.labelCount → s.labelEntry n ≤ 0) := by decide
theorem witness_ByteDirective :
    let s := loading [67, 50, 53, 53]
    let t := (loadSteps 0 s)
    (∃ u, readNumeral (nextChar t) = .ok 255 u ∧ u.cp = .low ∧ validCell u.par u.lc) ∧
    (∃ u, readNumeral (nextChar { t with cp := .high, lc := 504 }) = .ok 255 u ∧ u.cp = .high ∧
      holdsCells (u.pokeCell 503 7) (u.lc - 1) [7] = true) ∧
    ∃ u, readNumeral (nextChar (loading [67, 50, 53, 54])) = .ok 256 u := ⟨⟨_, rfl, rfl, by decide⟩, ⟨_, rfl, rfl, by decide⟩, _, rfl⟩
/-- The hypotheses of `AssembledInstructionDecodes` on letters and text. -/
def assembles (s : State) (letter : Byte) (indirect relative filler byLabel : Bool) (digits after : List Byte) : Prop :=
  s.run = .loading ∧ s.ch = some letter ∧ s.par.fillerLetter ∉ [13, 73, 80, 76] ∧ isDigit s.par.fillerLetter = false ∧
  digits ≠ [] ∧ (∀ c ∈ digits, isDigit c = true) ∧ (∀ c, after.head? = some c → isDigit c = false) ∧
  s.unread s.cis = (if indirect then [73] else []) ++ (if relative then [80] else []) ++
    (if filler then [s.par.fillerLetter] else []) ++ (if byLabel then [76] else []) ++ digits ++ after ∧
  validCell s.par s.lc ∧ validCell s.par (s.lc + 1)
/-- `LIP300` and a line feed. -/
theorem witness_AssembledInstructionDecodes_extended :
    assembles (loading [76, 73, 80, 51, 48, 48, 10]) 76 true true false false [51, 48, 48] [10] ∧
    digitsValue 0 [51, 48, 48] ≤ 65535 := ⟨⟨rfl, rfl, by decide, by decide, by decide, by decide, by simp [isDigit], rfl, by decide, by decide⟩, by decide⟩
/-- `LG255` at the end of the text: packed, with the filler letter. -/
theorem witness_AssembledInstructionDecodes_packed :
    assembles (loading [76, 71, 50, 53, 53]) 76 false false true false [50, 53, 53] [] ∧ digitsValue 0 [50, 53, 53] = 255 :=
  ⟨⟨rfl, rfl, by decide, by decide, by decide, by decide, by simp, rfl, by decide, by decide⟩, by decide⟩
/-- `KL7S`, a reference to label 7, not defined and defined. -/
theorem witness_AssembledInstructionDecodes_label :
    assembles (loading [75, 76, 55, 83]) 75 false false false true [55] [83] ∧ 7 < (loading []).par.labelCount ∧
    0 ≤ (loading []).labelEntry 7 ∧ ((loading []).setLabel 7 (-404)).labelEntry 7 < 0 :=
  ⟨⟨rfl, rfl, by decide, by decide, by decide, by decide, by simp [isDigit], rfl, by decide, by decide⟩, by decide⟩
/-- `X8` and a line feed: the row of that selector. -/
theorem witness_AssembledInstructionDecodes_selector :
    assembles (loading [88, 56, 10]) 88 false false false false [56] [10] ∧ digitsValue 0 [56] = 8 ∧
    decodeExtended ⟨false, false, .packed (BitVec.ofNat 8 8)⟩ = .x8 :=
  ⟨⟨rfl, rfl, by decide, by decide, by decide, by decide, by simp [isDigit], rfl, by decide, by decide⟩, by decide⟩

end Sys2Proof.Tests
end

section
/-! PROOF. The results of the arithmetic and bitwise sub-operations of `X` (43_extended_ops.md R182 to R201), each from the one
shape it has: `aluResult` or `bitwiseResult`. -/

namespace Sys2Proof.Machine

/-! ## The two shapes -/

/-- An instruction of the arithmetic shape (R205) leaves in `A` the exact result for the signed `B` and `A`, wrapped to 16 bits. -/
theorem exec_arithmetic {i : Instr} {s : State} (f : Int → Int → Int) (h : exec i s = .next (aluResult f s)) :
    ∃ w, exec i s = .next { s with a := w } ∧ w.toInt = (f s.b.toInt s.a.toInt).bmod 65536 :=
  ⟨trunc16 (f (sext16 s.b) (sext16 s.a)), h, sext16_trunc16 _⟩

/-- An instruction of the bitwise shape (R198 to R201) works bit by bit: where its word operation `f` applies the Boolean operation
`g` to each pair of bits, so does the instruction to the bits of `B` and `A`. -/
theorem exec_bitwise {i : Instr} {f : Word → Word → Word} {s : State} (h : exec i s = .next (bitwiseResult f s))
    (g : Bool → Bool → Bool) (hg : ∀ (v w : Word) (j : Nat), j < 16 → (f v w).getLsbD j = g (v.getLsbD j) (w.getLsbD j)) :
    ∃ w, exec i s = .next { s with a := w } ∧ ∀ j, j < 16 → w.getLsbD j = g (s.b.getLsbD j) (s.a.getLsbD j) :=
  ⟨f s.b s.a, h, hg s.b s.a⟩

/-! ## Facts about single words -/

theorem getLsbD_not_word (w : Word) {j : Nat} (hj : j < 16) : (~~~w).getLsbD j = !w.getLsbD j := by
  rw [BitVec.getLsbD_not, decide_eq_true hj, Bool.true_and]

theorem getLsbD_not_xor (v w : Word) {j : Nat} (hj : j < 16) :
    (~~~(v ^^^ w)).getLsbD j = (v.getLsbD j == w.getLsbD j) := by
  rw [getLsbD_not_word _ hj, BitVec.getLsbD_xor]
  cases v.getLsbD j <;> cases w.getLsbD j <;> rfl

/-- The complement in the signed view (R183): exact for every word, since `-a - 1` stays in the signed range. -/
theorem toInt_not_word (w : Word) : (~~~w).toInt = -w.toInt - 1 := by
  have hn : (~~~w).toNat = 65535 - w.toNat := BitVec.toNat_not
  have hw : w.toNat < 65536 := w.isLt
  rw [BitVec.toInt_eq_toNat_cond, BitVec.toInt_eq_toNat_cond, hn]
  split <;> split <;> omega

/-! ## The obligations -/

/-- Settles O37: the four integer operations have the arithmetic shape; the complement is a fact about the word `A`. -/
theorem arithmeticResults : Obligations.ArithmeticResults := fun s =>
  ⟨exec_arithmetic (fun _ a => -a) rfl,
    ⟨~~~s.a, rfl, fun _ hj => getLsbD_not_word s.a hj, toInt_not_word s.a⟩,
    exec_arithmetic (· * ·) rfl,
    exec_arithmetic (· + ·) rfl,
    exec_arithmetic (· - ·) rfl⟩

/-- Settles O41: each of the four has the bitwise shape, with its own Boolean operation on the bits. -/
theorem bitwiseResults : Obligations.BitwiseResults := fun _ =>
  ⟨exec_bitwise rfl and fun _ _ _ _ => BitVec.getLsbD_and,
    exec_bitwise rfl or fun _ _ _ _ => BitVec.getLsbD_or,
    exec_bitwise rfl bne fun _ _ _ _ => BitVec.getLsbD_xor,
    exec_bitwise rfl BEq.beq fun v w _ hj => getLsbD_not_xor v w hj⟩

end Sys2Proof.Machine
end

section
/-! PROOF. The encoding (30_encoding.md): every instruction is a row of the opcode table with an operand, written `instrOf`, and
decoding and encoding are each one equation about that form. -/

namespace Sys2Proof

/-! ## Instructions as an opcode number with an operand -/

/-- The instruction of opcode number `n` with operand `o` (30_encoding.md R71). -/
def instrOf (n : Nat) (o : Operand) : Instr :=
  match n with
  | 0 => .l o
  | 1 => .s o
  | 2 => .a o
  | 3 => .j o
  | 4 => .t o
  | 5 => .f o
  | 6 => .k o
  | _ => decodeExtended o

/-- A word is decoded by its opcode field and its operand. -/
theorem decodeWord_eq_instrOf (w e : Word) : decodeWord w e = instrOf (opcodeField w) (decodeOperand w e) := rfl

theorem selectorRow_eq_none {n : Nat} (h : n < 1 ∨ 23 < n) : selectorRow n = none := by
  unfold selectorRow
  split
  case h_24 => rfl
  all_goals omega

/-- The encoding of the row of selector `k` is that row's usual word (R78). -/
theorem encode_of_selectorRow {k : Nat} {i : Instr} (h : selectorRow k = some i) :
    encode i = [selectorWord (BitVec.ofNat 8 k)] := by
  unfold selectorRow at h
  split at h <;> cases h <;> rfl

theorem wf_of_selectorRow {k : Nat} {i : Instr} (h : selectorRow k = some i) : i.wf = true := by
  unfold selectorRow at h
  split at h <;> cases h <;> rfl

/-- The selector of a row is in `1..23` (R77). -/
theorem selectorRow_isSome {k : Nat} {i : Instr} (h : selectorRow k = some i) : 1 ≤ k ∧ k ≤ 23 := by
  by_contra hk
  rw [selectorRow_eq_none (by omega)] at h
  cases h

theorem selectorRow_eq_some {k : Nat} (h1 : 1 ≤ k) (h2 : k ≤ 23) : ∃ i, selectorRow k = some i := by
  interval_cases k <;> exact ⟨_, rfl⟩

/-- A word of opcode `X` is a row, or keeps its operand where that is no usual selector (R78). -/
theorem decodeExtended_cases (o : Operand) :
    (∃ n i, o = ⟨false, false, .packed n⟩ ∧ selectorRow n.toNat = some i ∧ decodeExtended o = i) ∨
    (o.usualSelector = false ∧ decodeExtended o = .x o) := by
  match o with
  | ⟨false, false, .packed n⟩ =>
    by_cases hn : 1 ≤ n.toNat ∧ n.toNat ≤ 23
    · obtain ⟨i, hi⟩ := selectorRow_eq_some hn.1 hn.2
      exact .inl ⟨n, i, rfl, hi, by rw [decodeExtended, hi, Option.getD_some]⟩
    · refine .inr ⟨?_, by rw [decodeExtended, selectorRow_eq_none (n := n.toNat) (by omega), Option.getD_none]⟩
      rw [Operand.usualSelector, Bool.and_eq_false_iff, decide_eq_false_iff_not, decide_eq_false_iff_not]
      omega
  | ⟨false, false, .extended _⟩ => exact .inr ⟨rfl, rfl⟩
  | ⟨false, true, _⟩ => exact .inr ⟨rfl, rfl⟩
  | ⟨true, _, _⟩ => exact .inr ⟨rfl, rfl⟩

/-- What stands for a word of opcode `X` in an unusual form is decoded as it is. -/
theorem decodeExtended_of_wf {o : Operand} (h : (Instr.x o).wf = true) : decodeExtended o = .x o := by
  rcases decodeExtended_cases o with ⟨n, i, rfl, hi, -⟩ | ⟨-, hx⟩
  · obtain ⟨h1, h2⟩ := selectorRow_isSome hi
    simp [Instr.wf, Operand.usualSelector] at h
    omega
  · exact hx

theorem encode_decodeExtended (o : Operand) : encode (decodeExtended o) = encodeCells 7 o := by
  rcases decodeExtended_cases o with ⟨n, i, rfl, hi, hx⟩ | ⟨-, hx⟩ <;> rw [hx]
  · rw [encode_of_selectorRow hi, BitVec.ofNat_toNat, BitVec.setWidth_eq]
    rfl
  · rfl

theorem decodeExtended_wf (o : Operand) : (decodeExtended o).wf = true := by
  rcases decodeExtended_cases o with ⟨n, i, -, hi, hx⟩ | ⟨ho, hx⟩ <;> rw [hx]
  · exact wf_of_selectorRow hi
  · simp [Instr.wf, ho]

/-- An opcode number is one of the eight of R71. -/
theorem opcode_cases (op : BitVec 3) :
    op = 0 ∨ op = 1 ∨ op = 2 ∨ op = 3 ∨ op = 4 ∨ op = 5 ∨ op = 6 ∨ op = 7 := by
  revert op
  decide

theorem encode_instrOf (op : BitVec 3) (o : Operand) : encode (instrOf op.toNat o) = encodeCells op o := by
  rcases opcode_cases op with rfl | rfl | rfl | rfl | rfl | rfl | rfl | rfl
  case inr.inr.inr.inr.inr.inr.inr => exact encode_decodeExtended o
  all_goals rfl

theorem instrOf_wf (op : BitVec 3) (o : Operand) : (instrOf op.toNat o).wf = true := by
  rcases opcode_cases op with rfl | rfl | rfl | rfl | rfl | rfl | rfl | rfl
  case inr.inr.inr.inr.inr.inr.inr => exact decodeExtended_wf o
  all_goals rfl

/-- Every well-formed instruction is an opcode with an operand. -/
theorem exists_eq_instrOf {i : Instr} (h : i.wf = true) : ∃ (op : BitVec 3) (o : Operand), i = instrOf op.toNat o := by
  have row : ∀ {k : Nat} {i : Instr}, k < 256 → selectorRow k = some i → ∃ (op : BitVec 3) (o : Operand), i = instrOf op.toNat o :=
    fun {k i} hk hi => ⟨7, ⟨false, false, .packed (BitVec.ofNat 8 k)⟩, by
      show i = (selectorRow (BitVec.ofNat 8 k).toNat).getD _
      rw [BitVec.toNat_ofNat, Nat.mod_eq_of_lt hk, hi, Option.getD_some]⟩
  cases i with
  | l o => exact ⟨0, o, rfl⟩
  | s o => exact ⟨1, o, rfl⟩
  | a o => exact ⟨2, o, rfl⟩
  | j o => exact ⟨3, o, rfl⟩
  | t o => exact ⟨4, o, rfl⟩
  | f o => exact ⟨5, o, rfl⟩
  | k o => exact ⟨6, o, rfl⟩
  | x o => exact ⟨7, o, (decodeExtended_of_wf h).symm⟩
  | x1 => exact row (k := 1) (by decide) rfl
  | x2 => exact row (k := 2) (by decide) rfl
  | x3 => exact row (k := 3) (by decide) rfl
  | x4 => exact row (k := 4) (by decide) rfl
  | x5 => exact row (k := 5) (by decide) rfl
  | x6 => exact row (k := 6) (by decide) rfl
  | x7 => exact row (k := 7) (by decide) rfl
  | x8 => exact row (k := 8) (by decide) rfl
  | x9 => exact row (k := 9) (by decide) rfl
  | x10 => exact row (k := 10) (by decide) rfl
  | x11 => exact row (k := 11) (by decide) rfl
  | x12 => exact row (k := 12) (by decide) rfl
  | x13 => exact row (k := 13) (by decide) rfl
  | x14 => exact row (k := 14) (by decide) rfl
  | x15 => exact row (k := 15) (by decide) rfl
  | x16 => exact row (k := 16) (by decide) rfl
  | x17 => exact row (k := 17) (by decide) rfl
  | x18 => exact row (k := 18) (by decide) rfl
  | x19 => exact row (k := 19) (by decide) rfl
  | x20 => exact row (k := 20) (by decide) rfl
  | x21 => exact row (k := 21) (by decide) rfl
  | x22 => exact row (k := 22) (by decide) rfl
  | x23 => exact row (k := 23) (by decide) rfl

/-! ## The decoder on cells -/

theorem decode_cell {w : Word} (h : extendedBit w = false) (rest : List Byte) :
    decode (bytesOfCells [w] ++ rest) = .ok (decodeWord w 0, rest) := by
  simp [bytesOfCells, decode, h]

theorem decode_twoCells {w : Word} (h : extendedBit w = true) (e : Word) (rest : List Byte) :
    decode (bytesOfCells [w, e] ++ rest) = .ok (decodeWord w e, rest) := by
  simp [bytesOfCells, decode, h]

/-- The next cell matters only when bit `D` is set (R143). -/
theorem decodeWord_packed {w : Word} (h : extendedBit w = false) (e f : Word) : decodeWord w e = decodeWord w f := by
  rw [decodeWord_eq_instrOf, decodeWord_eq_instrOf]
  simp [decodeOperand, h]

theorem decodeWord_encodeWord (op : BitVec 3) (o : Operand) (e : Word) (h : ∀ w, o.literal = .extended w → e = w) :
    decodeWord (encodeWord op o) e = instrOf op.toNat o := by
  rw [decodeWord_eq_instrOf, opcodeField_encodeWord, decodeOperand_encodeWord op o e h]

theorem decode_encodeCells (op : BitVec 3) (o : Operand) (rest : List Byte) :
    decode (bytesOfCells (encodeCells op o) ++ rest) = .ok (instrOf op.toNat o, rest) := by
  have hx := extendedBit_encodeWord op o
  unfold encodeCells
  split <;> rename_i hl <;> rw [hl] at hx
  · rw [decode_cell hx, decodeWord_encodeWord op o 0 (by simp [hl])]
  · rename_i e
    rw [decode_twoCells hx, decodeWord_encodeWord op o e (by simp [hl])]

/-- Settles O1: a well-formed instruction is an opcode with an operand, and its cells decode to that. -/
theorem decodeEncodeRoundTrip : Obligations.DecodeEncodeRoundTrip := by
  intro i rest h
  obtain ⟨op, o, rfl⟩ := exists_eq_instrOf h
  rw [encodeBytes, encode_instrOf, decode_encodeCells]

/-! ## Words and their fields -/

theorem getLsbD_five (w : Word) : w.getLsbD 5 = extendedBit w := rfl

/-- A word laid out by fields, bit by bit (R70). -/
theorem getLsbD_fieldsWord (n : Byte) (d p i : Bool) (op : BitVec 3) (j : Nat) :
    (fieldsWord n d p i op).getLsbD j =
      if j < 3 then op.getLsbD j else if j = 3 then i else if j = 4 then p else if j = 5 then d else
        if j < 8 then false else n.getLsbD (j - 8) := by
  by_cases hj : j < 8
  · interval_cases j <;> simp only [fieldsWord, BitVec.getLsbD_append] <;> simp
  · have h6 : ¬ j - 3 - 1 - 1 - 1 < 2 := by omega
    simp only [fieldsWord, BitVec.getLsbD_append, h6, hj, if_neg (show ¬ j < 3 by omega), if_neg (show ¬ j = 3 by omega),
      if_neg (show ¬ j = 4 by omega), if_neg (show ¬ j = 5 by omega), if_neg (show ¬ j - 3 < 1 by omega),
      if_neg (show ¬ j - 3 - 1 < 1 by omega), if_neg (show ¬ j - 3 - 1 - 1 < 1 by omega), if_false]
    congr 1

/-- The fields of a word, laid out again with its ignored bits 0: a packed word keeps bits 15:8 and 5:0. -/
theorem fieldsWord_of_packed {w : Word} (h : extendedBit w = false) :
    fieldsWord (packedField w) false (relativeBit w) (indirectBit w) (w.extractLsb' 0 3) = w &&& 0xFF3F := by
  rw [← getLsbD_five] at h
  apply BitVec.eq_of_getLsbD_eq
  intro j hj
  rw [getLsbD_fieldsWord]
  interval_cases j <;> simp_all [packedField, relativeBit, indirectBit]

/-- An extended word keeps bits 5:0. -/
theorem fieldsWord_of_extended {w : Word} (h : extendedBit w = true) :
    fieldsWord 0 true (relativeBit w) (indirectBit w) (w.extractLsb' 0 3) = w &&& 0x003F := by
  rw [← getLsbD_five] at h
  apply BitVec.eq_of_getLsbD_eq
  intro j hj
  rw [getLsbD_fieldsWord]
  interval_cases j <;> simp_all [relativeBit, indirectBit]

theorem encodeCells_decodeOperand (w e : Word) :
    encodeCells (w.extractLsb' 0 3) (decodeOperand w e) = if w.getLsbD 5 then [w &&& 0x003F, e] else [w &&& 0xFF3F] := by
  rw [getLsbD_five]
  cases hd : extendedBit w with
  | false => simpa [decodeOperand, hd, encodeCells, encodeWord_packed] using fieldsWord_of_packed hd
  | true => simpa [decodeOperand, hd, encodeCells, encodeWord_extended] using fieldsWord_of_extended hd

theorem encode_decodeWord (w e : Word) :
    encode (decodeWord w e) = if w.getLsbD 5 then [w &&& 0x003F, e] else [w &&& 0xFF3F] := by
  rw [decodeWord_eq_instrOf, ← encodeCells_decodeOperand, ← encode_instrOf]
  rfl

/-- Words that agree under a mask agree on its bits. -/
theorem getLsbD_eq_of_and_eq {v w m : Word} (h : w &&& m = v &&& m) {j : Nat} (hj : m.getLsbD j = true) :
    w.getLsbD j = v.getLsbD j := by
  simpa [hj] using congrArg (BitVec.getLsbD · j) h

/-- Decoding depends on bits 5:0 and on the operand: the next cell when bit 5 is 1, bits 15:8 when it is 0 (R73). -/
theorem decodeWord_congr {w v e f : Word} (h : w &&& 0x003F = v &&& 0x003F) (he : w.getLsbD 5 = true → e = f)
    (hn : w.getLsbD 5 = false → w &&& 0xFF00 = v &&& 0xFF00) : decodeWord w e = decodeWord v f := by
  have low : ∀ j, j < 6 → w.getLsbD j = v.getLsbD j := fun j hj => getLsbD_eq_of_and_eq h (by interval_cases j <;> rfl)
  have hop : opcodeField w = opcodeField v := by
    unfold opcodeField
    congr 1
    apply BitVec.eq_of_getLsbD_eq
    intro j hj
    simp [BitVec.getLsbD_extractLsb', low j (by omega)]
  have hd : extendedBit w = extendedBit v := low 5 (by omega)
  have hliteral : (if extendedBit w then Literal.extended e else .packed (packedField w)) =
      if extendedBit v then .extended f else .packed (packedField v) := by
    rw [← hd]
    split
    · rename_i h5
      rw [he h5]
    · rename_i h5
      have hm := hn (by rw [getLsbD_five]; simpa using h5)
      congr 1
      apply BitVec.eq_of_getLsbD_eq
      intro j hj
      simp only [packedField, BitVec.getLsbD_extractLsb']
      rw [getLsbD_eq_of_and_eq hm (by interval_cases j <;> rfl)]
  have ho : decodeOperand w e = decodeOperand v f := by
    unfold decodeOperand
    rw [hliteral, show indirectBit w = indirectBit v from low 3 (by omega),
      show relativeBit w = relativeBit v from low 4 (by omega)]
  rw [decodeWord_eq_instrOf, decodeWord_eq_instrOf, hop, ho]

/-- Settles O2: the encoder lays out the decoder's fields again, and the decoder reads no other bit. -/
theorem encodeDecodeCanonical : Obligations.EncodeDecodeCanonical :=
  ⟨encode_decodeWord, fun _ _ _ _ => decodeWord_congr⟩

/-- Settles O3: each word is decoded by evaluation. -/
theorem sampleWordsDecode : Obligations.SampleWordsDecode := by
  unfold Obligations.SampleWordsDecode
  decide

theorem decodeWord_wf (w e : Word) : (decodeWord w e).wf = true := instrOf_wf (w.extractLsb' 0 3) (decodeOperand w e)

/-- Settles O4: bit `D` says whether the decoder takes one cell or two. -/
theorem everyPatternDecodes : Obligations.EveryPatternDecodes := by
  intro w e rest
  refine ⟨decodeWord_wf w e, ?_⟩
  rw [getLsbD_five]
  cases hd : extendedBit w with
  | false =>
    rw [decodeWord_packed hd e 0]
    exact decode_cell hd _
  | true => exact decode_twoCells hd e rest

end Sys2Proof
end

section
/-! PROOF. The whole-machine rules: the invariant of memory, label table and stream registry, what the engine never writes, the
ways a running machine goes on (60_exceptions.md R275), and which instructions write what (10_state.md R11 to R14). -/

namespace Sys2Proof.Machine

/-! ## The invariant -/

/-- The invariant depends on the parameters, memory, the label table, the slots and the number of records alone. -/
theorem inv_congr {s t : State} (hp : t.par = s.par) (hm : t.mem = s.mem) (hl : t.labv = s.labv) (hs : t.slots = s.slots)
    (hr : t.records.length = s.records.length) (h : s.Inv) : t.Inv := by
  obtain ⟨h1, h2, h3⟩ := h
  exact ⟨by rw [hp, hm]; exact h1, by rw [hp, hl]; exact h2, registryOk_congr hp hs hr h3⟩

theorem inv_openInput (s : State) (name : Name) (h : s.Inv) : (s.openInput name).2.Inv := by
  have hr := openInput_registryOk name h.2.2
  obtain ⟨_, _, _, e⟩ := openInput_frame name s
  rw [e] at hr ⊢
  exact ⟨h.1, h.2.1, hr⟩

theorem inv_openOutput (s : State) (name : Name) (h : s.Inv) : (s.openOutput name).2.Inv := by
  have hr := openOutput_registryOk name h.2.2
  obtain ⟨_, _, _, _, e⟩ := openOutput_frame name s
  rw [e] at hr ⊢
  exact ⟨h.1, h.2.1, hr⟩

theorem inv_rebindInput (s : State) (name : Name) (t : State) (ht : s.rebindInput name = some t) (h : s.Inv) : t.Inv := by
  have hr := rebindInput_registryOk ht h.2.2
  obtain ⟨_, rfl⟩ := rebindInput_frame ht
  exact ⟨h.1, h.2.1, hr⟩

theorem engineClosed_inv : EngineClosed State.Inv where
  draws _ _ h := h
  a _ _ h := h
  b _ _ h := h
  writeChar s h c hs :=
    inv_congr (writeChar_par h c s) (writeChar_mem h c s) (writeChar_labv h c s) (writeChar_slots h c s) (writeChar_records h c s) hs
  readChar s h hs :=
    inv_congr (readChar_par h s) (readChar_mem h s) (readChar_labv h s) (readChar_slots h s) (readChar_records h s) hs
  leaveUnread s h n hs :=
    inv_congr (leaveUnread_par h n s) (leaveUnread_mem h n s) (leaveUnread_labv h n s) (leaveUnread_slots h n s)
      (leaveUnread_records h n s) hs
  openInput := inv_openInput
  openOutput := inv_openOutput
  cis _ _ h := h
  cos _ _ h := h
  stop _ _ h := h

theorem loaderClosed_inv : LoaderClosed State.Inv where
  ch _ _ h := h
  cursor _ _ _ h := h
  label _ _ v hn h := ⟨h.1, setLabel_wf h.2.1 v hn, h.2.2⟩
  clear _ h := ⟨h.1, ⟨List.Pairwise.nil, by simp, by simp⟩, h.2.2⟩
  run _ _ h := h
  halt s cause hs :=
    inv_congr (halt_par cause s) (halt_mem cause s) (halt_labv cause s) (halt_slots cause s) (halt_records cause s) hs
  config _ _ h := h
  rebindInput := inv_rebindInput
  rebindOutput s name h := ⟨h.1, h.2.1, rebindOutput_registryOk name h.2.2⟩

/-- Settles O20: the invariant is closed under every elementary update of the engine, the services, the loader and the driver. -/
theorem stepKeepsInvariant : Obligations.StepKeepsInvariant := fun _ _ hs ht =>
  holds_next (step_keeps engineClosed_inv (fun _ k v hk h => ⟨putByteAt_wf h.1 k v hk, h.2⟩) (fun _ _ _ h => h) loaderClosed_inv hs) ht

/-- Settles O21: at reset memory and the label table are empty and the two default handles have their records. -/
theorem resetInvariant : Obligations.ResetInvariant := by
  unfold Obligations.ResetInvariant
  decide

/-! ## What the engine never writes -/

theorem step_running {s : State} (h : s.run = .running) : step s = engineStep s := by
  rw [step, h]

/-- The loader's state, the configuration and the parameters of `t` are those of `s`. -/
def SameLoader (s t : State) : Prop :=
  t.labv = s.labv ∧ t.lc = s.lc ∧ t.cp = s.cp ∧ t.ch = s.ch ∧ t.config = s.config ∧ t.par = s.par

theorem readChar_frame (h : Int) (s : State) : ∃ records, (s.readChar h).2 = { s with records := records } := by
  unfold State.readChar
  split
  · exact ⟨_, rfl⟩
  · split
    · exact ⟨_, rfl⟩
    · split <;> exact ⟨_, rfl⟩

theorem leaveUnread_frame (h : Int) (n : Nat) (s : State) : ∃ records, s.leaveUnread h n = { s with records := records } := by
  unfold State.leaveUnread
  split
  · exact ⟨_, rfl⟩
  · split <;> exact ⟨_, rfl⟩

/-- A property that does not depend on `A`, `B`, the registry, the files, the live output and the draw counter is kept by the quiet
updates. -/
theorem quietClosed_of_frame {P : State → Prop}
    (hP : ∀ t a b slots records files live n, P t →
      P { t with a := a, b := b, slots := slots, records := records, files := files, live := live, draws := n }) :
    QuietClosed P where
  draws t n := hP t t.a t.b t.slots t.records t.files t.live n
  a t w := hP t w t.b t.slots t.records t.files t.live t.draws
  b t w := hP t t.a w t.slots t.records t.files t.live t.draws
  writeChar t h c ht := by
    obtain ⟨records, files, live, e⟩ := writeChar_frame h c t
    rw [e]
    exact hP t t.a t.b t.slots records files live t.draws ht
  readChar t h ht := by
    obtain ⟨records, e⟩ := readChar_frame h t
    rw [e]
    exact hP t t.a t.b t.slots records t.files t.live t.draws ht
  leaveUnread t h n ht := by
    obtain ⟨records, e⟩ := leaveUnread_frame h n t
    rw [e]
    exact hP t t.a t.b t.slots records t.files t.live t.draws ht
  openInput t name ht := by
    obtain ⟨slots, records, n, e⟩ := openInput_frame name t
    rw [e]
    exact hP t t.a t.b slots records t.files t.live n ht
  openOutput t name ht := by
    obtain ⟨slots, records, files, n, e⟩ := openOutput_frame name t
    rw [e]
    exact hP t t.a t.b slots records files t.live n ht

theorem quietClosed_sameLoader (s : State) : QuietClosed (SameLoader s) := quietClosed_of_frame fun _ _ _ _ _ _ _ _ h => h

/-- Settles O22: no elementary update of the engine or of a service touches the loader's state. -/
theorem engineLeavesLoaderState : Obligations.EngineLeavesLoaderState := by
  intro s t hrun h
  rw [step_running hrun] at h
  have halt (cause : Cause) (u : State) (hu : SameLoader s u) : SameLoader s (u.halt cause) := by simpa [SameLoader] using hu
  have engine : EngineClosed (SameLoader s) :=
    { quietClosed_sameLoader s with cis := fun _ _ h => h, cos := fun _ _ h => h, stop := fun _ _ h => h }
  exact holds_next (engineStep_keeps engine (fun _ _ _ _ h => h) (fun _ _ _ h => h)
    ⟨fun u _ => halt _ u, fun u _ => halt _ u⟩ ⟨rfl, rfl, rfl, rfl, rfl, rfl⟩) h

/-! ## The ways out of `Running` -/

/-- The phases a running machine can be in after a step (60_exceptions.md R275). -/
def RunOutcome (t : State) : Prop :=
  t.run = .running ∨ (∃ v, t.run = .stopped v) ∨ (∃ n, t.run = .halted (.unknownCall n)) ∨ ∃ k, t.run = .halted (.unknownSelector k)

/-- Settles O23: only a stop and the two fatal conditions of a running machine write the phase. -/
theorem waysOutOfRunning : Obligations.WaysOutOfRunning := by
  intro s t hrun h
  rw [step_running hrun] at h
  have quiet : QuietClosed RunOutcome := quietClosed_of_frame fun _ _ _ _ _ _ _ _ h => h
  have engine : EngineClosed RunOutcome :=
    { quiet with cis := fun _ _ h => h, cos := fun _ _ h => h, stop := fun _ w _ => .inr (.inl ⟨w, rfl⟩) }
  exact holds_next (engineStep_keeps engine (fun _ _ _ _ h => h) (fun _ _ _ h => h)
    ⟨fun _ n _ => .inr (.inr (.inl ⟨n, rfl⟩)), fun _ k _ => .inr (.inr (.inr ⟨k, rfl⟩))⟩ (.inl hrun)) h

/-! ## Which instructions write what -/

/-- The instructions that write `A` and nothing else: `A` and the sub-operations but `X4`, `X22` and `X23`. -/
def writesOnlyA (i : Instr) : Bool :=
  match i with
  | .a _ | .x1 | .x2 | .x3 | .x5 | .x6 | .x7 | .x8 | .x9 | .x10 | .x11 | .x12 | .x13 | .x14 | .x15 | .x16 | .x17 | .x18
  | .x19 | .x20 | .x21 => true
  | _ => false

/-- Every instruction writes only `A`, or is one of the others by name. -/
theorem writesOnlyA_or (i : Instr) :
    writesOnlyA i = true ∨ (∃ op, i = .l op) ∨ (∃ op, i = .s op) ∨ (∃ op, i = .j op ∨ i = .t op ∨ i = .f op) ∨
      (∃ op, i = .k op) ∨ (∃ op, i = .x op) ∨ i = .x4 ∨ i = .x22 ∨ i = .x23 := by
  cases i <;> simp [writesOnlyA]

theorem exec_writesOnlyA {i : Instr} {s t : State} (hi : writesOnlyA i = true) (h : exec i s = .next t) :
    ∃ a n, t = { s with a := a, draws := n } := by
  have alu : ∀ {a : Word}, t = { s with a := a } → ∃ a n, t = { s with a := a, draws := n } := fun h => ⟨_, s.draws, h⟩
  have division : ∀ {f : Int → Int → Int}, (if sext16 s.a = 0 then s else aluResult f s) = t →
      ∃ a n, t = { s with a := a, draws := n } := by
    rintro f rfl
    split
    · exact ⟨s.a, s.draws, rfl⟩
    · exact ⟨_, s.draws, rfl⟩
  cases i with
  | a op => exact execA_frame h
  | x1 => exact execX1_frame h
  | x6 => exact division (next_inj h).symm
  | x7 => exact division (next_inj h).symm
  | x16 => exact next_inj h ▸ shiftResult_frame _ _
  | x17 => exact next_inj h ▸ shiftResult_frame _ _
  | x2 | x3 | x5 | x8 | x9 | x10 | x11 | x12 | x13 | x14 | x15 | x18 | x19 | x20 | x21 => exact alu (next_inj h)
  | l _ | s _ | j _ | t _ | f _ | k _ | x _ | x4 | x22 | x23 => cases hi

/-- A jump writes `PC` and nothing else. -/
theorem exec_jump {i : Instr} {op : Operand} {s t : State} (hi : i = .j op ∨ i = .t op ∨ i = .f op) (h : exec i s = .next t) :
    ∃ pc n, t = { s with pc := pc, draws := n } := by
  rcases hi with rfl | rfl | rfl
  · exact execJ_frame h
  · exact execT_frame h
  · exact execF_frame h

/-- Settles O24: each instruction's frame, the instructions that write only `A` taken together. -/
theorem registerWriters : Obligations.RegisterWriters := by
  intro i s t h hx
  rcases writesOnlyA_or i with hi | ⟨op, rfl⟩ | ⟨op, rfl⟩ | ⟨op, hi⟩ | ⟨op, rfl⟩ | ⟨op, rfl⟩ | rfl | rfl | rfl
  · obtain ⟨a, n, rfl⟩ := exec_writesOnlyA hi h
    refine ⟨fun _ _ => rfl, fun hw => ?_, fun _ _ => rfl, fun _ _ _ => rfl⟩
    rcases hw with ⟨op, rfl | rfl | rfl | rfl⟩ | rfl | rfl | rfl <;> cases hi
  · obtain ⟨a, n, rfl⟩ := execL_frame h
    simp
  · obtain ⟨m, n, rfl⟩ := execS_frame h
    simp
  · obtain ⟨pc, n, rfl⟩ := exec_jump hi h
    refine ⟨fun _ _ => rfl, fun _ => rfl, fun _ _ => rfl, fun hj _ _ => ?_⟩
    obtain ⟨h1, h2, h3, -⟩ := hj op
    rcases hi with rfl | rfl | rfl <;> contradiction
  · simp
  · exact absurd rfl (hx op)
  · obtain ⟨pc, sp, n, rfl⟩ := execX4_frame h
    simp
  · cases h
    simp
  · obtain ⟨pc, b, n, rfl⟩ := execX23_frame h
    simp

/-- What no instruction but `S`, `K` and `X` leaves otherwise than it was: everything but registers, phase and draw counter. -/
theorem exec_frame {i : Instr} {s t : State} (h : exec i s = .next t) (hs : ∀ op, i ≠ .s op) (hk : ∀ op, i ≠ .k op)
    (hx : ∀ op, i ≠ .x op) :
    ∃ a b pc sp run n, t = { s with a := a, b := b, pc := pc, sp := sp, run := run, draws := n } := by
  rcases writesOnlyA_or i with hi | ⟨op, rfl⟩ | ⟨op, rfl⟩ | ⟨op, hi⟩ | ⟨op, rfl⟩ | ⟨op, rfl⟩ | rfl | rfl | rfl
  · obtain ⟨a, n, rfl⟩ := exec_writesOnlyA hi h
    exact ⟨a, s.b, s.pc, s.sp, s.run, n, rfl⟩
  · obtain ⟨a, n, rfl⟩ := execL_frame h
    exact ⟨a, s.a, s.pc, s.sp, s.run, n, rfl⟩
  · exact absurd rfl (hs op)
  · obtain ⟨pc, n, rfl⟩ := exec_jump hi h
    exact ⟨s.a, s.b, pc, s.sp, s.run, n, rfl⟩
  · exact absurd rfl (hk op)
  · exact absurd rfl (hx op)
  · obtain ⟨pc, sp, n, rfl⟩ := execX4_frame h
    exact ⟨s.a, s.b, pc, sp, s.run, n, rfl⟩
  · cases h
    exact ⟨s.a, s.b, s.pc, s.sp, .stopped 0, s.draws, rfl⟩
  · obtain ⟨pc, b, n, rfl⟩ := execX23_frame h
    exact ⟨s.a, b, pc, s.sp, s.run, n, rfl⟩

/-- A selector in the table runs its row (43_extended_ops.md R180). -/
theorem subOperation_of_selectorRow {k : Nat} {i : Instr} (h : selectorRow k = some i) (s : State) :
    subOperation k s = exec i s := by
  unfold selectorRow at h
  split at h <;> cases h <;> rfl

/-- A selector outside the table is fatal (R204). -/
theorem subOperation_unknown {k : Int} (h : k < 1 ∨ 23 < k) (s : State) : subOperation k s = .next (s.halt (.unknownSelector k)) := by
  unfold subOperation
  split
  case h_24 => rfl
  all_goals omega

/-- All a sub-operation can be. -/
theorem subOperation_cases (k : Int) (s : State) :
    (∃ i, selectorRow k.toNat = some i ∧ subOperation k s = exec i s) ∨
    ((k < 1 ∨ 23 < k) ∧ subOperation k s = .next (s.halt (.unknownSelector k))) := by
  by_cases hk : k < 1 ∨ 23 < k
  · exact .inr ⟨hk, subOperation_unknown hk s⟩
  · obtain ⟨i, hi⟩ := selectorRow_eq_some (k := k.toNat) (by omega) (by omega)
    have h := subOperation_of_selectorRow hi s
    rw [Int.toNat_of_nonneg (by omega)] at h
    exact .inl ⟨i, hi, h⟩

/-- A row of the selector table is a sub-operation, none of the primary instructions. -/
theorem selectorRow_ne {k : Nat} {i : Instr} (h : selectorRow k = some i) (op : Operand) : i ≠ .s op ∧ i ≠ .k op ∧ i ≠ .x op := by
  unfold selectorRow at h
  split at h <;> cases h <;> simp

/-- Settles O25: `S` writes memory alone; `X` runs a sub-operation, which leaves memory and streams alone, or halts. -/
theorem memoryAndStreamWriters : Obligations.MemoryAndStreamWriters := by
  intro i s t h hk
  by_cases hs : ∃ op, i = .s op
  · obtain ⟨op, rfl⟩ := hs
    obtain ⟨m, n, rfl⟩ := execS_frame h
    simp
  by_cases hx : ∃ op, i = .x op
  · obtain ⟨op, rfl⟩ := hx
    obtain ⟨k, n, h⟩ := operand_andThen_next h
    rcases subOperation_cases k { s with draws := n } with ⟨i, hi, he⟩ | ⟨-, he⟩ <;> rw [he] at h
    · obtain ⟨_, _, _, _, _, _, rfl⟩ := exec_frame h (fun op => (selectorRow_ne hi op).1) (fun op => (selectorRow_ne hi op).2.1)
        fun op => (selectorRow_ne hi op).2.2
      exact ⟨fun _ _ => rfl, ⟨rfl, rfl, rfl⟩, fun _ => ⟨rfl, rfl, rfl⟩⟩
    · obtain rfl := next_inj h
      exact ⟨fun _ b => peekByte_congr (halt_par ..) (halt_mem ..) b, by simp, fun hne => absurd rfl (hne op)⟩
  · push Not at hs hx
    obtain ⟨_, _, _, _, _, _, rfl⟩ := exec_frame h hs hk hx
    exact ⟨fun _ _ => rfl, ⟨rfl, rfl, rfl⟩, fun _ => ⟨rfl, rfl, rfl⟩⟩

end Sys2Proof.Machine
end

section
/-! PROOF. The step and the fetch (41_fetch_decode.md R140 to R147). -/

namespace Sys2Proof.Machine

/-- A running machine that fetches `i` executes it. -/
theorem step_of_fetch {s t : State} {i : Instr} (h : s.run = .running) (hf : fetch s = .ok i t) : step s = exec i t := by
  rw [step_running h, engineStep, hf, andThen_ok]

/-- Cells that decode whole are an instruction word with its operand cell, or one without. -/
theorem decode_cells_whole {cells : List Word} {i : Instr} (h : decode (bytesOfCells cells) = .ok (i, [])) :
    (∃ w, cells = [w] ∧ extendedBit w = false ∧ i = decodeWord w 0) ∨
    ∃ w e, cells = [w, e] ∧ extendedBit w = true ∧ i = decodeWord w e := by
  match cells with
  | [] => cases h
  | w :: rest =>
    cases hd : extendedBit w with
    | false =>
      have hone := decode_cell hd (bytesOfCells rest)
      rw [show bytesOfCells [w] ++ bytesOfCells rest = bytesOfCells (w :: rest) from rfl, h] at hone
      cases rest with
      | nil => exact .inl ⟨w, rfl, hd, by cases hone; rfl⟩
      | cons e rest => cases hone
    | true =>
      match rest with
      | [] => simp [bytesOfCells, decode, hd] at h
      | e :: rest =>
        have htwo := decode_twoCells hd e (bytesOfCells rest)
        rw [show bytesOfCells [w, e] ++ bytesOfCells rest = bytesOfCells (w :: e :: rest) from rfl, h] at htwo
        cases rest with
        | nil => exact .inr ⟨w, e, rfl, hd, by cases htwo; rfl⟩
        | cons f rest => cases htwo

/-- Settles O5: the decoded cells are what `fetch` reads, one or two of them. -/
theorem stepRunsStoredInstruction : Obligations.StepRunsStoredInstruction := by
  intro s i cells hrun hc hdec
  rcases decode_cells_whole hdec with ⟨w, rfl, hd, rfl⟩ | ⟨w, e, rfl, hd, rfl⟩
  · exact ⟨decodeWord_wf w 0, step_of_fetch hrun (fetch_one hc hd)⟩
  · exact ⟨decodeWord_wf w e, step_of_fetch hrun (fetch_two hc hd)⟩

/-- Settles O6: what the encoder writes decodes whole to the instruction. -/
theorem encodedInstructionRuns : Obligations.EncodedInstructionRuns := by
  intro s i hwf hrun hc
  have hdec := decodeEncodeRoundTrip i [] hwf
  rw [List.append_nil] at hdec
  exact (stepRunsStoredInstruction s i _ hrun hc hdec).2

/-- The fetch of a one-cell instruction, and of a two-cell one, from valid cells of unknown content. -/
theorem fetch_valid {s : State} (h1 : validCell s.par s.pc) (h2 : validCell s.par (s.pc + 1)) :
    ∃ (w e : Word) (k : Int) (n : Nat), (k = 1 ∨ k = 2) ∧ fetch s = .ok (decodeWord w e) { s with pc := s.pc + k, draws := n } := by
  obtain ⟨w, n, hw⟩ := fetchCell_valid h1
  obtain ⟨e, m, he⟩ := fetchCell_valid (s := { s with pc := s.pc + 1, draws := n }) h2
  cases hd : extendedBit w with
  | false => exact ⟨w, 0, 1, n, .inl rfl, by simp [fetch, hw, hd]⟩
  | true => exact ⟨w, e, 2, m, .inr rfl, by simp [fetch, hw, hd, he, add_assoc]⟩

/-- Settles O7: both cells are read and every pattern decodes. -/
theorem everyFetchRunsAnInstruction : Obligations.EveryFetchRunsAnInstruction := by
  intro s hrun h1 h2
  obtain ⟨w, e, k, n, hk, hf⟩ := fetch_valid h1 h2
  exact ⟨decodeWord w e, k, n, decodeWord_wf w e, hk, step_of_fetch hrun hf⟩

/-- Settles O8: the first of the two reads that is not valid faults. -/
theorem fetchOutsideMemoryFaults : Obligations.FetchOutsideMemoryFaults := by
  intro s hrun
  refine ⟨fun h => ?_, fun w hw hd h => ?_⟩
  · rw [step_running hrun, engineStep, fetch, fetchCell_invalid h]
    rfl
  · obtain ⟨h1, h2, -⟩ := holdsCells_cons hw
    rw [getLsbD_five] at hd
    have he : fetchCell { s with pc := s.pc + 1 } = addressFault (s.pc + 1) { s with pc := s.pc + 1 } := fetchCell_invalid h
    simp [step_running hrun, engineStep, fetch, fetchCell_known h1 h2, hd, he]

/-- Settles O9: the two terminal phases have no step. -/
theorem endedRunTakesNoStep : Obligations.EndedRunTakesNoStep := by
  rintro s v cause (h | h) <;> rw [step, h]

/-- Settles O14: the stored cells are held when the fetch reads them, the second store leaving the first alone. -/
theorem storeIsSeenByFetch : Obligations.StoreIsSeenByFetch := by
  intro s t v e h1 h2 ht
  obtain ⟨-, rfl⟩ := writeCell_eq_ok ht
  refine ⟨_, writeCell_valid e h2, ?_⟩
  generalize hu : State.pokeCell (s.pc + 1).toNat (trunc16 e) (s.pokeCell s.pc.toNat (trunc16 v)) = u
  have hpar : u.par = s.par := hu ▸ rfl
  have hpc : u.pc = s.pc := hu ▸ rfl
  have hw : u.peekCell s.pc.toNat = some (trunc16 v) := by
    have := h1.1
    rw [← hu, peekCell_pokeCell_other (by omega), peekCell_pokeCell_same]
  have hx : u.peekCell (s.pc + 1).toNat = some (trunc16 e) := by rw [← hu, peekCell_pokeCell_same]
  have hcells : holdsCells u u.pc [trunc16 v, trunc16 e] = true := by simp [holdsCells, hpar, hpc, h1, h2, hw, hx]
  rw [getLsbD_five]
  cases hd : extendedBit (trunc16 v) with
  | false => exact ⟨1, by rw [decodeWord_packed hd _ 0, ← hpc]; exact fetch_one (holdsCells_append (m := [_]) hcells).1 hd, rfl⟩
  | true => exact ⟨2, by rw [← hpc]; exact fetch_two hcells hd, rfl⟩

end Sys2Proof.Machine
end

section
/-! PROOF. Memory (20_memory.md), the effective operand (41_fetch_decode.md R143 to R146), and what reset leaves. -/

namespace Sys2Proof.Machine

/-! ## The effective operand -/

theorem operandBase_eq (i p : Bool) (l : Literal) (s : State) :
    operandBase ⟨i, p, l⟩ s = if p then literalValue l + s.sp else literalValue l := by
  cases p <;> simp [operandBase]

/-- An indirect operand reads the cell at its base (R145). -/
theorem operand_indirect {op : Operand} (h : op.indirect = true) (s : State) :
    operand op s = (readCell (operandBase op s) s).bind fun w t => .ok (sext16 w) t := by
  rw [operand, if_pos h]

/-- Settles O10: a direct operand is its base; an indirect one is what a read of the cell there does. -/
theorem effectiveOperand : Obligations.EffectiveOperand := by
  intro s n e p base
  refine ⟨?_, ?_, ?_⟩
  · rw [operand_direct rfl, operandBase_eq]
    rfl
  · rw [operand_direct rfl, operandBase_eq]
    rfl
  · intro l z hz
    have hbase : operandBase ⟨true, p, l⟩ s = z := by
      rw [operandBase_eq]
      rcases hz with ⟨rfl, rfl⟩ | ⟨rfl, rfl⟩ <;> rfl
    rw [operand_indirect rfl, hbase]
    refine ⟨fun w hw => ?_, fun hv => ?_, fun hv => ?_⟩
    · rw [readCell_holds hw, bind_ok]
    · obtain ⟨w, m, hr⟩ := readCell_valid hv
      exact ⟨w, m, by rw [hr, bind_ok]⟩
    · rw [readCell_invalid hv, bind_addressFault]

/-! ## Cells -/

theorem holdsCells_singleton {s : State} {c : Int} {w : Word} :
    holdsCells s c [w] = true ↔ validCell s.par c ∧ s.peekCell c.toNat = some w := by
  simp [holdsCells]

/-- Settles O11: the written cell is peeked, the others are not touched. -/
theorem cellReadAfterWrite : Obligations.CellReadAfterWrite := by
  intro a v s ha
  obtain ⟨m, hw, hcell, hother⟩ := writeCell_spec v ha
  refine ⟨_, hw, readCell_known ha hcell, rfl, fun c w hc hne hheld => readCell_known hc ?_⟩
  have h1 := ha.1
  have h2 := hc.1
  rw [peekCell_eq_of_bytes (s := s) fun b hb => hother b (by omega)]
  exact (holdsCells_singleton.mp hheld).2

/-- Settles O13: `ADDR_LIMIT` is a minimum (R54), and every access checks its cell first. -/
theorem accessOutsideMemoryFaults : Obligations.AccessOutsideMemoryFaults := fun _ v s =>
  ⟨by simp only [validCell, Params.addrLimit, Params.labvBase, lt_min_iff],
    fun h => ⟨readCell_invalid h, writeCell_invalid v h⟩, fun h => ⟨readByte_invalid h, writeByte_invalid v h⟩⟩

/-! ## The halves of a cell -/

theorem loByte_eq_setWidth (w : Word) : loByte w = w.setWidth 8 := by
  apply BitVec.eq_of_getLsbD_eq
  intro j hj
  simp [loByte, hj]

theorem hiByte_eq_setWidth (w : Word) : hiByte w = (w >>> 8).setWidth 8 := by
  apply BitVec.eq_of_getLsbD_eq
  intro j hj
  simp [hiByte, hj]

theorem toNat_trunc8 (v : Int) : (trunc8 v).toNat = (v % 256).toNat := BitVec.toNat_ofInt ..

theorem toNat_joinBytes (lo hi : Byte) : (joinBytes lo hi).toNat = lo.toNat + 256 * hi.toNat := by
  rw [joinBytes, BitVec.toNat_append, Nat.shiftLeft_eq, Nat.mul_comm, ← Nat.two_pow_add_eq_or_of_lt lo.isLt]
  omega

theorem ofInt_emod_byte (v : Int) : BitVec.ofInt 16 (v % 256) = (trunc8 v).setWidth 16 := by
  apply BitVec.eq_of_toNat_eq
  rw [BitVec.toNat_setWidth, toNat_trunc8, BitVec.toNat_ofInt]
  omega

/-- The low half replaced (R44). -/
theorem joinBytes_hiByte (x : Byte) (w : Word) : joinBytes x (hiByte w) = (w &&& 0xFF00) ||| x.setWidth 16 := by
  apply BitVec.eq_of_getLsbD_eq
  intro j hj
  rw [getLsbD_joinBytes]
  interval_cases j <;> simp [hiByte]

/-- The high half replaced (R44). -/
theorem joinBytes_loByte (x : Byte) (w : Word) : joinBytes (loByte w) x = (w &&& 0x00FF) ||| (x.setWidth 16 <<< 8) := by
  apply BitVec.eq_of_getLsbD_eq
  intro j hj
  rw [getLsbD_joinBytes]
  interval_cases j <;> simp [loByte]

/-- A cell from its two bytes (R46). -/
theorem joinBytes_trunc8 (x y : Int) : joinBytes (trunc8 x) (trunc8 y) = BitVec.ofInt 16 (x % 256 + 256 * (y % 256)) := by
  apply BitVec.eq_of_toNat_eq
  rw [toNat_joinBytes, toNat_trunc8, toNat_trunc8, BitVec.toNat_ofInt]
  omega

/-! ## Bytes of a cell that holds a value -/

theorem peekCell_of_bytes {s : State} {c : Nat} {lo hi : Byte} (h0 : s.peekByte (2 * c) = some lo)
    (h1 : s.peekByte (2 * c + 1) = some hi) : s.peekCell c = some (joinBytes lo hi) := by
  rw [State.peekCell, h0, h1]

/-- A byte of a cell that holds a pattern is its half by parity. -/
theorem peekByte_of_holds {s : State} {b : Int} {w : Word} (h : holdsCells s (b / 2) [w] = true) :
    s.peekByte b.toNat = some (byteOf w b.toNat) := by
  obtain ⟨hv, hw⟩ := holdsCells_singleton.mp h
  have h0 := hv.1
  obtain ⟨hlo, hhi⟩ := peekByte_of_peekCell hw
  unfold byteOf
  split
  · rw [← hlo]
    congr 1
    omega
  · rw [← hhi]
    congr 1
    omega

/-- A cell with the byte `x` in place of its half of `b`'s parity (R44). -/
def withByte (w : Word) (b : Int) (x : Byte) : Word := if b % 2 = 0 then joinBytes x (hiByte w) else joinBytes (loByte w) x

/-- All a write of a byte of a cell that holds a pattern does: that half of the cell, and nothing else. -/
theorem writeByte_holds {s : State} {b : Int} {w : Word} (v : Int) (h : holdsCells s (b / 2) [w] = true) :
    ∃ m, writeByte b v s = .ok () { s with mem := m } ∧
      State.peekCell { s with mem := m } (b / 2).toNat = some (withByte w b (trunc8 v)) ∧
      ∀ k, k / 2 ≠ (b / 2).toNat → State.peekByte { s with mem := m } k = s.peekByte k := by
  obtain ⟨hv, hw⟩ := holdsCells_singleton.mp h
  have h0 := hv.1
  obtain ⟨hlo, hhi⟩ := peekByte_of_peekCell hw
  obtain ⟨m, n, hr, hb, -, hfar, hkeep⟩ := writeByte_spec v hv
  obtain ⟨x, hx⟩ : ∃ x, s.peekByte (otherByte b.toNat) = some x := by
    unfold otherByte
    split
    · exact ⟨_, by rw [← hhi]; congr 1; omega⟩
    · exact ⟨_, by rw [← hlo]; congr 1; omega⟩
  obtain rfl : n = s.draws := by
    rw [writeByte_known v hv hx] at hr
    injection hr with _ hs
    simpa using (congrArg State.draws hs).symm
  refine ⟨m, hr, ?_, hfar⟩
  unfold withByte
  split
  · exact peekCell_of_bytes (by rw [show 2 * (b / 2).toNat = b.toNat by omega, hb]) (hkeep _ _ (by omega) hhi)
  · exact peekCell_of_bytes (hkeep _ _ (by omega) hlo) (by rw [show 2 * (b / 2).toNat + 1 = b.toNat by omega, hb])

/-- Settles O12: both parities of the read and of the write of a cell that holds a pattern, and the write of any valid cell. -/
theorem bytesOfACell : Obligations.BytesOfACell := by
  intro b v s
  refine ⟨fun w hw => ?_, fun hv => ?_⟩
  · obtain ⟨hv, -⟩ := holdsCells_singleton.mp hw
    have h0 := hv.1
    have hread := readByte_known hv (peekByte_of_holds hw)
    obtain ⟨m, hwr, hcell, hfar⟩ := writeByte_holds v hw
    refine ⟨fun hp => ?_, fun hp => ?_, _, hwr, rfl, fun hp => ?_, fun hp => ?_, fun c hc => ?_, fun y hp => ?_⟩
    · rw [hread, byteOf, if_pos (by omega), loByte_eq_setWidth]
    · rw [hread, byteOf, if_neg (by omega), hiByte_eq_setWidth]
    · rw [hcell, withByte, if_pos hp, joinBytes_hiByte, ofInt_emod_byte]
    · rw [hcell, withByte, if_neg (by omega), joinBytes_loByte, ofInt_emod_byte]
    · exact peekCell_eq_of_bytes fun k hk => hfar k (by omega)
    · have hb : (b + 1) / 2 = b / 2 := by omega
      have hheld : holdsCells { s with mem := m } ((b + 1) / 2) [withByte w b (trunc8 v)] = true := by
        rw [hb]
        exact holdsCells_singleton.mpr ⟨hv, hcell⟩
      obtain ⟨m', hwr', hcell', -⟩ := writeByte_holds y hheld
      refine ⟨_, hwr', ?_⟩
      rw [hb] at hcell'
      rw [hcell', withByte, if_neg (by omega), withByte, if_pos hp, loByte_joinBytes, joinBytes_trunc8]
  · obtain ⟨m, n, hwr, hb, hsome, hfar, -⟩ := writeByte_spec v hv
    obtain ⟨w, hw⟩ := Option.isSome_iff_exists.mp hsome
    exact ⟨_, hwr, rfl, readByte_known hv hb, ⟨w, readCell_known hv hw⟩, hfar⟩

/-! ## Reset (10_state.md R25) -/

theorem peekByte_of_mem_nil {s : State} (h : s.mem = []) (b : Nat) : s.peekByte b = resetByte s.par b := by
  rw [State.peekByte, getByteAt, h]
  rfl

/-- A cell whose two bytes are the halves of `w` holds `w`. -/
theorem peekCell_of_byteOf {s : State} {c : Nat} {w : Word} (h0 : s.peekByte (2 * c) = some (byteOf w (2 * c)))
    (h1 : s.peekByte (2 * c + 1) = some (byteOf w (2 * c + 1))) : s.peekCell c = some w := by
  have e0 : byteOf w (2 * c) = loByte w := if_pos (by omega)
  have e1 : byteOf w (2 * c + 1) = hiByte w := if_neg (by omega)
  rw [peekCell_of_bytes h0 h1, e0, e1, joinBytes_lo_hi]

/-- Settles O15: an unlisted byte is of the identity region, of the boot image, or holds nothing. -/
theorem resetMemory : Obligations.ResetMemory := by
  intro s c hm
  have e0 : 2 * c / 2 = c := by omega
  have e1 : (2 * c + 1) / 2 = c := by omega
  refine ⟨fun hc => peekCell_of_byteOf ?_ ?_, fun w hc hw => peekCell_of_byteOf ?_ ?_, fun hc => ⟨?_, ?_⟩⟩ <;>
    rw [peekByte_of_mem_nil hm, resetByte]
  · rw [e0, if_pos hc]
    rfl
  · rw [e1, if_pos hc]
    rfl
  · rw [e0, if_neg (by omega), hw]
    rfl
  · rw [e1, if_neg (by omega), hw]
    rfl
  · rw [e0, if_neg (by omega), List.getElem?_eq_none (by omega)]
    rfl
  · rw [e1, if_neg (by omega), List.getElem?_eq_none (by omega)]
    rfl

/-- Settles O16: the fields of `State.reset` and of the parameters' defaults. -/
theorem resetState : Obligations.ResetState := by
  unfold Obligations.ResetState
  decide

end Sys2Proof.Machine
end

section
/-! PROOF. The primary instructions `L S A J T F K` (42_primary_ops.md R160 to R167). -/

namespace Sys2Proof.Machine

/-! ## Instructions that start with the operand -/

section Operand
variable {op : Operand} {s t : State} {k : Int → State → Host.Outcome State Fault Refusal}

theorem operand_andThen_ok {ea : Int} (h : operand op s = .ok ea t) : (operand op s).andThen k = k ea t := by
  rw [h, andThen_ok]

theorem operand_andThen_notReady (h : ¬ operandReady op s) : (operand op s).andThen k =
    .fault (.addressOutOfRange (operandBase op s) { s with run := .halted (.addressOutOfRange (operandBase op s)) }) := by
  rw [operand_notReady h, andThen_addressFault]

end Operand

/-- Settles O26: the operand, then the two register writes. -/
theorem loadResult : Obligations.LoadResult := by
  refine fun op s => ⟨fun h => ?_, fun h => operand_andThen_notReady h⟩
  obtain ⟨ea, n, ho⟩ := operand_ready h
  exact ⟨ea, n, ho, operand_andThen_ok ho⟩

/-- Settles O28: the sum is wrapped when it is stored in `A`. -/
theorem addImmediateResult : Obligations.AddImmediateResult := by
  refine fun op s => ⟨fun h => ?_, fun h => operand_andThen_notReady h⟩
  obtain ⟨ea, n, ho⟩ := operand_ready h
  exact ⟨ea, n, _, ho, operand_andThen_ok ho, sext16_trunc16 _⟩

/-- Settles O27: the operand, then the write of the cell it names. -/
theorem storeResult : Obligations.StoreResult := by
  refine fun op s => ⟨fun h => ?_, fun h => operand_andThen_notReady h⟩
  obtain ⟨ea, n, ho⟩ := operand_ready h
  have hexec : exec (.s op) s = (writeCell ea (sext16 s.a) { s with draws := n }).andThen fun _ t => .next t :=
    operand_andThen_ok ho
  refine ⟨ea, n, ho, fun hv => ?_, fun hv => ?_⟩
  · obtain ⟨m, hw, hcell, hfar⟩ := writeCell_spec (s := { s with draws := n }) (sext16 s.a) hv
    rw [trunc16_sext16] at hcell
    exact ⟨_, by rw [hexec, hw, andThen_ok], rfl, hcell, hfar⟩
  · rw [hexec, writeCell_invalid (s := { s with draws := n }) _ hv, andThen_addressFault]

/-- Settles O29: `T` and `F` test `A` after the operand is computed, in opposite senses. -/
theorem jumpResults : Obligations.JumpResults := by
  refine fun op s => ⟨fun h => ?_, fun h =>
    ⟨_, operand_andThen_notReady h, operand_andThen_notReady h, operand_andThen_notReady h⟩⟩
  obtain ⟨ea, n, ho⟩ := operand_ready h
  have ht : exec (.t op) s = .next (if isTruth s.a then { s with pc := ea, draws := n } else { s with draws := n }) :=
    operand_andThen_ok ho
  have hf : exec (.f op) s = .next (if isTruth s.a then { s with draws := n } else { s with pc := ea, draws := n }) :=
    operand_andThen_ok ho
  refine ⟨ea, n, ho, operand_andThen_ok ho, fun ha => ?_, fun ha => ?_⟩
  · have htruth : isTruth s.a = true := (isTruth_iff s.a).mpr ha
    rw [ht, hf, if_pos htruth, if_pos htruth]
    exact ⟨rfl, rfl⟩
  · have htruth : ¬ isTruth s.a = true := fun h => (isTruth_iff s.a).mp h ha
    rw [ht, hf, if_neg htruth, if_neg htruth]
    exact ⟨rfl, rfl⟩

/-! ## `K` (R166) -/

/-- All a genuine call into two valid link cells does. -/
theorem genuineCall_spec {frame : Int} {s : State} (h0 : validCell s.par frame) (h1 : validCell s.par (frame + 1)) :
    ∃ m, genuineCall frame s = .next { s with mem := m, sp := frame, pc := sext16 s.a } ∧
      holdsCells { s with mem := m } frame [trunc16 s.sp, trunc16 s.pc] = true ∧
      ∀ b, b / 2 ≠ frame.toNat → b / 2 ≠ (frame + 1).toNat → State.peekByte { s with mem := m } b = s.peekByte b := by
  have hpos := h0.1
  obtain ⟨m, hw, hcell, hfar⟩ := writeCell_spec s.sp h0
  obtain ⟨m', hw', hcell', hfar'⟩ := writeCell_spec (s := { s with mem := m }) s.pc h1
  refine ⟨m', ?_, ?_, fun b hb hb' => (hfar' b hb').trans (hfar b hb)⟩
  · rw [genuineCall, hw, andThen_ok, hw', andThen_ok]
  · have hfirst : State.peekCell { s with mem := m' } frame.toNat = some (trunc16 s.sp) :=
      (peekCell_eq_of_bytes fun b hb => hfar' b (by omega)).trans hcell
    simp [holdsCells, h0, h1, hfirst, hcell']

theorem genuineCall_invalid {frame : Int} {s : State} (h : ¬ validCell s.par frame) :
    ∃ r, genuineCall frame s = .fault (.addressOutOfRange frame r) :=
  ⟨_, by rw [genuineCall, writeCell_invalid _ h, andThen_addressFault]⟩

theorem genuineCall_invalid_second {frame : Int} {s : State} (h0 : validCell s.par frame) (h : ¬ validCell s.par (frame + 1)) :
    ∃ r, genuineCall frame s = .fault (.addressOutOfRange (frame + 1) r) := by
  obtain ⟨m, hw, -⟩ := writeCell_spec s.sp h0
  exact ⟨_, by rw [genuineCall, hw, andThen_ok, writeCell_invalid (s := { s with mem := m }) _ h, andThen_addressFault]⟩

/-- `K` with a target at or above the threshold is a genuine call. -/
theorem execK_genuine {op : Operand} {s : State} {ea : Int} {n : Nat} (ha : (s.par.progStart : Int) ≤ sext16 s.a)
    (ho : operand op s = .ok ea { s with draws := n }) :
    exec (.k op) s = genuineCall (s.sp + ea) { s with draws := n } :=
  (operand_andThen_ok ho).trans (if_neg (Int.not_lt.mpr ha))

/-- `K` with a target below the threshold is a system call. -/
theorem execK_sysCall {op : Operand} {s : State} {ea : Int} {n : Nat} (ha : sext16 s.a < s.par.progStart)
    (ho : operand op s = .ok ea { s with draws := n }) :
    exec (.k op) s = sysCall (sext16 s.a) (s.sp + ea + 2) { s with draws := n } :=
  (operand_andThen_ok ho).trans (if_pos ha)

/-- Settles O30: the operand, then the genuine call. -/
theorem genuineCallResult : Obligations.GenuineCall := by
  refine fun op s => ⟨fun h ha => ?_, fun h => operand_andThen_notReady h⟩
  obtain ⟨ea, n, ho⟩ := operand_ready h
  have hexec := execK_genuine ha ho
  refine ⟨ea, n, ho, fun h0 h1 => ?_, fun h0 => ?_, fun h0 h1 => ?_⟩
  · obtain ⟨m, hc, hlink, hfar⟩ := genuineCall_spec (s := { s with draws := n }) h0 h1
    exact ⟨_, hexec.trans hc, rfl, (holdsCells_congr rfl rfl _ _).trans hlink, hfar⟩
  · rw [hexec]
    exact genuineCall_invalid h0
  · rw [hexec]
    exact genuineCall_invalid_second h0 h1

theorem sysCall_unknown {n v : Int} {s : State} (h : s.par.serviceOf n = none) : sysCall n v s = .next (s.halt (.unknownCall n)) := by
  rw [sysCall, h]

/-- Settles O31: the fatal end keeps everything but the phase and the streams. -/
theorem unknownCall : Obligations.UnknownCall := by
  intro op s h ha hs
  obtain ⟨ea, n, ho⟩ := operand_ready h
  obtain ⟨records, files, live, m, hhalt⟩ := halt_frame (.unknownCall (sext16 s.a)) { s with draws := n }
  exact ⟨_, (execK_sysCall ha ho).trans (sysCall_unknown hs), halt_run _ _, by rw [hhalt]⟩

/-- A genuine call that answers a next state had two valid link cells. -/
theorem genuineCall_next {frame : Int} {s t : State} (h : genuineCall frame s = .next t) :
    validCell s.par frame ∧ validCell s.par (frame + 1) := by
  obtain ⟨h0, h⟩ := writeCell_andThen_next h
  obtain ⟨h1, -⟩ := writeCell_andThen_next h
  exact ⟨h0, h1⟩

/-! ## `X4` (43_extended_ops.md R184) -/

/-- A return through two cells that hold values. -/
theorem execX4_holds {s : State} {u t : Word} (h : holdsCells s s.sp [u, t] = true) :
    exec .x4 s = .next { s with pc := sext16 t, sp := sext16 u } := by
  obtain ⟨-, -, h1⟩ := holdsCells_cons h
  show execX4 s = _
  rw [execX4, readCell_holds h1, andThen_ok, readCell_holds h, andThen_ok]

/-- Settles O32: the link cells hold the caller's `SP` and `PC`, which are in the signed range of a cell. -/
theorem returnUndoesCall : Obligations.ReturnUndoesCall := by
  intro op s t u ha ht hpc hpc' hsp hsp' hpar hsame hcell hcell'
  obtain ⟨ea, n, h⟩ := operand_andThen_next ht
  rw [if_neg (Int.not_lt.mpr ha)] at h
  obtain ⟨h0, h1⟩ := genuineCall_next h
  obtain ⟨m, hc, hlink, -⟩ := genuineCall_spec h0 h1
  rw [hc] at h
  cases h
  obtain ⟨-, hold, h2⟩ := holdsCells_cons hlink
  obtain ⟨-, hret, -⟩ := holdsCells_cons h2
  have hheld : holdsCells u u.sp [trunc16 s.sp, trunc16 s.pc] = true := by
    rw [hsame]
    have e0 := hcell.trans hold
    have e1 := hcell'.trans hret
    simp only [holdsCells, hpar, e0, e1, decide_true, Bool.and_true, Bool.and_eq_true, decide_eq_true_eq]
    exact ⟨h0, h1⟩
  rw [execX4_holds hheld, sext16_trunc16_of_range (by omega) (by omega), sext16_trunc16_of_range (by omega) (by omega)]

end Sys2Proof.Machine
end

section
/-! PROOF. The sub-operations of `X` (43_extended_ops.md R180 to R205). -/

namespace Sys2Proof.Machine

/-! ## Selection -/

/-- Every row but `X1`, `X4` and `X23` reads no memory, and answers a next state. -/
theorem exec_selectorRow_next {k : Nat} {i : Instr} (h : selectorRow k = some i) (h1 : k ≠ 1) (h4 : k ≠ 4) (h23 : k ≠ 23) (s : State) :
    ∃ t, exec i s = .next t := by
  unfold selectorRow at h
  split at h <;> cases h
  case h_1 => exact absurd rfl h1
  case h_4 => exact absurd rfl h4
  case h_23 => exact absurd rfl h23
  all_goals exact ⟨_, rfl⟩

/-- Settles O33: the operand's value selects the row, and no other part of the operand matters. -/
theorem extendedSelects : Obligations.ExtendedSelects := by
  refine fun op s => ⟨fun k i n hk ho => ?_, fun h => operand_andThen_notReady h⟩
  have hexec : exec (.x op) s = exec i { s with draws := n } :=
    (operand_andThen_ok ho).trans (subOperation_of_selectorRow hk _)
  exact ⟨hexec, fun h1 h4 h23 => hexec ▸ exec_selectorRow_next hk h1 h4 h23 _⟩

/-- Settles O34: the fatal end keeps everything but the phase and the streams. -/
theorem unknownSelector : Obligations.UnknownSelector := by
  intro op s k n ho hk
  obtain ⟨records, files, live, m, hhalt⟩ := halt_frame (.unknownSelector k) { s with draws := n }
  exact ⟨_, (operand_andThen_ok ho).trans (subOperation_unknown hk _), halt_run _ _, by rw [hhalt]⟩

/-! ## Reads of memory -/

/-- Settles O35: all a read of the cell can do. -/
theorem indirectFetch : Obligations.IndirectFetch := by
  intro s
  have hexec : exec .x1 s = (readCell (sext16 s.a) s).andThen fun w t => .next { t with a := w } := rfl
  rw [hexec]
  rcases readCell_cases (sext16 s.a) s with ⟨hv, w, n, hr, hknown⟩ | ⟨hv, hr⟩ <;> rw [hr]
  · exact ⟨fun _ => ⟨w, n, rfl, hknown⟩, fun h => absurd hv h⟩
  · exact ⟨fun h => absurd h hv, fun _ => rfl⟩

/-- Settles O36: the return address is read first, then the caller's frame base. -/
theorem returnResult : Obligations.ReturnResult := by
  intro s
  have hexec : exec .x4 s = (readCell (s.sp + 1) s).andThen fun t s₁ => (readCell s₁.sp s₁).andThen fun u s₂ =>
    .next { s₂ with pc := sext16 t, sp := sext16 u } := rfl
  refine ⟨fun u t h => execX4_holds h, fun h0 h1 => ?_, fun h1 => ?_, fun h1 h0 => ?_⟩
  · obtain ⟨t, n, ht⟩ := readCell_valid h1
    obtain ⟨u, m, hu⟩ := readCell_valid (s := { s with draws := n }) h0
    exact ⟨u, t, m, by rw [hexec, ht, andThen_ok, hu, andThen_ok]; rfl⟩
  · exact ⟨_, by rw [hexec, readCell_invalid h1, andThen_addressFault]⟩
  · obtain ⟨t, n, ht⟩ := readCell_valid h1
    exact ⟨_, by rw [hexec, ht, andThen_ok, readCell_invalid (s := { s with draws := n }) h0, andThen_addressFault]⟩

/-! ## Division (R186, R187) -/

/-- The quotient toward zero by its sign and its size. -/
theorem quotient_eq (b a : Int) : quotient b a = b.sign * a.sign * ((b.natAbs / a.natAbs : Nat) : Int) := by
  rw [quotient, ← Int.sign_mul_natAbs (b.tdiv a), Int.natAbs_tdiv, Int.sign_tdiv]
  split
  · rename_i h
    rw [Nat.div_eq_of_lt h]
    simp
  · rfl

theorem remainder_eq_tmod (b a : Int) : remainder b a = b.tmod a := (Int.tmod_def b a).symm

/-- The remainder is smaller than the divisor, and zero or of the dividend's sign. -/
theorem remainder_spec (b : Int) {a : Int} (h : a ≠ 0) :
    (remainder b a).natAbs < a.natAbs ∧ (remainder b a = 0 ∨ (remainder b a).sign = b.sign) := by
  rw [remainder_eq_tmod, Int.natAbs_tmod, Int.sign_tmod]
  refine ⟨Nat.mod_lt _ (Int.natAbs_pos.mpr h), ?_⟩
  by_cases hd : a ∣ b
  · exact .inl (Int.tmod_eq_zero_of_dvd hd)
  · exact .inr (if_neg hd)

theorem sext16_eq_zero {w : Word} : sext16 w = 0 ↔ w = 0 := by
  rw [show (0 : Int) = sext16 0 from rfl, sext16_inj]

/-- Settles O38: with a divisor the quotient and the remainder are wrapped, and the remainder fits. -/
theorem divisionResults : Obligations.DivisionResults := by
  intro s b a q
  have h6 : exec .x6 s = .next (if sext16 s.a = 0 then s else aluResult quotient s) := rfl
  have h7 : exec .x7 s = .next (if sext16 s.a = 0 then s else aluResult remainder s) := rfl
  refine ⟨fun h => ?_, fun h => ?_⟩
  · have hz : sext16 s.a = 0 := sext16_eq_zero.mpr h
    rw [h6, h7, if_pos hz, if_pos hz]
    exact ⟨rfl, rfl⟩
  · have ha : a ≠ 0 := fun he => h (sext16_eq_zero.mp he)
    obtain ⟨hlt, hsign⟩ := remainder_spec b ha
    obtain ⟨hlow, hhigh⟩ : -32768 ≤ a ∧ a ≤ 32767 := sext16_range s.a
    have hr : (trunc16 (remainder b a)).toInt = remainder b a := sext16_trunc16_of_range (by omega) (by omega)
    have hq : quotient b a = q := quotient_eq b a
    refine ⟨⟨trunc16 (quotient b a), h6.trans (congrArg _ (if_neg ha)), hq ▸ sext16_trunc16 _⟩,
      trunc16 (remainder b a), h7.trans (congrArg _ (if_neg ha)), ?_⟩
    rw [hr]
    exact ⟨by rw [remainder, hq], hlt, hsign⟩

/-! ## Relations (R190 to R195) -/

theorem truthWord_congr {p : Prop} [Decidable p] {c : Bool} (h : p ↔ c = true) : truthWord p = if c then 0xFFFF else 0x0000 := by
  unfold truthWord
  simp only [h]

/-- Settles O39: each relation of the signed values is a comparison of words. -/
theorem relationResults : Obligations.RelationResults := by
  intro s result
  have row : ∀ {i : Instr} {p : Prop} [Decidable p] {c : Bool}, exec i s = .next { s with a := truthWord p } → (p ↔ c = true) →
      exec i s = result c := fun he hp => by rw [he, truthWord_congr hp]
  exact ⟨row rfl (sext16_inj.trans beq_iff_eq.symm),
    row rfl ((not_congr sext16_inj).trans bne_iff_ne.symm),
    row rfl BitVec.slt_iff_toInt_lt.symm,
    row rfl BitVec.sle_iff_toInt_le.symm,
    row rfl BitVec.slt_iff_toInt_lt.symm,
    row rfl BitVec.sle_iff_toInt_le.symm⟩

/-! ## Shifts (R196, R197) -/

theorem shiftLeft_eq (b : Word) (k : Nat) : shiftLeft b k = b <<< k := by
  have hpow : BitVec.ofInt 16 ((2 ^ k : Nat) : Int) = BitVec.twoPow 16 k := by
    apply BitVec.eq_of_toNat_eq
    rw [BitVec.ofInt_natCast, BitVec.toNat_ofNat, BitVec.toNat_twoPow]
  rw [shiftLeft, trunc16, BitVec.ofInt_mul, hpow, BitVec.shiftLeft_eq_mul_twoPow]
  exact congrArg (· * _) (trunc16_sext16 b)

theorem shiftRight_eq (b : Word) (k : Nat) : shiftRight b k = b >>> k := by
  apply BitVec.eq_of_toNat_eq
  rw [shiftRight, BitVec.toNat_ofNat, BitVec.toNat_ushiftRight, Nat.shiftRight_eq_div_pow]
  exact Nat.mod_eq_of_lt (Nat.lt_of_le_of_lt (Nat.div_le_self _ _) b.isLt)

/-- Settles O40: a shift amount is defined, or the result is a free value. -/
theorem shiftResults : Obligations.ShiftResults := by
  intro s
  have h16 : exec .x16 s = .next (shiftResult shiftLeft s) := rfl
  have h17 : exec .x17 s = .next (shiftResult shiftRight s) := rfl
  rw [h16, h17, shiftResult, shiftResult]
  refine ⟨fun k hk ha => ?_, fun h => ?_⟩
  · have ha' : sext16 s.a = k := ha
    have hdef : shiftDefined (sext16 s.a) := by rw [ha']; exact ⟨by omega, by omega⟩
    rw [if_pos hdef, if_pos hdef, ha', Int.toNat_natCast, shiftLeft_eq, shiftRight_eq]
    exact ⟨rfl, rfl⟩
  · have hundef : ¬ shiftDefined (sext16 s.a) := fun hd => by
      have h1 : 0 ≤ s.a.toInt := hd.1
      have h2 : s.a.toInt ≤ 15 := hd.2
      omega
    rw [if_neg hundef, if_neg hundef]
    exact ⟨⟨_, _, rfl⟩, _, _, rfl⟩

/-! ## The stop and the switch (R202, R203) -/

/-- Settles O42: the phase alone is written, and it is a terminal one. -/
theorem stopInstruction : Obligations.StopInstruction := fun _ => ⟨rfl, rfl⟩

/-- A switch whose count and default are in memory scans its pairs. -/
theorem execX23_scan {s : State} {n d : Word} {rest : List Word} (h : holdsCells s s.pc (n :: d :: rest) = true) (hn : 0 ≤ n.toInt) :
    exec .x23 s = (scanPairs (sext16 s.a) (sext16 d) (s.pc + 2) n.toInt.toNat s).andThen fun target t =>
      .next ({ t with pc := target } : State).anyB := by
  obtain ⟨-, -, h1⟩ := holdsCells_cons h
  show execX23 s = _
  rw [execX23, readCell_holds h, andThen_ok, readCell_holds h1, andThen_ok]
  exact if_neg (Int.not_lt.mpr hn)

/-- A switch whose scan finds `target` jumps there and leaves `B` some pattern. -/
theorem execX23_target {s : State} {n d : Word} {rest : List Word} {target : Int} {m : Nat}
    (h : holdsCells s s.pc (n :: d :: rest) = true) (hn : 0 ≤ n.toInt)
    (hscan : scanPairs (sext16 s.a) (sext16 d) (s.pc + 2) n.toInt.toNat s = .ok target { s with draws := m }) :
    ∃ (w : Word) (m : Nat), exec .x23 s = .next { s with pc := target, b := w, draws := m } :=
  ⟨_, _, by rw [execX23_scan h hn, hscan, andThen_ok]; rfl⟩

/-- The scan after the pairs that do not match. -/
theorem scanPairs_table {s : State} {n d : Word} {pairs : List (Word × Word)} {rest : List Word} (k : Nat)
    (hne : ∀ e ∈ pairs, e.1 ≠ s.a) (h : holdsCells s s.pc ((n :: d :: pairs.flatMap fun e => [e.1, e.2]) ++ rest) = true) :
    scanPairs (sext16 s.a) (sext16 d) (s.pc + 2) (pairs.length + k) s =
      scanPairs (sext16 s.a) (sext16 d) (s.pc + 2 + 2 * pairs.length) k s ∧
    holdsCells s (s.pc + 2 + 2 * pairs.length) rest = true := by
  obtain ⟨-, -, h1⟩ := holdsCells_cons h
  obtain ⟨-, -, h2⟩ := holdsCells_cons h1
  rw [show s.pc + 1 + 1 = s.pc + 2 by omega] at h2
  obtain ⟨hpairs, hrest⟩ := holdsCells_append h2
  refine ⟨scanPairs_skip k hpairs fun e he heq => hne e he (sext16_inj.mp heq), ?_⟩
  have hlen : ((pairs.flatMap fun e => [e.1, e.2]).length : Int) = 2 * pairs.length := by
    simp [List.length_flatMap, mul_comm]
  rwa [hlen] at hrest

/-- Settles O43: the pairs that do not match are passed over; what stands after them decides. -/
theorem switchResult : Obligations.SwitchResult := by
  intro s n d pairs hne table
  have htable : (table.length : Int) = 2 + 2 * pairs.length := by
    simp only [table, List.length_cons, List.length_flatMap]
    simp
    omega
  refine ⟨fun hn h => ?_, fun target hn h => ?_, fun value hv hn h hmissing => ?_, fun hn h => ?_⟩
  · obtain ⟨hscan, -⟩ := scanPairs_table (rest := []) 0 hne (by rwa [List.append_nil])
    refine execX23_target (m := s.draws) h (by omega) ?_
    rw [hn, Int.toNat_natCast, ← Nat.add_zero pairs.length, hscan]
    rfl
  · obtain ⟨hscan, hmatch⟩ := scanPairs_table ((n.toInt.toNat - pairs.length - 1) + 1) hne h
    obtain ⟨-, -, htarget⟩ := holdsCells_cons hmatch
    refine execX23_target (m := s.draws) h (by omega) ?_
    rw [show n.toInt.toNat = pairs.length + ((n.toInt.toNat - pairs.length - 1) + 1) by omega, hscan, scanPairs, readCell_holds hmatch,
      bind_ok, if_pos rfl, readCell_holds htarget, bind_ok]
    rfl
  · obtain ⟨hscan, hvalue⟩ := scanPairs_table 1 hne h
    refine execX23_target (m := s.draws) h (by omega) ?_
    rw [show n.toInt.toNat = pairs.length + 1 by omega, hscan, scanPairs, readCell_holds hvalue, bind_ok,
      if_neg fun he => hv (sext16_inj.mp he), skipTarget_missing (by rwa [htable, ← add_assoc] at hmissing), bind_ok]
    rfl
  · obtain ⟨-, -, h1⟩ := holdsCells_cons h
    show execX23 s = _
    rw [execX23, readCell_holds h, andThen_ok, readCell_holds h1, andThen_ok]
    exact if_pos hn

end Sys2Proof.Machine
end

section
/-! PROOF. An encoded word as a number (30_encoding.md R70), and the boot (70_reset_and_hazards.md R290 to R293): the host's driver
and the trampoline `LI<g> K2 X22`. -/

namespace Sys2Proof

theorem toNat_append_eq {m n : Nat} (x : BitVec m) (y : BitVec n) : (x ++ y).toNat = 2 ^ n * x.toNat + y.toNat := by
  rw [BitVec.toNat_append, Nat.shiftLeft_eq, Nat.mul_comm, ← Nat.two_pow_add_eq_or_of_lt y.isLt]

/-- The value of a word laid out by fields. -/
theorem toNat_fieldsWord (n : Byte) (d p i : Bool) (op : BitVec 3) :
    (fieldsWord n d p i op).toNat = 256 * n.toNat + 32 * d.toNat + 16 * p.toNat + 8 * i.toNat + op.toNat := by
  simp only [fieldsWord, toNat_append_eq, BitVec.toNat_ofBool, BitVec.toNat_ofNat]
  omega

end Sys2Proof

namespace Sys2Proof.Machine

/-! ## The host's driver -/

theorem step_driver {s : State} (h : s.run = .ready ∨ s.run = .reset) : step s = driverStep s := by
  rcases h with h | h <;> rw [step, h]

theorem driverStep_start {s : State} (h : s.config = []) : driverStep s = .next s.start := by
  rw [driverStep, h]

theorem driverStep_item {s : State} {item : RunItem} {rest : List RunItem} (h : s.config = item :: rest) :
    driverStep s = (driveItem item { s with config := rest }).andThen fun _ t => .next t := by
  rw [driverStep, h]

/-- A name that is neither reserved nor found opens no stream (44_syscall_port.md R237). -/
theorem openInput_notFound {s : State} {name : Name} (hr : reservedHandle s.par name = none) (hf : lookupFile name s.files = none) :
    s.openInput name = (0, s) := by
  simp only [State.openInput, hr, hf]

/-- Settles O17: the start is one step; a load of a missing name raises `LoadFailure`. -/
theorem driverSteps : Obligations.DriverSteps := by
  intro s hrun
  rw [step_driver hrun]
  refine ⟨driverStep_start, fun name rest hc hr hf => ?_⟩
  obtain ⟨records, files, live, n, hhalt⟩ := halt_frame .loadFailure { s with config := rest }
  have hload : loadCode name { s with config := rest } = .ended (State.halt .loadFailure { s with config := rest }) := by
    rw [loadCode, openInput_notFound (s := { s with config := rest }) hr hf]
    rfl
  rw [driverStep_item hc]
  refine ⟨State.halt .loadFailure { s with config := rest }, ?_, halt_run _ _, ?_, ?_⟩
  · simp only [driveItem, hload, andThen_ended]
  · exact endedRunTakesNoStep _ 0 _ (.inr (halt_run _ _))
  · rw [hhalt]

/-! ## The trampoline -/

theorem encode_loadGlobal (g : Nat) :
    encode (.l ⟨true, false, .packed (BitVec.ofNat 8 g)⟩) = [BitVec.ofNat 16 (256 * g + 8)] := by
  show [encodeWord 0 ⟨true, false, .packed (BitVec.ofNat 8 g)⟩] = _
  rw [encodeWord_packed]
  congr 1
  apply BitVec.eq_of_toNat_eq
  rw [toNat_fieldsWord, BitVec.toNat_ofNat, BitVec.toNat_ofNat]
  simp
  omega

/-- The trampoline's first instruction, `LI<g>`, brings the entry address to `A`. -/
theorem step_loadGlobal {s : State} {g : Nat} {e : Word} (hg : g ≤ 255) (hrun : s.run = .running)
    (hw : holdsCells s s.pc [BitVec.ofNat 16 (256 * g + 8)] = true) (hcell : holdsCells s g [e] = true) :
    step s = .next { s with a := e, b := s.a, pc := s.pc + 1 } := by
  rw [← encode_loadGlobal g] at hw
  rw [encodedInstructionRuns s _ rfl hrun hw]
  have hbase : operandBase ⟨true, false, .packed (BitVec.ofNat 8 g)⟩ { s with pc := s.pc + 1 } = g := by
    rw [operandBase_eq]
    simp [literalValue]
    omega
  obtain ⟨hv, hpeek⟩ := holdsCells_singleton.mp hcell
  have ho : operand ⟨true, false, .packed (BitVec.ofNat 8 g)⟩ { s with pc := s.pc + 1 } = .ok (sext16 e) { s with pc := s.pc + 1 } :=
    operand_known rfl (by rw [hbase]; exact hv) (by rw [hbase]; exact hpeek)
  refine (operand_andThen_ok ho).trans ?_
  rw [trunc16_sext16]

/-- The trampoline's second instruction, `K2`. -/
theorem step_callTwo {s : State} (hrun : s.run = .running) (hw : holdsCells s s.pc [518] = true) :
    step s = exec (.k ⟨false, false, .packed 2⟩) { s with pc := s.pc + 1 } :=
  encodedInstructionRuns s (.k ⟨false, false, .packed 2⟩) rfl hrun hw

theorem operand_two (s : State) : operand ⟨false, false, .packed 2⟩ s = .ok 2 { s with draws := s.draws } := rfl

/-- The trampoline's last instruction, `X22`. -/
theorem step_stop {s : State} (hrun : s.run = .running) (hw : holdsCells s s.pc [5639] = true) :
    step s = .next { s with pc := s.pc + 1, run := .stopped 0 } :=
  encodedInstructionRuns s .x22 rfl hrun hw

/-- Settles O18: the load of the entry address, the genuine call of it, and the stop where the call returns to. -/
theorem bootTrampolineRuns : Obligations.BootTrampoline := by
  intro s g e hg hrun hpc hw hcell he h2 h3
  obtain ⟨hw0, hw12⟩ := holdsCells_append (l := [_]) hw
  obtain ⟨hw1, hw2⟩ := holdsCells_append (l := [_]) hw12
  constructor
  · have hthird : validCell s.par (s.sp + 2 + 1) := by rwa [add_assoc]
    have hone := step_loadGlobal hg hrun hw0 hcell
    obtain ⟨m, hc, hlink, hfar⟩ :=
      genuineCall_spec (s := { s with a := e, b := s.a, pc := s.pc + 1 + 1 }) (frame := s.sp + 2) h2 hthird
    have htwo := (step_callTwo (s := { s with a := e, b := s.a, pc := s.pc + 1 }) hrun hw1).trans
      ((execK_genuine he (operand_two _)).trans hc)
    refine ⟨_, _, hone, htwo, rfl, rfl, rfl, hrun, ?_, fun b hb hb' => hfar b hb (by rwa [add_assoc])⟩
    rw [add_assoc] at hlink
    exact (holdsCells_congr rfl rfl _ _).trans hlink
  · have hlast : s.pc + ([BitVec.ofNat 16 (256 * g + 8)] : List Word).length + ([518] : List Word).length = s.pc + 2 := by simp; omega
    rw [hlast] at hw2
    refine (step_stop (s := { s with pc := s.pc + 2 }) hrun hw2).trans ?_
    rw [add_assoc]
    rfl

/-- Settles O19: the load of cell 1, and the call of a number no service owns. -/
theorem bootWithoutProgram : Obligations.BootWithoutProgram := by
  intro s e hrun hpc hw hcell he hs
  obtain ⟨hw0, hw12⟩ := holdsCells_append (l := [_]) hw
  obtain ⟨hw1, -⟩ := holdsCells_append (l := [_]) hw12
  have hone := step_loadGlobal (g := 1) (by omega) hrun hw0 hcell
  obtain ⟨records, files, live, n, hhalt⟩ :=
    halt_frame (.unknownCall (sext16 e)) { s with a := e, b := s.a, pc := s.pc + 1 + 1 }
  have htwo := (step_callTwo (s := { s with a := e, b := s.a, pc := s.pc + 1 }) hrun hw1).trans
    ((execK_sysCall he (operand_two _)).trans (sysCall_unknown hs))
  refine ⟨_, _, hone, htwo, halt_run _ _, ?_⟩
  rw [hhalt, add_assoc]
  rfl

end Sys2Proof.Machine
end

section
/-! PROOF. The services on the block's own state, on bytes and on handles (44_syscall_port.md R225 to R236). Each is stated for the
state the service is entered with, which a `K` reaches with at most the draw counter moved. -/

namespace Sys2Proof.Machine

/-- A `K` that calls a service runs it, with at most the draw counter moved by its operand. -/
theorem exec_service {service : Service} {op : Operand} {v : Int} {s t : State} (h : callsService service op v s t) :
    ∃ n, exec (.k op) s = runService service v { s with draws := n } := by
  obtain ⟨n, hn⟩ := operand_eq_ok h.1
  exact ⟨n, hn ▸ execK_service h⟩

/-! ## Arguments -/

/-- Each of the cells that are held. -/
theorem holdsCells_getElem {s : State} {c : Int} {cells : List Word} {i : Nat} {w : Word} (h : holdsCells s c cells = true)
    (hi : cells[i]? = some w) : validCell s.par (c + i) ∧ s.peekCell (c + i).toNat = some w := by
  induction cells generalizing c i with
  | nil => simp at hi
  | cons x rest ih =>
    obtain ⟨h1, h2, h3⟩ := holdsCells_cons h
    cases i with
    | zero =>
      obtain rfl : x = w := by simpa using hi
      simpa using ⟨h1, h2⟩
    | succ i =>
      have := ih h3 (i := i) (by simpa using hi)
      rwa [show c + 1 + (i : Int) = c + ((i + 1 : Nat) : Int) by omega] at this

section Arguments
variable {v a : Int} {i : Nat} {s : State} {w : Word} {cells : List Word}

theorem argument_holds (h : holdsCells s v cells = true) (hi : cells[i]? = some w) : argument v i s = .ok (sext16 w) s := by
  obtain ⟨h1, h2⟩ := holdsCells_getElem h hi
  exact argument_known h1 h2

theorem argument_valid (ha : v + i = a) (h : validCell s.par a) :
    ∃ w n, argument v i s = .ok (sext16 w) { s with draws := n } ∧ ∀ x, s.peekCell a.toNat = some x → w = x := by
  rcases readCell_cases a s with ⟨-, w, n, hr, hw⟩ | ⟨hn, -⟩
  · exact ⟨w, n, by rw [argument, ha, hr, bind_ok], fun x hx => (hw x hx).1⟩
  · exact absurd h hn

theorem argument_invalid (ha : v + i = a) (h : ¬ validCell s.par a) : argument v i s = addressFault a s := by
  rw [argument, ha, readCell_invalid h, bind_addressFault]

end Arguments

/-! ## `Stop` and `Level` (R225, R226) -/

theorem stop_valid {v : Int} {s : State} (h : validCell s.par v) : ∃ (w : Word) (n : Nat),
    runService .stop v s = .next (serviceDone { s with run := .stopped w, draws := n }) ∧
    ∀ x, s.peekCell v.toNat = some x → w = x := by
  obtain ⟨w, n, ha, hw⟩ := argument_valid (i := 0) (Int.add_zero v) h
  refine ⟨w, n, ?_, hw⟩
  show serviceStop v s = _
  rw [serviceStop, ha, andThen_ok, trunc16_sext16]

theorem stop_invalid {v : Int} {s : State} (h : ¬ validCell s.par v) :
    ∃ r, runService .stop v s = .fault (.addressOutOfRange v r) := by
  show ∃ r, serviceStop v s = _
  rw [serviceStop, argument_invalid (i := 0) (Int.add_zero v) h, andThen_addressFault]
  exact ⟨_, rfl⟩

/-- Settles O44: `Stop` reads one argument, `Level` none. -/
theorem stopAndLevel : Obligations.StopAndLevel := by
  refine fun op v s t => ⟨fun h hv => ?_, fun h hv => ?_, fun h => ?_⟩ <;> obtain ⟨n, hexec⟩ := exec_service h
  · obtain ⟨w, m, hstop, hw⟩ := stop_valid (s := { s with draws := n }) hv
    exact ⟨w, _, _, _, hexec.trans hstop, hw⟩
  · rw [hexec]
    exact stop_invalid hv
  · exact ⟨_, _, hexec.trans rfl⟩

/-! ## `LongJump` (R227) -/

theorem longJump_holds {v : Int} {s : State} {x y : Word} (h : holdsCells s v [x, y] = true) :
    runService .longJump v s = .next (serviceDone { s with sp := sext16 x, pc := sext16 y }) := by
  show serviceLongJump v s = _
  rw [serviceLongJump, argument_holds (i := 0) h rfl, andThen_ok, argument_holds (i := 1) h rfl, andThen_ok]

theorem longJump_invalid {v : Int} {s : State} (h : ¬ validCell s.par v) :
    ∃ r, runService .longJump v s = .fault (.addressOutOfRange v r) := by
  show ∃ r, serviceLongJump v s = _
  rw [serviceLongJump, argument_invalid (i := 0) (Int.add_zero v) h, andThen_addressFault]
  exact ⟨_, rfl⟩

theorem longJump_invalid_second {v : Int} {s : State} (h0 : validCell s.par v) (h1 : ¬ validCell s.par (v + 1)) :
    ∃ r, runService .longJump v s = .fault (.addressOutOfRange (v + 1) r) := by
  obtain ⟨w, n, ha, -⟩ := argument_valid (i := 0) (Int.add_zero v) h0
  show ∃ r, serviceLongJump v s = _
  rw [serviceLongJump, ha, andThen_ok, argument_invalid (i := 1) (s := { s with draws := n }) rfl h1, andThen_addressFault]
  exact ⟨_, rfl⟩

/-- Settles O45: both arguments are read, in order, before `SP` and `PC` are written. -/
theorem longJump : Obligations.LongJump := by
  intro op v s t h
  obtain ⟨n, hexec⟩ := exec_service h
  refine ⟨fun x y hxy => ?_, fun h0 => ?_, fun h0 h1 => ?_⟩
  · exact ⟨_, _, _, hexec.trans (longJump_holds ((holdsCells_draws s n v _).trans hxy))⟩
  · rw [hexec]
    exact longJump_invalid h0
  · rw [hexec]
    exact longJump_invalid_second h0 h1

/-! ## `AptOvec` (R228) -/

theorem holdsCells_append_intro {s : State} {c : Int} {l m : List Word} (hl : holdsCells s c l = true)
    (hm : holdsCells s (c + l.length) m = true) : holdsCells s c (l ++ m) = true := by
  induction l generalizing c with
  | nil => simpa using hm
  | cons w rest ih =>
    obtain ⟨h1, h2, h3⟩ := holdsCells_cons hl
    rw [List.length_cons, show c + ((rest.length + 1 : Nat) : Int) = c + 1 + rest.length by omega] at hm
    simp [holdsCells, h1, h2, ih h3 hm]

/-- Cells are held where their bytes are as in a state that holds them. -/
theorem holdsCells_of_bytes {s t : State} {c : Int} {cells : List Word} (h : holdsCells s c cells = true) (hp : t.par = s.par)
    (hb : ∀ b : Nat, c ≤ (b / 2 : Nat) → ((b / 2 : Nat) : Int) < c + cells.length → t.peekByte b = s.peekByte b) :
    holdsCells t c cells = true := by
  induction cells generalizing c with
  | nil => rfl
  | cons w rest ih =>
    obtain ⟨h1, h2, h3⟩ := holdsCells_cons h
    have h0 := h1.1
    rw [List.length_cons] at hb
    have hcell : t.peekCell c.toNat = some w := (peekCell_eq_of_bytes fun b e => hb b (by omega) (by omega)).trans h2
    have hrest := ih h3 fun b e e' => hb b (by omega) (by omega)
    simp only [holdsCells, hp, hcell, hrest, decide_true, Bool.and_true, decide_eq_true_eq]
    exact h1

/-- A write just above held cells adds the cell to them, and changes no byte of another. -/
theorem writeCell_above {s : State} {c a : Int} {cells : List Word} (v : Int) (h : holdsCells s c cells = true)
    (ha : c + cells.length = a) (hv : validCell s.par a) :
    ∃ t, writeCell a v s = .ok () t ∧ t = { s with mem := t.mem } ∧ holdsCells t c (cells ++ [trunc16 v]) = true ∧
      ∀ b : Nat, ((b / 2 : Nat) : Int) ≠ a → t.peekByte b = s.peekByte b := by
  have h0 := hv.1
  obtain ⟨m, hw, hcell, hfar⟩ := writeCell_spec v hv
  refine ⟨_, hw, rfl, holdsCells_append_intro (holdsCells_of_bytes h rfl fun b _ hb => hfar b (by omega)) ?_,
    fun b hb => hfar b (by omega)⟩
  rw [ha]
  exact holdsCells_singleton.mpr ⟨hv, hcell⟩

/-- The frame that `AptOvec` builds at `base`. -/
theorem aptOvec_frame {s : State} {v base : Int} {f n : Word} (h : holdsCells s v [f, n] = true) (hn : 0 ≤ sext16 n)
    (hbase : v - 2 + sext16 n + 1 = base) (h0 : validCell s.par base) (h3 : validCell s.par (base + 3)) :
    ∃ m, runService .aptOvec v s = .next (serviceDone { s with mem := m, sp := base, pc := sext16 f }) ∧
      holdsCells { s with mem := m } base [trunc16 s.sp, trunc16 s.pc, trunc16 (v - 2), n] = true ∧
      ∀ b : Nat, ((b / 2 : Nat) : Int) < base ∨ base + 3 < ((b / 2 : Nat) : Int) →
        State.peekByte { s with mem := m } b = s.peekByte b := by
  have hvalid : ∀ i : Int, 0 ≤ i → i ≤ 3 → validCell s.par (base + i) := fun i hi hi' =>
    ⟨Int.add_nonneg h0.1 hi, Int.lt_of_le_of_lt (Int.add_le_add_left hi' base) h3.2⟩
  obtain ⟨t0, w0, e0, c0, f0⟩ := writeCell_above (cells := []) s.sp rfl (Int.add_zero base) h0
  obtain ⟨t1, w1, e1, c1, f1⟩ := writeCell_above (a := base + 1) t0.pc c0 rfl (e0 ▸ hvalid 1 (by omega) (by omega))
  obtain ⟨t2, w2, e2, c2, f2⟩ := writeCell_above (a := base + 2) (v - 2) c1 rfl (e1 ▸ e0 ▸ hvalid 2 (by omega) (by omega))
  obtain ⟨t3, w3, e3, c3, f3⟩ := writeCell_above (a := base + 3) (sext16 n) c2 rfl (e2 ▸ e1 ▸ e0 ▸ hvalid 3 (by omega) (by omega))
  have hrun : runService .aptOvec v s = .next (serviceDone { t3 with sp := base, pc := sext16 f }) := by
    show serviceAptOvec v s = _
    rw [serviceAptOvec, argument_holds (i := 0) h rfl, andThen_ok, argument_holds (i := 1) h rfl, andThen_ok,
      if_neg (Int.not_lt.mpr hn)]
    dsimp only
    rw [hbase, w0, andThen_ok, w1, andThen_ok, w2, andThen_ok, w3, andThen_ok]
  have hpc : t0.pc = s.pc := e0 ▸ rfl
  have hmem : t3 = { s with mem := t3.mem } := by rw [e3, e2, e1, e0]
  have hfar : ∀ b : Nat, ((b / 2 : Nat) : Int) < base ∨ base + 3 < ((b / 2 : Nat) : Int) → t3.peekByte b = s.peekByte b := fun b hb =>
    (f3 b (by omega)).trans <| (f2 b (by omega)).trans <| (f1 b (by omega)).trans <| f0 b (by omega)
  rw [hpc, trunc16_sext16] at c3
  rw [hmem] at hrun c3 hfar
  exact ⟨t3.mem, hrun, c3, hfar⟩

theorem aptOvec_negative {s : State} {v : Int} {f n : Word} (h : holdsCells s v [f, n] = true) (hn : n.toInt < 0) :
    runService .aptOvec v s = .refused (.negativeVectorBound n.toInt) := by
  show serviceAptOvec v s = _
  rw [serviceAptOvec, argument_holds (i := 0) h rfl, andThen_ok, argument_holds (i := 1) h rfl, andThen_ok]
  exact if_pos hn

/-- Settles O46: four cells are written at the new frame base, or the bound is refused. -/
theorem aptOvec : Obligations.AptOvec := by
  intro op v s t f n h hargs base
  obtain ⟨m, hexec⟩ := exec_service h
  have hheld := (holdsCells_draws s m v _).trans hargs
  refine ⟨fun hn h0 h3 => ?_, fun hn => hexec.trans (aptOvec_negative hheld hn)⟩
  obtain ⟨mem, hrun, hframe, hfar⟩ := aptOvec_frame hheld hn rfl h0 h3
  exact ⟨_, hexec.trans hrun, rfl, (holdsCells_congr rfl rfl _ _).trans hframe, hfar⟩

/-! ## `GetByte` and `PutByte` (R229, R230) -/

theorem trunc16_byte (x : Byte) : trunc16 (x.toNat : Int) = x.setWidth 16 := by
  apply BitVec.eq_of_toNat_eq
  simp [trunc16]

theorem trunc8_sext16 (w : Word) : trunc8 (sext16 w) = w.setWidth 8 := by
  apply BitVec.eq_of_toNat_eq
  rw [toNat_trunc8, BitVec.toNat_setWidth]
  have h := BitVec.toInt_eq_toNat_bmod w
  rw [Int.bmod_def] at h
  unfold sext16
  split at h <;> omega

/-- `GetByte` is a read of the byte. -/
theorem getByte_holds {s : State} {v : Int} {c i : Word} (h : holdsCells s v [c, i] = true) :
    runService .getByte v s = (readByte (2 * c.toInt + i.toInt) s).andThen fun y t => .next (serviceResult y.toNat t) := by
  show serviceGetByte v s = _
  rw [serviceGetByte, argument_holds (i := 0) h rfl, andThen_ok, argument_holds (i := 1) h rfl, andThen_ok]
  rfl

theorem getByte_valid {s : State} {v : Int} {c i : Word} (h : holdsCells s v [c, i] = true)
    (hv : validCell s.par ((2 * c.toInt + i.toInt) / 2)) : ∃ (y : Byte) (n : Nat),
      runService .getByte v s = .next (serviceResult y.toNat { s with draws := n }) ∧
      ∀ z, s.peekByte (2 * c.toInt + i.toInt).toNat = some z → y = z := by
  cases hz : s.peekByte (2 * c.toInt + i.toInt).toNat with
  | none =>
    obtain ⟨y, n, hr⟩ := readByte_valid hv
    exact ⟨y, n, by rw [getByte_holds h, hr, andThen_ok], by simp⟩
  | some z => exact ⟨z, s.draws, by rw [getByte_holds h, readByte_known hv hz, andThen_ok], by simp⟩

theorem getByte_invalid {s : State} {v : Int} {c i : Word} (h : holdsCells s v [c, i] = true)
    (hv : ¬ validCell s.par ((2 * c.toInt + i.toInt) / 2)) :
    ∃ r, runService .getByte v s = .fault (.addressOutOfRange (2 * c.toInt + i.toInt) r) := by
  rw [getByte_holds h, readByte_invalid hv, andThen_addressFault]
  exact ⟨_, rfl⟩

/-- `PutByte` is a write of the byte. -/
theorem putByte_holds {s : State} {v : Int} {c i x : Word} (h : holdsCells s v [c, i, x] = true) :
    runService .putByte v s = (writeByte (2 * c.toInt + i.toInt) (sext16 x) s).andThen fun _ t => .next (serviceDone t) := by
  show servicePutByte v s = _
  rw [servicePutByte, argument_holds (i := 0) h rfl, andThen_ok, argument_holds (i := 1) h rfl, andThen_ok,
    argument_holds (i := 2) h rfl, andThen_ok]
  rfl

theorem putByte_valid {s : State} {v : Int} {c i x : Word} (h : holdsCells s v [c, i, x] = true)
    (hv : validCell s.par ((2 * c.toInt + i.toInt) / 2)) : ∃ m n,
      runService .putByte v s = .next (serviceDone { s with mem := m, draws := n }) ∧
      State.peekByte { s with mem := m, draws := n } (2 * c.toInt + i.toInt).toNat = some (x.setWidth 8) ∧
      (∀ k y, k ≠ (2 * c.toInt + i.toInt).toNat → s.peekByte k = some y →
        State.peekByte { s with mem := m, draws := n } k = some y) ∧
      ∀ k, k / 2 ≠ ((2 * c.toInt + i.toInt) / 2).toNat → State.peekByte { s with mem := m, draws := n } k = s.peekByte k := by
  obtain ⟨m, n, hw, hb, -, hfar, hkeep⟩ := writeByte_spec (sext16 x) hv
  rw [trunc8_sext16] at hb
  exact ⟨m, n, by rw [putByte_holds h, hw, andThen_ok], hb, hkeep, hfar⟩

theorem putByte_invalid {s : State} {v : Int} {c i x : Word} (h : holdsCells s v [c, i, x] = true)
    (hv : ¬ validCell s.par ((2 * c.toInt + i.toInt) / 2)) :
    ∃ r, runService .putByte v s = .fault (.addressOutOfRange (2 * c.toInt + i.toInt) r) := by
  rw [putByte_holds h, writeByte_invalid _ hv, andThen_addressFault]
  exact ⟨_, rfl⟩

/-- Settles O47: the arguments, then one read or one write of the byte. -/
theorem byteServices : Obligations.ByteServices := by
  intro op v s t c i x address
  refine ⟨fun h hargs => ?_, fun h hargs => ?_⟩ <;> obtain ⟨m, hexec⟩ := exec_service h <;>
    have hheld := (holdsCells_draws s m v _).trans hargs
  · refine ⟨fun hv => ?_, fun hv => ?_⟩
    · obtain ⟨y, n, hget, hy⟩ := getByte_valid hheld hv
      rw [serviceResult, trunc16_byte] at hget
      exact ⟨y, _, _, hexec.trans hget, hy⟩
    · rw [hexec]
      exact getByte_invalid hheld hv
  · refine ⟨fun hv => ?_, fun hv => ?_⟩
    · obtain ⟨mem, n, hput, hb, hkeep, hfar⟩ := putByte_valid hheld hv
      exact ⟨_, hexec.trans hput, rfl, hb, hkeep, hfar⟩
    · rw [hexec]
      exact putByte_invalid hheld hv

/-! ## Handles (R231, R236) -/

/-- A selection sets its handle to the argument. -/
theorem select_holds {v : Int} {s : State} {h : Word} (hh : holdsCells s v [h] = true) :
    runService .selectInput v s = .next (serviceDone { s with cis := h.toInt }) ∧
    runService .selectOutput v s = .next (serviceDone { s with cos := h.toInt }) := by
  show serviceSelectInput v s = _ ∧ serviceSelectOutput v s = _
  rw [serviceSelectInput, serviceSelectOutput, argument_holds (i := 0) hh rfl, andThen_ok, andThen_ok]
  exact ⟨rfl, rfl⟩

/-- Settles O48: the selections read their argument; the others are each one update of the state. -/
theorem handleServices : Obligations.HandleServices := by
  refine fun op v s t => ⟨?_, fun h hc hh => ?_, fun h hc hh => ?_, fun hc => ?_, fun hc => ?_, fun hc => ?_, fun hc => ?_⟩
  · rintro (hc | hc) <;> obtain ⟨n, hexec⟩ := exec_service hc <;> exact ⟨_, _, _, hexec.trans rfl⟩
  · obtain ⟨n, hexec⟩ := exec_service hc
    exact ⟨_, _, _, hexec.trans (select_holds ((holdsCells_draws s n v _).trans hh)).1⟩
  · obtain ⟨n, hexec⟩ := exec_service hc
    exact ⟨_, _, _, hexec.trans (select_holds ((holdsCells_draws s n v _).trans hh)).2⟩
  all_goals obtain ⟨n, hexec⟩ := exec_service hc
  · exact ⟨_, _, hexec.trans rfl⟩
  · exact ⟨_, _, hexec.trans rfl⟩
  · exact ⟨_, _, _, hexec.trans rfl⟩
  · exact ⟨_, _, _, hexec.trans rfl⟩

end Sys2Proof.Machine
end

section
/-! PROOF. The stream services (44_syscall_port.md R233 to R241), the string services (R235), and what every service may write
(R242). Each service is stated for the state it is entered with. -/

namespace Sys2Proof.Machine

/-! ## What every service may write (R242) -/

/-- What a service that answers next keeps: a property that does not depend on what every service may write, where the service is
none of those that write the rest. -/
theorem runService_frame {P : State → Prop} {service : Service} {v : Int} {s t : State} (h : runService service v s = .next t)
    (hP : ∀ t a b slots records files live n, P t →
      P { t with a := a, b := b, slots := slots, records := records, files := files, live := live, draws := n })
    (hm : service.writesMemory = true → PokeClosed P) (hc : service.writesControl = true → ControlClosed P)
    (hi : service = .selectInput ∨ service = .endRead → CisClosed P)
    (ho : service = .selectOutput ∨ service = .endWrite → CosClosed P) (he : service = .stop → StopClosed P) (hs : P s) : P t :=
  holds_next (runService_keeps (quietClosed_of_frame hP) hm hc hi ho he hs) h

theorem writesControl_eq_true {service : Service} (h : service.writesControl = true) : service = .longJump ∨ service = .aptOvec := by
  cases service <;> simp_all [Service.writesControl]

theorem writesMemory_eq_true {service : Service} (h : service.writesMemory = true) :
    service = .aptOvec ∨ service = .putByte ∨ service = .packString ∨ service = .unpackString ∨ service = .readN := by
  cases service <;> simp_all [Service.writesMemory]

theorem stop_next {v : Int} {s t : State} (h : runService .stop v s = .next t) : ∃ w, t.run = .stopped w := by
  by_cases hv : validCell s.par v
  · obtain ⟨w, n, he, -⟩ := stop_valid hv
    rw [he] at h
    exact ⟨w, by rw [next_inj h]; rfl⟩
  · obtain ⟨r, he⟩ := stop_invalid hv
    rw [he] at h
    cases h

/-- Settles O54: each part of the state that few services write is kept by all others. -/
theorem servicesAreBounded : Obligations.ServicesAreBounded := by
  intro service v s t h
  refine ⟨fun h1 h2 => ?_, fun h1 h2 h3 h4 h5 b => ?_, fun h1 h2 => ?_, fun h1 h2 => ?_, ?_, fun h1 => ?_, fun h1 => ?_⟩
  · refine runService_frame (P := fun t => t.sp = s.sp ∧ t.pc = s.pc) h (fun _ _ _ _ _ _ _ _ h => h) (fun _ _ _ _ _ h => h)
      (fun hc => ?_) (fun _ _ _ h => h) (fun _ _ _ h => h) (fun _ _ _ h => h) ⟨rfl, rfl⟩
    rcases writesControl_eq_true hc with hc | hc <;> contradiction
  · have hmem : t.par = s.par ∧ t.mem = s.mem := by
      refine runService_frame (P := fun t => t.par = s.par ∧ t.mem = s.mem) h (fun _ _ _ _ _ _ _ _ h => h) (fun hm => ?_)
        (fun _ _ _ _ h => h) (fun _ _ _ h => h) (fun _ _ _ h => h) (fun _ _ _ h => h) ⟨rfl, rfl⟩
      rcases writesMemory_eq_true hm with hm | hm | hm | hm | hm <;> contradiction
    exact peekByte_congr hmem.1 hmem.2 b
  · refine runService_frame (P := fun t => t.cis = s.cis) h (fun _ _ _ _ _ _ _ _ h => h) (fun _ _ _ _ _ h => h)
      (fun _ _ _ _ h => h) (fun hi => ?_) (fun _ _ _ h => h) (fun _ _ _ h => h) rfl
    rcases hi with hi | hi <;> contradiction
  · refine runService_frame (P := fun t => t.cos = s.cos) h (fun _ _ _ _ _ _ _ _ h => h) (fun _ _ _ _ _ h => h)
      (fun _ _ _ _ h => h) (fun _ _ _ h => h) (fun ho => ?_) (fun _ _ _ h => h) rfl
    rcases ho with ho | ho <;> contradiction
  · exact runService_frame (P := SameLoader s) h (fun _ _ _ _ _ _ _ _ h => h) (fun _ _ _ _ _ h => h) (fun _ _ _ _ h => h)
      (fun _ _ _ h => h) (fun _ _ _ h => h) (fun _ _ _ h => h) ⟨rfl, rfl, rfl, rfl, rfl, rfl⟩
  · exact runService_frame (P := fun t => t.run = s.run) h (fun _ _ _ _ _ _ _ _ h => h) (fun _ _ _ _ _ h => h)
      (fun _ _ _ _ h => h) (fun _ _ _ h => h) (fun _ _ _ h => h) (fun he => absurd he h1) rfl
  · exact stop_next (h1 ▸ h)

/-! ## `rdch` (R233, R238) -/

section ReadChar
variable {h : Int} {s : State} {r : Nat} {st : Stream} (hr : s.recordNo h = some r) (hs : s.records[r]? = some st)
include hr hs

theorem readChar_known {c : Byte} (hc : st.content[st.position]? = some c) :
    s.readChar h = (some (some (normalizeChar c)), { s with records := s.records.set r { st with position := st.position + 1 } }) := by
  simp only [State.readChar, hr, hs, hc]

theorem readChar_end (hc : st.content[st.position]? = none) : s.readChar h = (some none, s) := by
  simp only [State.readChar, hr, hs, hc]

end ReadChar

/-- A carriage return is read as a line feed (R238). -/
theorem trunc16_characterValue (p : Params) (c : Byte) :
    trunc16 (characterValue p (some (normalizeChar c))) = if c = 13 then 10 else c.setWidth 16 := by
  show trunc16 ((normalizeChar c).toNat : Int) = _
  rw [trunc16_byte, normalizeChar]
  split <;> rfl

theorem serviceRdch_eq {s t : State} {c : Option Byte} (h : s.readChar s.cis = (some c, t)) (v : Int) :
    runService .rdch v s = .next (serviceResult (characterValue s.par c) t) := by
  show serviceRdch s = _
  rw [serviceRdch, h]

/-- Settles O49: a read of the current input, its character in `A`. -/
theorem readCharacter : Obligations.ReadCharacter := by
  intro op v s t r st h hr hs
  obtain ⟨n, hexec⟩ := exec_service h
  refine ⟨fun c hc => ?_, fun hc => ?_⟩
  · have hrun := serviceRdch_eq (s := { s with draws := n }) (readChar_known (s := { s with draws := n }) hr hs hc) v
    rw [serviceResult, trunc16_characterValue] at hrun
    exact ⟨_, _, hexec.trans hrun⟩
  · have hrun := serviceRdch_eq (s := { s with draws := n }) (readChar_end hr hs hc) v
    rw [serviceResult, characterValue, trunc16_sext16] at hrun
    exact ⟨_, _, hexec.trans hrun⟩

/-! ## Output (R233, R234) -/

/-- The outcome of an output service: `text` appended to the record `st`, number `r`, to the content of its name where it is a
write stream that has one, and to the live output where the record is the default output's; `A`, `B` and the draw counter free. -/
def Appended (s : State) (r : Nat) (st : Stream) (text : Text) (o : Host.Outcome State Fault Refusal) : Prop :=
  ∃ (files : List (List Byte × List Byte)) (a b : Word) (m : Nat),
    o = .next { s with records := s.records.set r { st with content := st.content ++ text }, files := files,
                       live := if s.recordNo s.par.defaultOutput = some r then s.live ++ text else s.live,
                       a := a, b := b, draws := m } ∧
    ((st.mode = .read ∨ st.name = none) → files = s.files) ∧
    ∀ name, st.mode = .write → st.name = some name →
      (getFile name files).getD [] = (getFile name s.files).getD [] ++ text ∧
      ∀ other, other ≠ name → getFile other files = getFile other s.files

theorem appended_of_writeText {s : State} {r : Nat} {st : Stream} (hr : s.recordNo s.cos = some r) (hs : s.records[r]? = some st)
    (text : Text) (n : Nat) : Appended s r st text (.next (serviceDone (State.writeText s.cos text { s with draws := n }))) := by
  obtain ⟨files, e, hread, hwrite⟩ := writeText_known (s := { s with draws := n }) (text := text) hr hs
  rw [e]
  exact ⟨files, _, _, _, rfl, hread, hwrite⟩

theorem writeChar_eq_writeText (h : Int) (c : Byte) (s : State) : s.writeChar h c = s.writeText h [c] := (writeText_eq h [c] s).symm

theorem trunc8_byte (x : Byte) : trunc8 (x.toNat : Int) = x := by simp [trunc8]

theorem sext16_byte (x : Byte) : sext16 (x.setWidth 16) = x.toNat := by
  have h := x.isLt
  rw [← trunc16_byte, sext16_trunc16_of_range (by omega) (by omega)]

section Output
variable {v : Int} {s : State}

theorem wrch_holds {c : Byte} (h : holdsCells s v [c.setWidth 16] = true) :
    runService .wrch v s = .next (serviceDone (s.writeText s.cos [c])) := by
  have hc : characterOf (c.toNat : Int) s = (c, s) := by
    have := c.isLt
    rw [characterOf, if_pos ⟨by omega, by omega⟩, trunc8_byte]
  show serviceWrch v s = _
  rw [serviceWrch, argument_holds (i := 0) h rfl, andThen_ok, sext16_byte, hc, ← writeChar_eq_writeText]

theorem newLine_eq : runService .newLine v s = .next (serviceDone (s.writeText s.cos [10])) := by
  rw [← writeChar_eq_writeText]
  rfl

theorem writeS_holds {c : Word} {text : List Byte} (h : holdsCells s v [c] = true) (hp : holdsPacked s (sext16 c) text = true) :
    runService .writeS v s = .next (serviceDone (s.writeText s.cos text)) := by
  show serviceWriteS v s = _
  rw [serviceWriteS, argument_holds (i := 0) h rfl, andThen_ok, readPacked_holds hp, andThen_ok]

/-- The format writer's vector pointer is formed, and the draw counter alone may move. -/
theorem formatVector_ok (h : s.par.formatInline = true ∨ validCell s.par (v + 1)) :
    ∃ p n, formatVector v s = .ok p { s with draws := n } := by
  unfold formatVector
  split
  · exact ⟨v + 1, s.draws, rfl⟩
  · rename_i hf
    obtain ⟨w, n, ha, -⟩ := argument_valid (i := 1) rfl (h.resolve_left hf)
    exact ⟨sext16 w, n, ha⟩

theorem writeF_holds {c : Word} {text : List Byte} (h : holdsCells s v [c] = true) (hp : holdsPacked s (sext16 c) text = true)
    (hf : s.par.formatInline = true ∨ validCell s.par (v + 1)) (ht : ∀ x ∈ text, x ≠ 37) :
    ∃ n, runService .writeF v s = .next (serviceDone (State.writeText s.cos text { s with draws := n })) := by
  obtain ⟨p, n, hvec⟩ := formatVector_ok hf
  have hpacked := (holdsPacked_draws s n _ _).trans hp
  refine ⟨n, ?_⟩
  show serviceWriteF v s = _
  rw [serviceWriteF, argument_holds (i := 0) h rfl, andThen_ok, hvec, andThen_ok, readPacked_holds hpacked, andThen_ok,
    writeFormat_plain ht (Nat.le_refl _), andThen_ok]

theorem writeN_holds {n : Word} (h : holdsCells s v [n] = true) :
    runService .writeN v s = .next (serviceDone (s.writeText s.cos (decimalText (sext16 n)))) := by
  show serviceWriteN v s = _
  rw [serviceWriteN, argument_holds (i := 0) h rfl, andThen_ok]

theorem writeDigits_holds {service : Service} {base : Nat} {n count : Word}
    (hb : service = .writeOct ∧ base = 8 ∨ service = .writeHex ∧ base = 16)
    (h : holdsCells s v (if s.par.numberFirst then [n, count] else [count, n]) = true) (hn : 0 ≤ sext16 n) (hc : 0 ≤ sext16 count) :
    runService service v s =
      .next (serviceDone (s.writeText s.cos (fixedDigits base (sext16 count).toNat (sext16 n).toNat))) := by
  rcases hb with ⟨rfl, rfl⟩ | ⟨rfl, rfl⟩
  · show serviceWriteOct v s = _
    rw [serviceWriteOct, twoArguments_holds h, andThen_ok]
    exact congrArg (fun t => Host.Outcome.next (serviceDone t)) (if_pos ⟨hn, hc⟩)
  · show serviceWriteHex v s = _
    rw [serviceWriteHex, twoArguments_holds h, andThen_ok]
    exact congrArg (fun t => Host.Outcome.next (serviceDone t)) (if_pos ⟨hn, hc⟩)

end Output

theorem isDigit_iff (c : Byte) : isDigit c = true ↔ 48 ≤ c.toNat ∧ c.toNat ≤ 57 := by
  simp [isDigit]

theorem decimalText_eq (z : Int) : decimalText z = (if z < 0 then [45] else []) ++ decimalDigits 5 z.natAbs := by
  unfold decimalText
  split <;> rfl

theorem toNat_of_sext16_nonneg {w : Word} (h : 0 ≤ sext16 w) : (sext16 w).toNat = w.toNat := by
  have hw := BitVec.toInt_eq_toNat_cond w
  have hlt := w.isLt
  unfold sext16 at h ⊢
  split at hw <;> omega

/-- Settles O50: each service writes its text to the current output. -/
theorem outputServices : Obligations.OutputServices := by
  intro op v s t r st hr hs written
  have appended : ∀ {service : Service} {text : Text} {n m : Nat}, exec (.k op) s = runService service v { s with draws := n } →
      runService service v { s with draws := n } = .next (serviceDone (State.writeText s.cos text { s with draws := m })) →
      written text := by
    intro service text n m hexec hrun
    show Appended s r st text (exec (.k op) s)
    rw [hexec, hrun]
    exact appended_of_writeText hr hs text m
  refine ⟨fun c h hc => ?_, fun h => ?_, fun c text hc hp => ⟨fun h => ?_, fun h hf ht => ?_⟩, fun n h hn => ?_,
    fun base n count h hargs hn hc => ?_⟩
  · obtain ⟨n, hexec⟩ := exec_service h
    exact appended hexec (wrch_holds ((holdsCells_draws s n v _).trans hc))
  · obtain ⟨n, hexec⟩ := exec_service h
    exact appended hexec newLine_eq
  · obtain ⟨n, hexec⟩ := exec_service h
    exact appended hexec (writeS_holds ((holdsCells_draws s n v _).trans hc) ((holdsPacked_draws s n _ _).trans hp))
  · obtain ⟨n, hexec⟩ := exec_service h
    obtain ⟨m, hrun⟩ := writeF_holds (s := { s with draws := n }) ((holdsCells_draws s n v _).trans hc)
      ((holdsPacked_draws s n _ _).trans hp) hf ht
    exact appended hexec hrun
  · obtain ⟨k, hexec⟩ := exec_service h
    have hrange := sext16_range n
    obtain ⟨h1, h2, h3, h4⟩ := decimalDigits_spec (fuel := 5) (n := (sext16 n).natAbs) (by omega) (by omega)
    refine ⟨decimalDigits 5 (sext16 n).natAbs, fun x hx => (isDigit_iff x).mp (h1 x hx), h3, fun h0 => ?_, h2, ?_⟩
    · exact sext16_eq_zero.mp (by have := h4 h0; omega)
    · have hrun := writeN_holds ((holdsCells_draws s k v _).trans hn)
      rw [decimalText_eq] at hrun
      exact appended hexec hrun
  · obtain ⟨service, hbase, hcall⟩ : ∃ service, (service = .writeOct ∧ base = 8 ∨ service = .writeHex ∧ base = 16) ∧
        callsService service op v s t := by
      rcases h with ⟨h, rfl⟩ | ⟨h, rfl⟩
      · exact ⟨_, .inl ⟨rfl, rfl⟩, h⟩
      · exact ⟨_, .inr ⟨rfl, rfl⟩, h⟩
    obtain ⟨k, hexec⟩ := exec_service hcall
    have hrun := writeDigits_holds (s := { s with draws := k }) hbase ((holdsCells_draws s k v _).trans hargs) hn hc
    rw [toNat_of_sext16_nonneg hn, toNat_of_sext16_nonneg hc] at hrun
    exact ⟨_, fixedDigits_length .., fun j hj => fixedDigits_getElem? hj, appended hexec hrun⟩

end Sys2Proof.Machine
end

section
/-! PROOF. `ReadN` (44_syscall_port.md R241), opening by name (R237) and the string services (R235). -/

namespace Sys2Proof.Machine

/-! ## `ReadN` (R241) -/

theorem map_normalizeChar {text : Text} (h : ∀ x ∈ text, x ≠ 13) : text.map normalizeChar = text := by
  conv_rhs => rw [← List.map_id text]
  exact List.map_congr_left fun x hx => if_neg (h x hx)

theorem isDigit_eq_false {c : Byte} (h : c.toNat < 48 ∨ 57 < c.toNat) : isDigit c = false := by
  rw [Bool.eq_false_iff, Ne, isDigit_iff]
  omega

/-- A run of digits ends at the first character that is none. -/
theorem digits_split {digits rest : Text} {c : Byte} (hd : ∀ x ∈ digits, isDigit x = true) (hc : isDigit c = false) :
    (digits ++ c :: rest).takeWhile isDigit = digits ∧ (digits ++ c :: rest).dropWhile isDigit = c :: rest := by
  rw [List.takeWhile_append_of_pos hd, List.dropWhile_append_of_pos hd]
  simp [hc]

/-- The sign of `ReadN` that a text stands for (log entry 37). -/
def SignText (sign : Int) (text : Text) : Prop :=
  (sign = 1 ∧ text = []) ∨ (sign = 1 ∧ text = [43]) ∨ (sign = -1 ∧ text = [45])

/-- A digit is no white space and no sign. -/
theorem digit_ne {c : Byte} (h : isDigit c = true) : isWhite c = false ∧ c ≠ 45#8 ∧ c ≠ 43#8 := by
  rw [isDigit_iff] at h
  refine ⟨?_, ?_, ?_⟩
  · simp only [isWhite, Bool.or_eq_false_iff, decide_eq_false_iff_not]
    refine ⟨⟨?_, ?_⟩, ?_⟩ <;> rintro rfl <;> simp at h
  · rintro rfl
    simp at h
  · rintro rfl
    simp at h

/-- Blanks, a sign, digits and a character that is none are parsed to the signed number and the text from that character on. -/
theorem parseNumber_eq {blanks signText digits rest : Text} {sign : Int} {c : Byte} (hb : ∀ x ∈ blanks, x = 32)
    (hs : SignText sign signText) (hne : digits ≠ []) (hd : ∀ x ∈ digits, isDigit x = true) (hc : isDigit c = false) :
    parseNumber (blanks ++ signText ++ digits ++ c :: rest) = (sign * (digitsValue 0 digits : Nat), c :: rest) := by
  obtain ⟨d, ds, rfl⟩ := List.exists_cons_of_ne_nil hne
  obtain ⟨hwhite, hminus, hplus⟩ := digit_ne (hd d List.mem_cons_self)
  obtain ⟨htake, hdrop⟩ := digits_split (rest := rest) hd hc
  rw [List.cons_append] at htake hdrop
  have hskip : ∀ text : Text, (blanks ++ text).dropWhile isWhite = text.dropWhile isWhite := fun text =>
    List.dropWhile_append_of_pos fun x hx => by rw [hb x hx]; rfl
  unfold parseNumber
  rw [List.append_assoc, List.append_assoc, hskip]
  rcases hs with ⟨rfl, rfl⟩ | ⟨rfl, rfl⟩ | ⟨rfl, rfl⟩
  · simp [hwhite, hminus, hplus, htake, hdrop]
  · have hw : isWhite 43#8 = false := rfl
    simp [hw, htake, hdrop]
  · have hw : isWhite 45#8 = false := rfl
    simp [hw, htake, hdrop]

/-- All `ReadN` does on a number in the current input. -/
theorem readN_number {s : State} {v number : Int} {c : Byte} {rest : Text} (hst : (s.streamAt s.cis).isSome = true)
    (hv : validCell s.par s.par.terminatorCell) (hp : parseNumber ((s.unread s.cis).map normalizeChar) = (number, c :: rest)) :
    ∃ records m, runService .readN v s = .next (serviceResult number { s with records := records, mem := m }) ∧
      State.peekCell { s with records := records, mem := m } s.par.terminatorCell.toNat = some (c.setWidth 16) ∧
      ∀ b, b / 2 ≠ s.par.terminatorCell.toNat → State.peekByte { s with records := records, mem := m } b = s.peekByte b := by
  obtain ⟨st, hst⟩ := Option.isSome_iff_exists.mp hst
  obtain ⟨records, hrecords⟩ := leaveUnread_frame s.cis ((c :: rest).length - 1) s
  obtain ⟨m, hw, hcell, hfar⟩ := writeCell_spec (s := { s with records := records }) c.toNat hv
  rw [trunc16_byte] at hcell
  refine ⟨records, m, ?_, hcell, hfar⟩
  show serviceReadN s = _
  simp only [serviceReadN, hst, hp, hrecords]
  exact congrArg (Res.andThen · _) hw

/-- Settles O51: the text is parsed, and the terminator's code written to its cell. -/
theorem readNumber : Obligations.ReadNumber := by
  intro op v s t blanks digits rest sign signText c h hst hv hb hne hd hc hcr hs hu
  obtain ⟨n, hexec⟩ := exec_service h
  have hsign : ∀ x ∈ signText, x ≠ 13 := by
    rcases hs with ⟨-, rfl⟩ | ⟨-, rfl⟩ | ⟨-, rfl⟩ <;> simp
  have hdigits : ∀ x ∈ digits, isDigit x = true := fun x hx => (isDigit_iff x).mpr (hd x hx)
  have htext : (s.unread s.cis).map normalizeChar = blanks ++ signText ++ digits ++ c :: rest.map normalizeChar := by
    rw [hu, List.map_append, List.map_append, List.map_append, List.map_cons,
      map_normalizeChar fun x hx => by rw [hb x hx]; decide, map_normalizeChar hsign,
      map_normalizeChar fun x hx => by rintro rfl; exact absurd (hdigits _ hx) (by decide),
      show normalizeChar c = c from if_neg hcr]
  have hparse := parseNumber_eq (rest := rest.map normalizeChar) hb hs hne hdigits (isDigit_eq_false hc)
  rw [← htext] at hparse
  obtain ⟨records, m, hrun, hcell, hfar⟩ := readN_number (s := { s with draws := n }) (v := v) hst hv hparse
  exact ⟨_, hexec.trans hrun, rfl, rfl, hcell, hfar⟩

/-! ## Opening by name (R237) -/

section Open
variable {s : State} {v : Int} {c : Word} {name : List Byte} (hc : holdsCells s v [c] = true)
  (hp : holdsPacked s (sext16 c) name = true)
include hc hp

theorem findInput_holds :
    runService .findInput v s = .next (serviceResult (s.openInput name).1 (s.openInput name).2) := by
  show serviceFindInput v s = _
  rw [serviceFindInput, argument_holds (i := 0) hc rfl, andThen_ok, readPacked_holds hp, andThen_ok]

theorem findOutput_holds :
    runService .findOutput v s = .next (serviceResult (s.openOutput name).1 (s.openOutput name).2) := by
  show serviceFindOutput v s = _
  rw [serviceFindOutput, argument_holds (i := 0) hc rfl, andThen_ok, readPacked_holds hp, andThen_ok]

end Open

theorem open_reserved {s : State} {name : Name} {h : Int} (hr : reservedHandle s.par name = some h) :
    s.openInput name = (h, s) ∧ s.openOutput name = (h, s) := by
  simp only [State.openInput, State.openOutput, hr, and_self]

theorem openInput_found {s : State} {name : Name} {text : Text} (hr : reservedHandle s.par name = none)
    (hf : lookupFile name s.files = some text) : s.openInput name = s.addStream ⟨text, 0, .read, some name⟩ := by
  simp only [State.openInput, hr, hf]

theorem openOutput_new {s : State} {name : Name} (hr : reservedHandle s.par name = none) :
    s.openOutput name = { s with files := setFile name [] s.files }.addStream ⟨[], 0, .write, some name⟩ := by
  simp only [State.openOutput, hr]

/-- Settles O52: a reserved name gives its handle; another gives none or a new one, on the name's content or on an empty entry. -/
theorem openByName : Obligations.OpenByName := by
  intro op v s t c name hc hp
  have cells := fun n => (holdsCells_draws s n v _).trans hc
  have packed := fun n => (holdsPacked_draws s n _ _).trans hp
  refine ⟨fun h hcall hr => ?_, fun hcall hr hf => ?_, fun text hcall hr hf => ?_, fun hcall hr => ?_⟩
  · rcases hcall with hcall | hcall <;> obtain ⟨n, hexec⟩ := exec_service hcall
    · have hrun := findInput_holds (cells n) (packed n)
      rw [(open_reserved (s := { s with draws := n }) hr).1] at hrun
      exact ⟨_, _, hexec.trans hrun⟩
    · have hrun := findOutput_holds (cells n) (packed n)
      rw [(open_reserved (s := { s with draws := n }) hr).2] at hrun
      exact ⟨_, _, hexec.trans hrun⟩
  · obtain ⟨n, hexec⟩ := exec_service hcall
    have hrun := findInput_holds (cells n) (packed n)
    rw [openInput_notFound (s := { s with draws := n }) hr hf] at hrun
    exact ⟨_, _, hexec.trans hrun⟩
  · obtain ⟨n, hexec⟩ := exec_service hcall
    have hrun := findInput_holds (cells n) (packed n)
    rw [openInput_found (s := { s with draws := n }) hr hf] at hrun
    obtain ⟨h0, hnew⟩ := newHandle_fresh { s with draws := n }
    exact ⟨_, _, hexec.trans hrun, h0, hnew, rfl, rfl⟩
  · obtain ⟨n, hexec⟩ := exec_service hcall
    have hrun := findOutput_holds (cells n) (packed n)
    rw [openOutput_new (s := { s with draws := n }) hr] at hrun
    obtain ⟨h0, hnew⟩ := newHandle_fresh { s with draws := n, files := setFile name [] s.files }
    exact ⟨_, _, hexec.trans hrun, h0, hnew, rfl, rfl, getFile_setFile_same .., fun other ho => getFile_setFile_other ho ..⟩

/-! ## Strings (R235) -/

theorem packedBytes_length (text : List Byte) (pad : Byte) : (packedBytes text pad).length = 2 * (text.length / 2 + 1) := by
  unfold packedBytes
  split <;> simp <;> omega

/-- The packed form begins with the length and the characters. -/
theorem packedBytes_getElem? {text : List Byte} {pad x : Byte} {i : Nat} (h : (BitVec.ofNat 8 text.length :: text)[i]? = some x) :
    (packedBytes text pad)[i]? = some x := by
  unfold packedBytes
  rw [List.getElem?_append_left (List.getElem?_eq_some_iff.mp h).1, h]

theorem holdsCells_serviceDone (s : State) (c : Int) (cells : List Word) :
    holdsCells (serviceDone s) c cells = holdsCells s c cells :=
  holdsCells_congr (serviceDone_par s) (serviceDone_mem s) c cells

theorem holdsBytes_serviceDone (s : State) (b : Int) (bytes : List Byte) :
    holdsBytes (serviceDone s) b bytes = holdsBytes s b bytes := by
  induction bytes generalizing b with
  | nil => rfl
  | cons x rest ih =>
    rw [holdsBytes, holdsBytes, ih]
    rfl

theorem holdsPacked_serviceDone (s : State) (c : Int) (text : List Byte) :
    holdsPacked (serviceDone s) c text = holdsPacked s c text := by
  rw [holdsPacked, holdsPacked, holdsBytes_serviceDone]

theorem toNat_length {text : List Byte} (h : text.length ≤ 255) : (BitVec.ofNat 8 text.length).toNat = text.length := by
  rw [BitVec.toNat_ofNat]
  omega

/-- A packed string written at valid cells is held there, and no byte of another cell changes. -/
theorem writeBytes_packed {s : State} {c : Int} {text : List Byte} (pad : Byte) (h0 : 0 ≤ c) (hl : text.length ≤ 255)
    (hv : c + text.length / 2 < s.par.addrLimit) :
    ∃ m n, writeBytes (2 * c) (packedBytes text pad) s = .ok () { s with mem := m, draws := n } ∧
      holdsPacked { s with mem := m, draws := n } c text = true ∧
      ∀ b : Nat, ((b / 2 : Nat) : Int) < c ∨ c + text.length / 2 < ((b / 2 : Nat) : Int) →
        State.peekByte { s with mem := m, draws := n } b = s.peekByte b := by
  have hlen := packedBytes_length text pad
  have hvalid : ∀ i : Nat, i < (packedBytes text pad).length → validCell s.par ((2 * c + i) / 2) := fun i hi =>
    ⟨by omega, by omega⟩
  obtain ⟨m, n, hw, hheld, -, hfar⟩ := writeBytes_spec (by omega) hvalid
  refine ⟨m, n, hw, ?_, fun b hb => hfar b fun i hi => by omega⟩
  rw [holdsPacked, decide_eq_true hl, Bool.true_and]
  refine holdsBytes_of (by omega) (fun i hi => hvalid i ?_) fun i x hx => hheld i x (packedBytes_getElem? hx)
  rw [List.length_cons] at hi
  omega

theorem loByte_ofNat (n : Nat) : loByte (BitVec.ofNat 16 n) = BitVec.ofNat 8 n := by
  apply BitVec.eq_of_toNat_eq
  rw [loByte_eq_setWidth, BitVec.toNat_setWidth, BitVec.toNat_ofNat, BitVec.toNat_ofNat]
  omega

/-- The unpacked form: the length in a cell, then one character a cell (G16). -/
def unpackedCells (text : List Byte) : List Word := BitVec.ofNat 16 text.length :: text.map fun c => c.setWidth 16

theorem unpackedCells_eq {text : List Byte} (h : text.length ≤ 255) :
    (BitVec.ofNat 8 text.length :: text).map (fun x => x.setWidth 16) = unpackedCells text := by
  rw [List.map_cons, unpackedCells]
  congr 1
  apply BitVec.eq_of_toNat_eq
  rw [BitVec.toNat_setWidth, toNat_length h, BitVec.toNat_ofNat]

section Strings
variable {s : State} {v : Int} {source destination : Word} {text : List Byte}
  (hargs : holdsCells s v (if s.par.packSourceFirst then [source, destination] else [destination, source]) = true)
  (hl : text.length ≤ 255) (h0 : 0 ≤ sext16 destination)
include hargs hl h0

theorem packString_holds (hsource : holdsCells s (sext16 source) (unpackedCells text) = true)
    (hv : sext16 destination + text.length / 2 < s.par.addrLimit) :
    ∃ m n, runService .packString v s = .next (serviceDone { s with mem := m, draws := n }) ∧
      holdsPacked { s with mem := m, draws := n } (sext16 destination) text = true ∧
      ∀ b : Nat, ((b / 2 : Nat) : Int) < sext16 destination ∨ sext16 destination + text.length / 2 < ((b / 2 : Nat) : Int) →
        State.peekByte { s with mem := m, draws := n } b = s.peekByte b := by
  obtain ⟨-, -, hchars⟩ := holdsCells_cons hsource
  obtain ⟨m, n, hw, hheld, hfar⟩ :=
    writeBytes_packed (s := { s with draws := s.draws + 1 }) (Config.anyByte s.draws) h0 hl hv
  refine ⟨m, n, ?_, hheld, hfar⟩
  show servicePackString v s = _
  rw [servicePackString, stringArguments, twoArguments_holds hargs, andThen_ok]
  dsimp only
  rw [readCell_holds hsource, andThen_ok, loByte_ofNat, toNat_length hl, readCellBytes_holds hchars, andThen_ok, hw, andThen_ok]

theorem unpackString_holds (hsource : holdsPacked s (sext16 source) text = true)
    (hv : sext16 destination + text.length < s.par.addrLimit) :
    ∃ m, runService .unpackString v s = .next (serviceDone { s with mem := m }) ∧
      holdsCells { s with mem := m } (sext16 destination) (unpackedCells text) = true ∧
      ∀ b : Nat, ((b / 2 : Nat) : Int) < sext16 destination ∨ sext16 destination + text.length < ((b / 2 : Nat) : Int) →
        State.peekByte { s with mem := m } b = s.peekByte b := by
  obtain ⟨m, hw, hheld, hfar⟩ := writeCellBytes_spec (s := s) (c := sext16 destination)
    (bytes := BitVec.ofNat 8 text.length :: text) fun i hi => ⟨by omega, by rw [List.length_cons] at hi; omega⟩
  rw [unpackedCells_eq hl] at hheld
  refine ⟨m, ?_, hheld, fun b hb => hfar b (by rw [List.length_cons]; omega)⟩
  show serviceUnpackString v s = _
  rw [serviceUnpackString, stringArguments, twoArguments_holds hargs, andThen_ok]
  dsimp only
  rw [readPacked_holds hsource, andThen_ok, hw, andThen_ok]

end Strings

/-- Settles O53: the source is read whole, then the destination written whole. -/
theorem stringServices : Obligations.StringServices := by
  intro op v s t source destination text hargs hl h0 unpacked
  refine ⟨fun h hsource hv => ?_, fun h hsource hv => ?_⟩ <;> obtain ⟨k, hexec⟩ := exec_service h
  · obtain ⟨m, n, hrun, hheld, hfar⟩ := packString_holds (s := { s with draws := k }) ((holdsCells_draws s k v _).trans hargs) hl h0
      ((holdsCells_draws s k _ _).trans hsource) hv
    exact ⟨_, hexec.trans hrun, rfl, (holdsPacked_serviceDone ..).trans hheld, hfar⟩
  · obtain ⟨m, hrun, hheld, hfar⟩ := unpackString_holds (s := { s with draws := k }) ((holdsCells_draws s k v _).trans hargs) hl h0
      ((holdsPacked_draws s k _ _).trans hsource) hv
    exact ⟨_, hexec.trans hrun, rfl, (holdsCells_serviceDone ..).trans hheld, hfar⟩

end Sys2Proof.Machine
end

section
/-! PROOF. The loader's cells, labels and bytes (40_loader.md R105 to R113). -/

namespace Sys2Proof.Machine

/-! ## `stw` (R107) -/

theorem emitCell_valid {s : State} (v : Int) (h : validCell s.par s.lc) :
    ∃ m, emitCell v s = .ok () { s with mem := m, lc := s.lc + 1, cp := .low } ∧
      State.peekCell { s with mem := m } s.lc.toNat = some (trunc16 v) ∧
      ∀ b, b / 2 ≠ s.lc.toNat → State.peekByte { s with mem := m } b = s.peekByte b := by
  obtain ⟨m, hw, hcell, hfar⟩ := writeCell_spec v h
  exact ⟨m, by rw [emitCell, hw, bind_ok], hcell, hfar⟩

/-- Settles O55: the write at `LC`, then the cursor. -/
theorem emitCellResult : Obligations.EmitCell := by
  refine fun v s => ⟨fun h => ?_, fun h => by rw [emitCell, writeCell_invalid v h, bind_addressFault]⟩
  obtain ⟨m, he, hcell, hfar⟩ := emitCell_valid v h
  exact ⟨_, he, rfl, hcell, hfar⟩

/-! ## `labref` (R106) -/

theorem checkLabel_ok {n : Nat} {s : State} (h : n < s.par.labelCount) : checkLabel n s = .ok () s := if_pos h

theorem checkLabel_refused {n : Nat} {s : State} (h : s.par.labelCount ≤ n) : checkLabel n s = .refused (.labelOutOfTable n) :=
  if_neg (Nat.not_lt.mpr h)

/-- A valid cell address survives a round trip through the label table. -/
theorem s16_of_validCell {p : Params} {a : Int} (h : validCell p a) : s16 a = a := by
  have h0 := h.1
  have h1 := h.2
  unfold Params.addrLimit at h1
  exact sext16_trunc16_of_range (by omega) (by omega)

/-- A reference to a defined label: its address. -/
theorem labelReference_defined {n : Nat} {a : Int} {s : State} (hn : n < s.par.labelCount) (h : s.labelEntry n < 0) :
    labelReference n a s = writeCell a (-(s.labelEntry n)) s := by
  rw [labelReference, checkLabel_ok hn, bind_ok, if_pos h]

/-- A reference to a label that is not defined: a link of its chain, and its new head. -/
theorem labelReference_pending {n : Nat} {a : Int} {s : State} (hn : n < s.par.labelCount) (h : 0 ≤ s.labelEntry n) :
    labelReference n a s = (writeCell a (s.labelEntry n) s).bind fun _ t => .ok () (t.setLabel n a) := by
  rw [labelReference, checkLabel_ok hn, bind_ok, if_neg (Int.not_lt.mpr h)]

/-- Settles O56: the two kinds of reference, and the refusal before either. -/
theorem labelReferenceResult : Obligations.LabelReference := by
  refine fun n a s => ⟨fun hn ha => ?_, fun hn => by rw [labelReference, checkLabel_refused hn, bind_refused]⟩
  rcases Int.lt_or_le (s.labelEntry n) 0 with he | he
  · obtain ⟨m, hw, hcell, hfar⟩ := writeCell_spec (-(s.labelEntry n)) ha
    exact ⟨_, (labelReference_defined hn he).trans hw, rfl, hfar, fun _ => ⟨hcell, rfl⟩, fun h => absurd he (Int.not_lt.mpr h)⟩
  · obtain ⟨m, hw, hcell, hfar⟩ := writeCell_spec (s.labelEntry n) ha
    refine ⟨State.setLabel n a { s with mem := m }, ?_, rfl, hfar, fun h => absurd h (Int.not_lt.mpr he),
      fun _ => ⟨hcell, ?_, fun k hk => ?_⟩⟩
    · rw [labelReference_pending hn he, hw, bind_ok]
    · rw [labelEntry_setLabel_same, s16_of_validCell ha]
    · exact labelEntry_setLabel_other hk a { s with mem := m }

/-! ## Label definition (R105) -/

/-- A chain starts at no negative address: its label is not defined. -/
theorem chainFrom_nonneg {s : State} {k : Int} {cells : List Nat} (h : chainFrom s k cells = true) : 0 ≤ k := by
  cases cells with
  | nil =>
    have hk : k = 0 := by simpa [chainFrom] using h
    omega
  | cons c rest =>
    have hk := (chainFrom_cons h).1
    omega

/-- Settles O57: the walk patches the chain, and the entry becomes the address. -/
theorem labelDefinitionPatchesEveryReference : Obligations.LabelDefinitionPatchesEveryReference := by
  intro s t n cells hread hn
  refine ⟨fun hchain hdistinct => ?_, fun he => ?_⟩
  · obtain ⟨u, hpatch, hframe, hcells, hfar⟩ := patchChain_chain (label := n) hchain hdistinct (chainFrom_length hchain hdistinct)
    obtain ⟨m, rfl⟩ : ∃ m, u = { t with mem := m } := ⟨_, hframe⟩
    refine ⟨{ State.setLabel n (-t.lc) { t with mem := m } with cp := .low }, ?_, rfl, hcells, hfar, ?_, fun k hk => ?_⟩
    · rw [defineLabel, hread, bind_ok, checkLabel_ok hn, bind_ok, if_neg (Int.not_lt.mpr (chainFrom_nonneg hchain)), hpatch, bind_ok]
    · exact labelEntry_setLabel_same n (-t.lc) { t with mem := m }
    · exact labelEntry_setLabel_other hk (-t.lc) { t with mem := m }
  · obtain ⟨records, files, live, k, hhalt⟩ := halt_frame (.duplicateLabel n) t
    refine ⟨_, ?_, halt_run (.duplicateLabel n) t, by rw [hhalt]⟩
    rw [defineLabel, hread, bind_ok, checkLabel_ok hn, bind_ok, if_pos he]
    rfl

/-! ## `Z` (R113) -/

theorem step_loading {s : State} {c : Byte} (h : s.run = .loading) (hc : s.ch = some c) :
    step s = (dispatchChar c s).andThen fun _ t => .next t := by
  rw [step, h]
  show loaderStep s = _
  rw [loaderStep, hc]

theorem dispatchChar_endOfUnit (s : State) : dispatchChar 90 s = endOfUnit s := rfl

theorem labelEntry_nextChar (n : Nat) (s : State) : (nextChar s).labelEntry n = s.labelEntry n := by
  rw [State.labelEntry, nextChar_labv, State.labelEntry]

theorem firstUnset_nextChar (s : State) : firstUnset (nextChar s) = firstUnset s := by
  simp only [firstUnset, nextChar_par, labelEntry_nextChar]

/-- The lowest label referenced and not defined. -/
theorem firstUnset_eq_some {s : State} {n : Nat} (hn : n < s.par.labelCount) (he : 0 < s.labelEntry n)
    (hlow : ∀ m, m < n → s.labelEntry m ≤ 0) : firstUnset s = some n := by
  rw [firstUnset, List.find?_range_eq_some]
  refine ⟨decide_eq_true he, List.mem_range.mpr hn, fun m hm => ?_⟩
  have := hlow m hm
  simpa using this

theorem firstUnset_eq_none {s : State} (h : ∀ n, n < s.par.labelCount → s.labelEntry n ≤ 0) : firstUnset s = none := by
  rw [firstUnset, List.find?_eq_none]
  intro n hn
  have := h n (List.mem_range.mp hn)
  simpa using this

/-- Settles O58: the table is searched for the lowest label in use and not defined, and cleared where there is none. -/
theorem endOfUnitResult : Obligations.EndOfUnit := by
  intro s hrun hch
  rw [step_loading hrun hch, dispatchChar_endOfUnit, endOfUnit, firstUnset_nextChar]
  refine ⟨fun n hn he hlow => ?_, fun h => ?_⟩
  · rw [firstUnset_eq_some hn he hlow]
    exact ⟨(nextChar s).halt (.unsetLabel n), rfl, halt_run _ _, by simp, by simp, by simp⟩
  · rw [firstUnset_eq_none h]
    exact ⟨{ nextChar s with labv := [], cp := .low }, rfl, by simp [hrun], fun _ => rfl, rfl, by simp, by simp⟩

/-! ## `C<n>` (R109) -/

theorem trunc8_natCast {n : Nat} : trunc8 (n : Int) = BitVec.ofNat 8 n := BitVec.ofInt_natCast ..

/-- A byte alone in the low half of a cell. -/
theorem joinBytes_ofNat_zero {n : Nat} (h : n ≤ 255) : joinBytes (BitVec.ofNat 8 n) (hiByte 0) = BitVec.ofNat 16 n := by
  apply BitVec.eq_of_toNat_eq
  rw [toNat_joinBytes, show hiByte 0 = 0 from rfl, BitVec.toNat_ofNat, BitVec.toNat_ofNat]
  simp
  omega

/-- A byte shifted to the high half of a cell. -/
theorem setWidth_shiftLeft_byte (n : Nat) : (BitVec.ofNat 8 n).setWidth 16 <<< 8 = BitVec.ofNat 16 (256 * n) := by
  apply BitVec.eq_of_toNat_eq
  rw [BitVec.toNat_shiftLeft, BitVec.toNat_setWidth, BitVec.toNat_ofNat, BitVec.toNat_ofNat, Nat.shiftLeft_eq]
  omega

/-- The first byte of a pair: a fresh cell, then its low half. -/
theorem byteDirective_low {s t : State} {n : Nat} (hread : readNumeral (nextChar s) = .ok n t) (hn : n ≤ 255) (hcp : t.cp = .low)
    (hv : validCell t.par t.lc) : ∃ m, byteDirective s = .ok () { t with mem := m, lc := t.lc + 1, cp := .high } ∧
      State.peekCell { t with mem := m } t.lc.toNat = some (BitVec.ofNat 16 n) ∧
      ∀ b, b / 2 ≠ t.lc.toNat → State.peekByte { t with mem := m } b = t.peekByte b := by
  obtain ⟨m, hemit, hcell, hfar⟩ := emitCell_valid 0 hv
  have hlc : 2 * (t.lc + 1 - 1) / 2 = t.lc := by omega
  have hheld : holdsCells { t with mem := m, lc := t.lc + 1, cp := .low } (2 * (t.lc + 1 - 1) / 2) [0] = true := by
    rw [hlc]
    exact holdsCells_singleton.mpr ⟨hv, hcell⟩
  obtain ⟨m', hwrite, hcell', hfar'⟩ := writeByte_holds n hheld
  rw [hlc, withByte, if_pos (by omega), trunc8_natCast, joinBytes_ofNat_zero hn] at hcell'
  refine ⟨m', ?_, hcell', fun b hb => (hfar' b (by rwa [hlc])).trans (hfar b hb)⟩
  rw [byteDirective, hread, bind_ok, if_neg (by omega), hcp]
  simp only [hemit, hwrite, bind_ok]

/-- The second byte of a pair: the high half of the cell before `LC`. -/
theorem byteDirective_high {s t : State} {n : Nat} {w : Word} (hread : readNumeral (nextChar s) = .ok n t) (hn : n ≤ 255)
    (hcp : t.cp = .high) (hw : holdsCells t (t.lc - 1) [w] = true) : ∃ m, byteDirective s = .ok () { t with mem := m, cp := .low } ∧
      State.peekCell { t with mem := m } (t.lc - 1).toNat = some ((w &&& 0x00FF) ||| BitVec.ofNat 16 (256 * n)) ∧
      ∀ b, b / 2 ≠ (t.lc - 1).toNat → State.peekByte { t with mem := m } b = t.peekByte b := by
  have hlc : (2 * (t.lc - 1) + 1) / 2 = t.lc - 1 := by omega
  obtain ⟨m, hwrite, hcell, hfar⟩ := writeByte_holds (b := 2 * (t.lc - 1) + 1) n (by rwa [hlc])
  rw [hlc, withByte, if_neg (by omega), trunc8_natCast, joinBytes_loByte, setWidth_shiftLeft_byte] at hcell
  refine ⟨m, ?_, hcell, fun b hb => hfar b (by rwa [hlc])⟩
  rw [byteDirective, hread, bind_ok, if_neg (by omega), hcp]
  simp only [hwrite, bind_ok]

/-- Settles O59: the byte slot says which half is written. -/
theorem byteDirectiveResult : Obligations.ByteDirective := by
  intro s t n hread
  refine ⟨fun hn hcp hv => ?_, fun w hn hcp hw => ?_, fun hn => ?_⟩
  · obtain ⟨m, he, hcell, hfar⟩ := byteDirective_low hread hn hcp hv
    exact ⟨_, he, rfl, hcell, hfar⟩
  · obtain ⟨m, he, hcell, hfar⟩ := byteDirective_high hread hn hcp hw
    exact ⟨_, he, rfl, hcell, hfar⟩
  · rw [byteDirective, hread, bind_ok, if_pos hn]

end Sys2Proof.Machine
end

section
/-! PROOF. The loader and the decoder agree (40_loader.md R108, 30_encoding.md R80): the text of an instruction, the cells emitted for
it, and the instruction they decode to. -/

namespace Sys2Proof.Machine

/-! ## Text pending at the loader -/

/-- The text from `CH` on is `text`: its first character has been read, the rest is unread. -/
def Pending (s : State) (text : Text) : Prop := s.ch = text.head?.map normalizeChar ∧ s.unread s.cis = text.tail

/-- `t` is `s` after reading text: `CH` and the streams' positions moved. -/
def ReadOn (s t : State) : Prop := t = { s with ch := t.ch, records := t.records }

theorem ReadOn.trans {s t u : State} (h : ReadOn s t) (h' : ReadOn t u) : ReadOn s u := by
  unfold ReadOn at h h' ⊢
  rw [h', h]

theorem nextChar_pending {s : State} {text : Text} (h : s.unread s.cis = text) :
    Pending (nextChar s) text ∧ ReadOn s (nextChar s) := by
  obtain ⟨records, he, hu⟩ := nextChar_unread h
  rw [he]
  exact ⟨⟨rfl, hu⟩, rfl⟩

/-- The pending text does not begin with the character `k`, as it is read. -/
def NotNext (k : Byte) (text : Text) : Prop := text.head?.map normalizeChar ≠ some k

theorem notNext_optional {k c : Byte} {text : Text} (flag : Bool) (hc : normalizeChar c ≠ k) (h : NotNext k text) :
    NotNext k ((if flag then [c] else []) ++ text) := by
  cases flag
  · exact h
  · simpa [NotNext] using hc

theorem notNext_digits {k : Byte} {digits rest : Text} (hne : digits ≠ []) (hd : ∀ x ∈ digits, isDigit x = true)
    (hk : isDigit k = false) : NotNext k (digits ++ rest) := by
  obtain ⟨d, ds, rfl⟩ := List.exists_cons_of_ne_nil hne
  have hdigit := hd d List.mem_cons_self
  simp only [NotNext, List.cons_append, List.head?_cons, Option.map_some, normalizeChar_digit hdigit, ne_eq, Option.some.injEq]
  rintro rfl
  rw [hdigit] at hk
  cases hk

/-- An optional letter is skipped, and said to have been there, exactly where it stands. -/
theorem skipLetter_pending {s : State} {c : Byte} {flag : Bool} {text : Text} (hc : c ≠ 13) (hn : NotNext c text)
    (h : Pending s ((if flag then [c] else []) ++ text)) :
    ∃ t, skipLetter c s = (flag, t) ∧ Pending t text ∧ ReadOn s t := by
  cases flag with
  | false =>
    have hch : ¬ s.ch = some c := by
      rw [h.1]
      exact hn
    exact ⟨s, if_neg hch, h, rfl⟩
  | true =>
    obtain ⟨hch, hu⟩ := h
    have hch' : s.ch = some c := by
      rw [hch]
      exact congrArg some (if_neg hc)
    obtain ⟨hp, hr⟩ := nextChar_pending hu
    exact ⟨nextChar s, if_pos hch', hp, hr⟩

/-- A pending numeral is read to its end. -/
theorem readNumeral_pending {s : State} {digits after : Text} (hne : digits ≠ []) (hd : ∀ x ∈ digits, isDigit x = true)
    (ha : ∀ c, after.head? = some c → isDigit c = false) (hv : digitsValue 0 digits ≤ 65535) (h : Pending s (digits ++ after)) :
    ∃ t, readNumeral s = .ok (digitsValue 0 digits) t ∧ Pending t after ∧ ReadOn s t := by
  obtain ⟨d, ds, rfl⟩ := List.exists_cons_of_ne_nil hne
  obtain ⟨hch, hu⟩ := h
  have hdigit := hd d List.mem_cons_self
  have hch' : s.ch = some d := by
    rw [hch]
    exact congrArg some (normalizeChar_digit hdigit)
  obtain ⟨records, hread, hunread⟩ :=
    readNumeral_run hch' hdigit (fun x hx => hd x (List.mem_cons_of_mem d hx)) ha hu hv
  exact ⟨_, hread, ⟨rfl, hunread⟩, rfl⟩

/-! ## Emission -/

/-- What `assembleInstruction` emits once its text is read (R108): the opcode and the modifiers' flags in a word, the operand. -/
def emitInstruction (opcode : Nat) (indirect relative byLabel : Bool) (n : Nat) (s : State) : Res Unit :=
  let w : Int := opcode + (if indirect then 8 else 0) + (if relative then 16 else 0)
  if byLabel then (emitCell (w + 32) s).bind fun _ t => (emitCell 0 t).bind fun _ u => labelReference n (u.lc - 1) u
  else if n ≤ 255 then emitCell (w + 256 * n) s
  else (emitCell (w + 32) s).bind fun _ t => emitCell n t

/-- The text of an instruction after its opcode letter: optional `I`, `P` and filler letter, and `L` and digits or digits. -/
def operandText (filler : Byte) (indirect relative filled byLabel : Bool) (digits : Text) : Text :=
  (if indirect then [73] else []) ++ ((if relative then [80] else []) ++ ((if filled then [filler] else []) ++
    ((if byLabel then [76] else []) ++ digits)))

/-- The text of an instruction is read to its end, and says what is emitted. -/
theorem assembleInstruction_text {opcode : Nat} {s : State} {indirect relative filled byLabel : Bool} {digits after : Text}
    (hf : s.par.fillerLetter ∉ [13, 73, 80, 76]) (hfd : isDigit s.par.fillerLetter = false) (hne : digits ≠ [])
    (hd : ∀ x ∈ digits, isDigit x = true) (ha : ∀ c, after.head? = some c → isDigit c = false)
    (hv : digitsValue 0 digits ≤ 65535)
    (hu : s.unread s.cis = operandText s.par.fillerLetter indirect relative filled byLabel digits ++ after) :
    ∃ t, assembleInstruction opcode s = emitInstruction opcode indirect relative byLabel (digitsValue 0 digits) t ∧
      Pending t after ∧ ReadOn s t := by
  simp only [operandText, List.append_assoc] at hu
  simp only [List.mem_cons, List.not_mem_nil, or_false, not_or] at hf
  obtain ⟨h13, h73, h80, h76⟩ := hf
  have hfiller : normalizeChar s.par.fillerLetter = s.par.fillerLetter := if_neg h13
  have label (k : Byte) (hk : isDigit k = false) (hk' : k ≠ 76) :
      NotNext k ((if byLabel then [76] else []) ++ (digits ++ after)) :=
    notNext_optional _ (fun h => hk' h.symm) (notNext_digits hne hd hk)
  have fill (k : Byte) (hk : isDigit k = false) (hk' : k ≠ 76) (hkf : k ≠ s.par.fillerLetter) :
      NotNext k ((if filled then [s.par.fillerLetter] else []) ++ ((if byLabel then [76] else []) ++ (digits ++ after))) :=
    notNext_optional _ (fun h => hkf (hfiller ▸ h.symm)) (label k hk hk')
  obtain ⟨p0, r0⟩ := nextChar_pending hu
  obtain ⟨s1, e1, p1, r1⟩ := skipLetter_pending (by decide)
    (notNext_optional _ (by decide) (fill 73 (by decide) (by decide) fun h => h73 h.symm)) p0
  obtain ⟨s2, e2, p2, r2⟩ := skipLetter_pending (by decide) (fill 80 (by decide) (by decide) fun h => h80 h.symm) p1
  obtain ⟨s3, e3, p3, r3⟩ := skipLetter_pending h13 (label _ hfd h76) p2
  obtain ⟨s4, e4, p4, r4⟩ := skipLetter_pending (by decide) (notNext_digits hne hd (by decide)) p3
  obtain ⟨s5, e5, p5, r5⟩ := readNumeral_pending hne hd ha hv p4
  refine ⟨s5, ?_, p5, r0.trans (r1.trans (r2.trans (r3.trans (r4.trans r5))))⟩
  simp only [assembleInstruction, e1, e2, e3, e4, e5, bind_ok]
  rfl

/-- The cells emitted at `LC`: they are held there, `LC` is past them, `CP` is 0, and memory and label table alone change besides. -/
def Emitted (s t : State) (cells : List Word) : Prop :=
  t = { s with mem := t.mem, lc := s.lc + cells.length, cp := .low, labv := t.labv } ∧ holdsCells t s.lc cells = true ∧
  ∀ b : Nat, ((b / 2 : Nat) : Int) < s.lc ∨ s.lc + cells.length ≤ ((b / 2 : Nat) : Int) → t.peekByte b = s.peekByte b

theorem emitCell_emitted {s : State} (v : Int) (h : validCell s.par s.lc) :
    ∃ t, emitCell v s = .ok () t ∧ Emitted s t [trunc16 v] ∧ t.labv = s.labv := by
  have h0 := h.1
  obtain ⟨m, he, hcell, hfar⟩ := emitCell_valid v h
  refine ⟨_, he, ⟨rfl, holdsCells_singleton.mpr ⟨h, hcell⟩, fun b hb => hfar b ?_⟩, rfl⟩
  rw [List.length_singleton] at hb
  omega

/-- Two cells emitted in turn. -/
theorem emitCell_twice {s : State} (v x : Int) (h : validCell s.par s.lc) (h' : validCell s.par (s.lc + 1)) :
    ∃ t, ((emitCell v s).bind fun _ t => emitCell x t) = .ok () t ∧ Emitted s t [trunc16 v, trunc16 x] ∧ t.labv = s.labv := by
  obtain ⟨t, et, ⟨ft, ct, bt⟩, lt⟩ := emitCell_emitted v h
  have hpar : t.par = s.par := ft ▸ rfl
  have hlc : t.lc = s.lc + 1 := ft ▸ rfl
  obtain ⟨u, eu, ⟨fu, cu, bu⟩, lu⟩ := emitCell_emitted (s := t) x (by rw [hpar, hlc]; exact h')
  simp only [hlc, List.length_singleton] at fu cu bu bt
  refine ⟨u, by rw [et, bind_ok, eu], ⟨?_, ?_, fun b hb => ?_⟩, lu.trans lt⟩
  · rw [fu, ft]
    simp [add_assoc]
  · have hfirst : holdsCells u s.lc [trunc16 v] = true :=
      holdsCells_of_bytes ct (fu ▸ rfl) fun b hb hb' => bu b (.inl (by simp at hb'; omega))
    exact holdsCells_append_intro hfirst cu
  · simp only [List.length_cons, List.length_nil] at hb
    exact (bu b (by omega)).trans (bt b (by omega))

/-- A word and a label reference emitted in turn: the operand cell holds the label's address or the link of its chain. -/
theorem emitLabel_emitted {s : State} {n : Nat} (v : Int) (hn : n < s.par.labelCount) (h : validCell s.par s.lc)
    (h' : validCell s.par (s.lc + 1)) :
    ∃ t, ((emitCell v s).bind fun _ t => (emitCell 0 t).bind fun _ u => labelReference n (u.lc - 1) u) = .ok () t ∧
      Emitted s t [trunc16 v, trunc16 |s.labelEntry n|] ∧ (s.labelEntry n < 0 → t.labv = s.labv) ∧
      (0 ≤ s.labelEntry n → t.labelEntry n = s.lc + 1 ∧ ∀ m, m ≠ n → t.labelEntry m = s.labelEntry m) := by
  obtain ⟨u, eu, ⟨fu, cu, bu⟩, lu⟩ := emitCell_twice v 0 h h'
  have hpar : u.par = s.par := fu ▸ rfl
  have hlc : u.lc - 1 = s.lc + 1 := by
    rw [fu]
    simp
    omega
  have hentry : ∀ m, u.labelEntry m = s.labelEntry m := fun m => by rw [State.labelEntry, lu, State.labelEntry]
  obtain ⟨t, et, ft, bt, hdefined, hpending⟩ := (labelReferenceResult n (s.lc + 1) u).1 (hpar ▸ hn) (hpar ▸ h')
  rw [hentry] at hdefined hpending
  have hcell : t.peekCell (s.lc + 1).toNat = some (trunc16 |s.labelEntry n|) := by
    rcases Int.lt_or_le (s.labelEntry n) 0 with he | he
    · rw [abs_of_neg he]
      exact (hdefined he).1
    · rw [abs_of_nonneg he]
      exact (hpending he).1
  have h0 := h.1
  refine ⟨t, ?_, ⟨?_, ?_, fun b hb => ?_⟩, fun he => ((hdefined he).2).trans lu, fun he => ?_⟩
  · obtain ⟨_, w, ew, ez⟩ := bind_eq_ok eu
    rw [ew, bind_ok, ez, bind_ok, hlc, et]
  · rw [ft, fu]
    rfl
  · have hfirst : holdsCells t s.lc [trunc16 v] = true :=
      holdsCells_of_bytes (holdsCells_append (l := [_]) cu).1 (ft ▸ rfl) fun b _ hb => bt b (by simp at hb; omega)
    exact holdsCells_append_intro hfirst (holdsCells_singleton.mpr ⟨by rw [ft, hpar]; exact h', hcell⟩)
  · simp only [List.length_cons, List.length_nil] at hb
    exact (bt b (by omega)).trans (bu b (by simp; omega))
  · obtain ⟨-, hlast, hother⟩ := hpending he
    exact ⟨hlast, fun m hm => (hother m hm).trans (hentry m)⟩

/-! ## The emitted cells are the encoding -/

/-- A word is the sum of its fields at their places (R108). -/
theorem trunc16_fields {v : Int} {n : Byte} {d p i : Bool} {op : BitVec 3}
    (h : v = 256 * n.toNat + 32 * d.toNat + 16 * p.toNat + 8 * i.toNat + op.toNat) : trunc16 v = fieldsWord n d p i op := by
  have hv : v = ((fieldsWord n d p i op).toNat : Int) := by
    rw [toNat_fieldsWord, h]
    push_cast
    rfl
  rw [hv]
  show BitVec.ofInt 16 _ = _
  rw [BitVec.ofInt_natCast, BitVec.ofNat_toNat, BitVec.setWidth_eq]

theorem ite_eq_mul_toNat (flag : Bool) (k : Int) : (if flag then k else 0) = k * flag.toNat := by
  cases flag <;> simp

/-- The literal that the loader gives an operand: a label's address or the link of its chain, or a number. -/
def assembledLiteral (s : State) (byLabel : Bool) (n : Nat) : Literal :=
  if byLabel then .extended (BitVec.ofInt 16 |s.labelEntry n|)
  else if n ≤ 255 then .packed (BitVec.ofNat 8 n) else .extended (BitVec.ofNat 16 n)

/-- What an operand does to the label table: a reference to a label not yet defined heads its chain. -/
def Referenced (s t : State) (byLabel : Bool) (n : Nat) : Prop :=
  (byLabel = false ∨ s.labelEntry n < 0 → t.labv = s.labv) ∧
  (byLabel = true → 0 ≤ s.labelEntry n → t.labelEntry n = s.lc + 1 ∧ ∀ m, m ≠ n → t.labelEntry m = s.labelEntry m)

theorem referenced_of_labv {s t : State} (n : Nat) (h : t.labv = s.labv) : Referenced s t false n :=
  ⟨fun _ => h, fun hf => nomatch hf⟩

/-- The cells emitted for an instruction are its encoding. -/
theorem emitInstruction_emitted {s : State} (op : BitVec 3) (i p byLabel : Bool) {n : Nat}
    (hn : byLabel = true → n < s.par.labelCount) (h : validCell s.par s.lc)
    (h' : byLabel = true ∨ 255 < n → validCell s.par (s.lc + 1)) :
    ∃ t, emitInstruction op.toNat i p byLabel n s = .ok () t ∧
      Emitted s t (encodeCells op ⟨i, p, assembledLiteral s byLabel n⟩) ∧ Referenced s t byLabel n := by
  have hword (e : Word) : trunc16 (op.toNat + (if i then 8 else 0) + (if p then 16 else 0) + 32) =
      encodeWord op ⟨i, p, .extended e⟩ := by
    rw [encodeWord_extended]
    refine trunc16_fields ?_
    rw [ite_eq_mul_toNat, ite_eq_mul_toNat]
    simp
    omega
  cases byLabel with
  | true =>
    obtain ⟨t, et, ht, hdefined, hpending⟩ := emitLabel_emitted
      (op.toNat + (if i then 8 else 0) + (if p then 16 else 0) + 32) (hn rfl) h (h' (.inl rfl))
    rw [hword (BitVec.ofInt 16 |s.labelEntry n|)] at ht
    exact ⟨t, et, ht, fun hor => hdefined (hor.resolve_left nofun), fun _ => hpending⟩
  | false =>
    rcases Nat.lt_or_ge 255 n with hlarge | hsmall
    · have hlit : assembledLiteral s false n = .extended (BitVec.ofNat 16 n) := if_neg (Nat.not_le.mpr hlarge)
      obtain ⟨t, et, ht, hl⟩ := emitCell_twice (op.toNat + (if i then 8 else 0) + (if p then 16 else 0) + 32) n h (h' (.inr hlarge))
      rw [hword (BitVec.ofNat 16 n), show trunc16 (n : Int) = BitVec.ofNat 16 n from BitVec.ofInt_natCast ..] at ht
      exact ⟨t, (if_neg (Nat.not_le.mpr hlarge)).trans et, hlit ▸ ht, referenced_of_labv n hl⟩
    · have hlit : assembledLiteral s false n = .packed (BitVec.ofNat 8 n) := if_pos hsmall
      obtain ⟨t, et, ht, hl⟩ := emitCell_emitted (op.toNat + (if i then 8 else 0) + (if p then 16 else 0) + 256 * n) h
      have hpacked : trunc16 (op.toNat + (if i then 8 else 0) + (if p then 16 else 0) + 256 * n) =
          encodeWord op ⟨i, p, .packed (BitVec.ofNat 8 n)⟩ := by
        rw [encodeWord_packed]
        refine trunc16_fields ?_
        rw [ite_eq_mul_toNat, ite_eq_mul_toNat, BitVec.toNat_ofNat, Nat.mod_eq_of_lt (by omega)]
        simp
        omega
      rw [hpacked] at ht
      exact ⟨t, (if_pos hsmall).trans et, hlit ▸ ht, referenced_of_labv n hl⟩

/-- The encoding has two cells for a label and for a number above 255, else one. -/
theorem length_encodeCells_assembled (s : State) (op : BitVec 3) (i p byLabel : Bool) (n : Nat) :
    (encodeCells op ⟨i, p, assembledLiteral s byLabel n⟩).length = if byLabel = true ∨ 255 < n then 2 else 1 := by
  cases byLabel with
  | true => rfl
  | false =>
    rcases Nat.lt_or_ge 255 n with hlarge | hsmall
    · rw [assembledLiteral, if_neg nofun, if_neg (Nat.not_le.mpr hlarge), if_pos (.inr hlarge)]
      rfl
    · rw [assembledLiteral, if_neg nofun, if_pos hsmall, if_neg (by simp [hsmall])]
      rfl

/-! ## The obligation -/

/-- The letters that begin an instruction, each with the instruction it stands for (R108). -/
theorem opcodeLetter_dispatch {letter : Byte} {i : Instr} {op : Operand}
    (h : (letter, i) ∈ [((76 : Byte), Instr.l op), (83, .s op), (65, .a op), (74, .j op), (84, .t op), (70, .f op), (75, .k op),
      (88, decodeExtended op)]) :
    ∃ opcode : BitVec 3, i = instrOf opcode.toNat op ∧ ∀ s, dispatchChar letter s = assembleInstruction opcode.toNat s := by
  simp only [List.mem_cons, Prod.mk.injEq, List.not_mem_nil, or_false] at h
  rcases h with ⟨rfl, rfl⟩ | ⟨rfl, rfl⟩ | ⟨rfl, rfl⟩ | ⟨rfl, rfl⟩ | ⟨rfl, rfl⟩ | ⟨rfl, rfl⟩ | ⟨rfl, rfl⟩ | ⟨rfl, rfl⟩
  exacts [⟨0, rfl, fun _ => rfl⟩, ⟨1, rfl, fun _ => rfl⟩, ⟨2, rfl, fun _ => rfl⟩, ⟨3, rfl, fun _ => rfl⟩,
    ⟨4, rfl, fun _ => rfl⟩, ⟨5, rfl, fun _ => rfl⟩, ⟨6, rfl, fun _ => rfl⟩, ⟨7, rfl, fun _ => rfl⟩]

/-- Settles O60: the text is read, the encoding of its instruction emitted, and that decodes and runs as any encoding does. -/
theorem assembledInstructionDecodes : Obligations.AssembledInstructionDecodes := by
  intro s letter indirect relative filler byLabel digits after i hrun hch hf hfd hne hd ha hu n hn hlabel hv hv' literal op hmem
  obtain ⟨opcode, rfl, hdispatch⟩ := opcodeLetter_dispatch hmem
  have hwf := instrOf_wf opcode op
  have hdec := decodeEncodeRoundTrip (instrOf opcode.toNat op) [] hwf
  rw [List.append_nil] at hdec
  obtain ⟨r, er, ⟨hrch, hru⟩, hr⟩ := assembleInstruction_text (opcode := opcode.toNat) (indirect := indirect)
    (relative := relative) (filled := filler) (byLabel := byLabel) hf hfd hne hd ha hn
      (hu.trans (by simp only [operandText, List.append_assoc]))
  obtain ⟨records, c, rfl⟩ : ∃ records c, r = { s with ch := c, records := records } := ⟨_, _, hr⟩
  obtain ⟨t, et, ⟨ft, ct, bt⟩, hdefined, hpending⟩ :=
    emitInstruction_emitted opcode indirect relative byLabel (s := { s with ch := c, records := records }) hlabel hv hv'
  have hlen : (encode (instrOf opcode.toNat op)).length = if byLabel = true ∨ 255 < n then 2 else 1 := by
    rw [encode_instrOf]
    exact length_encodeCells_assembled s opcode indirect relative byLabel n
  have hencode : encodeCells opcode ⟨indirect, relative, assembledLiteral { s with ch := c, records := records } byLabel n⟩ =
      encode (instrOf opcode.toNat op) := (encode_instrOf opcode op).symm
  rw [hencode] at ft ct bt
  have hlc : t.lc = s.lc + (encode (instrOf opcode.toNat op)).length := ft ▸ rfl
  refine ⟨t, ?_, ?_, ct, hdec, fun w hwrun hwpc hwpar hwmem => ?_, ?_, ?_, hdefined, hpending, fun b hb => bt b ?_⟩
  · rw [step_loading hrun hch, hdispatch, er, et, andThen_ok]
  · rw [hlc, hlen]
    split <;> rfl
  · rw [hlc, ← hwpc]
    refine encodedInstructionRuns w _ hwf hwrun ?_
    rw [holdsCells_congr hwpar hwmem, hwpc]
    exact ct
  · rw [ft]
    simp only [← hrch]
  · rw [ft]
    exact hru
  · rw [← hlc]
    exact hb

end Sys2Proof.Machine
end
